-- ==== Sys2Proof/Word.lean ====
section
/-! DEFINITION. The plain data types of LZWD: bytes, codes, register words and the non-empty byte strings that table
entries are. -/

namespace Sys2Proof

/-- One byte of IBUF or OBUF (`20_memory.md` R60). -/
abbrev Byte := BitVec 8

/-- A code, zero-extended to 12 bits (`30_encoding.md` R92). -/
abbrev Code := BitVec 12

/-- A 32-bit value: the length registers and the value of a register access (`10_state.md` R21). -/
abbrev Word := BitVec 32

/-- A byte string of length at least 1, as every string of this block is (`00_scope.md` R17, `10_state.md` R40): its
first byte and the bytes after it. No empty table entry can be written (log 14). -/
structure ByteStr where
  head : Byte
  tail : List Byte
  deriving DecidableEq, Repr

end Sys2Proof
end

