-- ==== Sys2Proof/Config.lean ====
section
/-! DEFINITION. The constants of the block (`00_scope.md` R7, R9) and its two open parameters (R10). -/

namespace Sys2Proof

/-- `MAX_CW`, the greatest code width (`00_scope.md` R7). -/
abbrev maxCw : Nat := 12

/-- `DICT_SIZE`, the number of table slots (`00_scope.md` R7). -/
abbrev dictSize : Nat := 4096

/-- The two parameters the platform fixes, each at most 2^32 - 1 (`00_scope.md` R10, R11). A machine's step never changes
them (log 1). -/
structure Config where
  /-- `IBUF_SIZE`, bytes of input buffer memory. -/
  ibufSize : Fin 4294967296
  /-- `OBUF_SIZE`, bytes of output buffer memory. -/
  obufSize : Fin 4294967296
  deriving DecidableEq, Repr

/-- The parameters of `State.reset`: both buffers as large as R10 allows. DESIGN CHOICE (log 1). -/
def Config.largest : Config := { ibufSize := 4294967295, obufSize := 4294967295 }

end Sys2Proof
end

