-- ==== Sys2Proof/Syntax.lean ====
section
/-! DEFINITION. The eight operations of `30_encoding.md` R95, one constructor for each row of the opcode table. -/

namespace Sys2Proof

/-- Six code classes and two host commands (`30_encoding.md` R95). The code classes whose meaning uses the code's value
carry it as their operand, zero-extended to 12 bits (R92). -/
inductive Instr where
  /-- Clear Code, `c = CC` (`42_control_codes.md` R160). -/
  | clr
  /-- End-of-Information code, `c = CC + 1` (`42_control_codes.md` R163). -/
  | eoi
  /-- Literal, `c < CC` (`43_data_codes.md` R172 and R173). -/
  | lit (c : Code)
  /-- Learned entry, `CC + 2 <= c < NEXT` (`43_data_codes.md` R174). -/
  | ref (c : Code)
  /-- The code equal to NEXT (`43_data_codes.md` R178). -/
  | kwk (c : Code)
  /-- A code that names no entry (`43_data_codes.md` R180 and R181). -/
  | bad (c : Code)
  /-- The START command (`44_host_commands.md` R190). -/
  | start
  /-- The RESET command (`44_host_commands.md` R194). -/
  | reset
  deriving DecidableEq, Repr

end Sys2Proof
end

