-- ==== Sys2Proof/WellFormed.lean ====
section
/-! DEFINITION. What a code is read against, and which instructions are well formed there. The class of a code depends on
MCS, CW, NEXT and FIRST (`30_encoding.md` R91, R94), so well-formedness is relative to those four registers. -/

namespace Sys2Proof

/-- The registers that decide a code's length and class (`30_encoding.md` R91, R94). -/
structure CodeCtx where
  mcs   : BitVec 8
  cw    : BitVec 4
  next  : BitVec 13
  first : Bool
  deriving DecidableEq, Repr

/-- The legal range of the minimum code size, `M_MIN = 2` to `M_MAX = 8` (`00_scope.md` R9). -/
abbrev legalMcs (m : BitVec 8) : Prop := 2 ≤ m.toNat ∧ m.toNat ≤ 8

/-- `CC = 1 << MCS` (`10_state.md` R38), meaningful for a legal MCS. -/
def clearCode (m : BitVec 8) : Nat := 2 ^ m.toNat

/-- `EOI = CC + 1` (`10_state.md` R38). -/
def eoiCode (m : BitVec 8) : Nat := clearCode m + 1

/-- The widths a code can have, `MCS + 1 <= w <= 12` (`30_encoding.md` R90). -/
abbrev legalCw (m : BitVec 8) (w : BitVec 4) : Prop := m.toNat + 1 ≤ w.toNat ∧ w.toNat ≤ maxCw

/-- A context in which codes have a format and a class: a legal MCS and a legal width (`30_encoding.md` R90). -/
abbrev CodeCtx.legal (x : CodeCtx) : Prop := legalMcs x.mcs ∧ legalCw x.mcs x.cw

/-- The value of the code an instruction stands for; none for a host command. -/
def Instr.codeValue (x : CodeCtx) : Instr → Option Nat
  | .clr => some (clearCode x.mcs)
  | .eoi => some (eoiCode x.mcs)
  | .lit c => some c.toNat
  | .ref c => some c.toNat
  | .kwk c => some c.toNat
  | .bad c => some c.toNat
  | .start => none
  | .reset => none

/-- Well-formedness of an instruction in a context: its code value fits the width (`30_encoding.md` R92) and the
condition of its line of R94 holds. A host command is well formed everywhere (R99). -/
def Instr.wf (x : CodeCtx) : Instr → Bool
  | .clr => decide x.legal
  | .eoi => decide x.legal
  | .lit c => decide (x.legal ∧ c.toNat < 2 ^ x.cw.toNat ∧ c.toNat < clearCode x.mcs)
  | .ref c => decide (x.legal ∧ c.toNat < 2 ^ x.cw.toNat ∧ x.first = false ∧
      clearCode x.mcs + 2 ≤ c.toNat ∧ c.toNat < x.next.toNat)
  | .kwk c => decide (x.legal ∧ c.toNat < 2 ^ x.cw.toNat ∧ x.first = false ∧
      clearCode x.mcs + 2 ≤ c.toNat ∧ c.toNat = x.next.toNat)
  | .bad c => decide (x.legal ∧ c.toNat < 2 ^ x.cw.toNat ∧ clearCode x.mcs + 2 ≤ c.toNat ∧
      (x.first = true ∨ x.next.toNat < c.toNat))
  | .start => true
  | .reset => true

end Sys2Proof
end

