-- ==== Sys2Proof/Decode.lean ====
section
/-! DEFINITION. The bit order of codes (`20_memory.md` R65, R66), the decoder of code bytes (`30_encoding.md` R92, R94) and of
CTRL writes (R99), and after them the encoder and the packing of a code stream into bytes (R103). -/

namespace Sys2Proof

/-- Why the decoder gives no instruction. -/
inductive DecodeError where
  /-- MCS is outside 2..8: no code class is defined (`00_scope.md` R9, U1). -/
  | illegalMcs
  /-- CW is outside `MCS + 1 .. 12`: no code has this width (`30_encoding.md` R90). -/
  | illegalWidth
  /-- Fewer bits than the code's width (`40_bitreader.md` R120). -/
  | truncated
  /-- A CTRL write with both command bits clear (`30_encoding.md` R99). -/
  | noCommand
  deriving DecidableEq, Repr

/-- Stream bit `k` of a byte sequence: `(B[k div 8] >> (k mod 8)) & 1`, an absent byte taken as 0 (`20_memory.md` R65,
R66). PRESUMED order: the spec marks it as general knowledge of GIF (log 9). -/
def streamBit (bytes : List Byte) (k : Nat) : Nat :=
  ((bytes.getD (k / 8) 0).toNat >>> (k % 8)) % 2

/-- The value of the `w` stream bits from bit `p` on, the first one least significant (`30_encoding.md` R92). -/
def assemble (bytes : List Byte) (p : Nat) : Nat → Nat
  | 0 => 0
  | w + 1 => streamBit bytes p + 2 * assemble bytes (p + 1) w

/-- The class of a code, by the tests of `30_encoding.md` R94 in their order; the last line takes every code of at least
`CC + 2` that is neither known nor equal to NEXT. -/
def classify (x : CodeCtx) (c : Code) : Instr :=
  if c.toNat = clearCode x.mcs then .clr
  else if c.toNat = eoiCode x.mcs then .eoi
  else if c.toNat < clearCode x.mcs then .lit c
  else if x.first then .bad c
  else if c.toNat < x.next.toNat then .ref c
  else if c.toNat = x.next.toNat then .kwk c
  else .bad c

/-- The instruction whose code starts at bit `p` of a byte sequence (`30_encoding.md` R90, R92, R94). Total on any bytes. -/
def decode (x : CodeCtx) (bytes : List Byte) (p : Nat) : Except DecodeError Instr :=
  if ¬ legalMcs x.mcs then .error .illegalMcs
  else if ¬ legalCw x.mcs x.cw then .error .illegalWidth
  else if 8 * bytes.length < p + x.cw.toNat then .error .truncated
  else .ok (classify x (BitVec.ofNat 12 (assemble bytes p x.cw.toNat)))

/-- The command in a value written to CTRL: bit 1 is RESET whatever bit 0 is, else bit 0 is START, bits 31:2 are ignored
(`10_state.md` R22, `30_encoding.md` R99). -/
def decodeCtrl (v : Word) : Except DecodeError Instr :=
  if v.getLsbD 1 then .ok .reset
  else if v.getLsbD 0 then .ok .start
  else .error .noCommand

/-! ### The encoder -/

/-- The two forms an operation is given to the block in (`30_encoding.md` R90, R99). -/
inductive Encoding where
  /-- A code of value `c` in `w` bits. -/
  | code (c w : Nat)
  /-- A value written to register CTRL. -/
  | ctrlWrite (v : Word)
  deriving DecidableEq, Repr

/-- The encoding of an instruction in a context: CLR and EOI by R96, the other code classes by their own value (R93), the
commands by R99. -/
def encode (x : CodeCtx) : Instr → Encoding
  | .clr => .code (2 ^ x.mcs.toNat) x.cw.toNat
  | .eoi => .code (2 ^ x.mcs.toNat + 1) x.cw.toNat
  | .lit c => .code c.toNat x.cw.toNat
  | .ref c => .code c.toNat x.cw.toNat
  | .kwk c => .code c.toNat x.cw.toNat
  | .bad c => .code c.toNat x.cw.toNat
  | .start => .ctrlWrite 1
  | .reset => .ctrlWrite 2

/-- The bit stream of a list of codes `(c, w)` as one number, the first code least significant: the accumulator of
`30_encoding.md` R103 before any byte is taken from it. -/
def streamValue : List (Nat × Nat) → Nat
  | [] => 0
  | (c, w) :: rest => c % 2 ^ w + 2 ^ w * streamValue rest

/-- The number of bits of a list of codes. -/
def streamWidth : List (Nat × Nat) → Nat
  | [] => 0
  | (_, w) :: rest => w + streamWidth rest

/-- The `n` low bytes of a number, least significant first. -/
def bytesOf (v : Nat) : Nat → List Byte
  | 0 => []
  | n + 1 => BitVec.ofNat 8 (v % 256) :: bytesOf (v / 256) n

/-- Packing a list of codes into bytes; the unused high bits of the last byte are 0 (`30_encoding.md` R103). -/
def pack (codes : List (Nat × Nat)) : List Byte :=
  bytesOf (streamValue codes) ((streamWidth codes + 7) / 8)

/-! ### The opcode table's numbering -/

/-- The context a code word of the opcode table is read in: that of the source's scenario S1 after its fifth code, MCS = 2,
CW = 4, NEXT = 9, not in first position, where each of the six classes has a code (log 13). -/
def tableCtx : CodeCtx := { mcs := 2, cw := 4, next := 9, first := false }

/-- The instruction of a word numbered as the opcode table numbers it. A row of 8 bits (or of the register's whole 32) is a
value written to CTRL, bits above the row's being 0; any other row is a code, read at the low bits of the first byte in
`tableCtx`, and a word with a bit above the code's width is no code there (log 13). -/
def decodeTableWord (nbits w : Nat) : Option Instr :=
  if nbits = 8 ∨ nbits = 32 then (decodeCtrl (BitVec.ofNat 32 w)).toOption
  else if w < 2 ^ tableCtx.cw.toNat then (decode tableCtx (bytesOf w 2) 0).toOption
  else none

end Sys2Proof
end

