-- ==== Sys2Proof/Machine/State.lean ====
section
/-! DEFINITION. The state of the block (`10_state.md` R20), its reset, and the reasons a step can stop. -/

namespace Sys2Proof.Machine

/-- The field STATE of STATUS (`10_state.md` R24). -/
inductive RunState where
  | idle | run | done | err
  deriving DecidableEq, Repr

/-- The field ERRCODE of STATUS (`10_state.md` R25, `60_exceptions.md` R210). The values 5, 6, 7 never occur and have no
constructor (log 10). -/
inductive ErrCode where
  | none | cfg | trunc | code | ovf
  deriving DecidableEq, Repr

/-- A memory by address: the cells that hold a value, at strictly rising addresses. A cell not listed holds no value
(`10_state.md` R45, U7; log 4). With `α := Byte` an entry is a `Host.Cell`. -/
abbrev Memory (α : Type) := List (Nat × α)

/-- The one form a memory has: addresses strictly rising. No entry can equal what an unlisted address reads as, since
that is no value at all. -/
abbrev Memory.wf {α : Type} (m : Memory α) : Prop := (m.map Prod.fst).Pairwise (· < ·)

/-- A move of the host, or of the platform (`44_host_commands.md` R196 to R198, `70_reset_and_hazards.md` R240). -/
inductive HostMove where
  /-- Write a 32-bit value to a register number (R197); number 0 is CTRL, the commands (R22). -/
  | writeReg (n : Nat) (v : Word)
  /-- Read a register number (R196). -/
  | readReg (n : Nat)
  /-- Write IBUF[a] (R198). -/
  | writeIbuf (a : Nat) (b : Byte)
  /-- Read IBUF[a] (R198). -/
  | readIbuf (a : Nat)
  /-- Read OBUF[a] (R198). -/
  | readObuf (a : Nat)
  /-- Hardware reset by the platform (R240; log 8). -/
  | hwReset
  /-- The host does nothing, and the engine has its turn (log 2). -/
  | wait
  deriving DecidableEq, Repr

/-- What a host read returned (log 3). -/
inductive HostAnswer where
  | reg (v : Word)
  | byte (b : Byte)
  deriving DecidableEq, Repr

/-- The outside world, no part of the block: the moves the host is still to make, and the values its reads have returned,
newest first (log 2, log 3). -/
structure HostSide where
  script  : List HostMove
  answers : List HostAnswer
  deriving DecidableEq, Repr

/-- The complete state of `10_state.md` R20, with the parameters it is built for and the outside world beside it. CTRL has
no storage (R22) and FULL is a function of NEXT (R26), so neither is a field. -/
structure State where
  /-- IBUF_SIZE and OBUF_SIZE; no step changes them (`00_scope.md` R10; log 1). -/
  cfg     : Config
  /-- STATUS.STATE (R24). -/
  state   : RunState
  /-- STATUS.ERRCODE (R25). -/
  errcode : ErrCode
  /-- FIRST, STATUS bit 5 (R35). -/
  first   : Bool
  /-- MCS, register 2 (R27). -/
  mcs     : BitVec 8
  /-- ILEN, register 3 (R28). -/
  ilen    : Word
  /-- OCAP, register 4 (R29). -/
  ocap    : Word
  /-- OLEN, register 5 (R30). -/
  olen    : Word
  /-- IPTR, register 6, the byte part of the bit cursor (R31). -/
  iptr    : Word
  /-- IBIT, register 7, the bit part of the bit cursor (R31). -/
  ibit    : BitVec 3
  /-- CW, register 8 (R32). -/
  cw      : BitVec 4
  /-- NEXT, register 9 (R33). -/
  next    : BitVec 13
  /-- PREV, register 10 (R34). -/
  prev    : Code
  /-- ERRVAL, register 11 (R37). -/
  errval  : Code
  /-- IBUF (R41). -/
  ibuf    : Memory Byte
  /-- OBUF (R41). -/
  obuf    : Memory Byte
  /-- DICT (R40): a slot not listed holds `none`. -/
  dict    : Memory ByteStr
  /-- The outside world (log 2, log 3). -/
  host    : HostSide
  deriving DecidableEq, Repr

/-- Why a step stops. Each is a stop of the model, never a fault of the block (the block's four faults are taken, as next
states, by `raise`). All are safe: the model stops where it might have gone on. -/
inductive Fault where
  /-- The engine's fetch needs a byte of IBUF that nothing has written (`10_state.md` R45, U7). Raised by `fetchAndExec`. -/
  | unwrittenInput
  /-- The host reads a byte of IBUF or OBUF that nothing has written (`10_state.md` R45). Raised by `hostMove`. -/
  | unwrittenByte
  /-- A Lookup finds `none`, which its precondition excludes (`41_dictionary.md` R142; log 11). Raised by `execRef`,
  `execKnown` and `execKwk`, in states no run reaches. -/
  | undefinedSlot
  /-- STATE is RUN but MCS or CW is outside its legal range, so that no code has a meaning (U1, `30_encoding.md` R90;
  log 11). Raised by `fetchAndExec`, in states no run reaches. -/
  | undecodable (e : DecodeError)
  deriving DecidableEq, Repr

/-- Why the model gives a move no meaning. All are safe for the block's own behaviour; the first is also an assumption about
the host (log 6). -/
inductive Refusal where
  /-- An instruction whose arm has no meaning yet. Raised by `exec` only; no arm does. -/
  | notModelled (mnemonic : String)
  /-- The host accesses IBUF or OBUF while STATE is RUN (`44_host_commands.md` R198, U6). Raised by `hostMove`. -/
  | bufferDuringRun
  /-- The host accesses a buffer at or beyond its size (`44_host_commands.md` R198, U12). Raised by `hostMove`. -/
  | bufferOutOfRange
  deriving DecidableEq, Repr

/-- The outcome of a step or of an instruction. -/
abbrev Result := Host.Outcome State Fault Refusal

/-- The state after hardware reset (`10_state.md` R45): every register 0, STATE = IDLE, no memory cell holding a value. -/
def State.reset : State :=
  { cfg := Config.largest
    state := .idle, errcode := .none, first := false
    mcs := 0, ilen := 0, ocap := 0, olen := 0
    iptr := 0, ibit := 0
    cw := 0, next := 0, prev := 0, errval := 0
    ibuf := [], obuf := [], dict := []
    host := { script := [], answers := [] } }

end Sys2Proof.Machine
end

