-- ==== Sys2Proof/Machine/Flags.lean ====
section
/-! DEFINITION. The status register (`10_state.md` R23 to R26): its fields' encodings, FULL, and the value register 1 reads. -/

namespace Sys2Proof.Machine

/-- The two bits of STATE (`10_state.md` R23). -/
def stateBits : RunState → BitVec 2
  | .idle => 0
  | .run => 1
  | .done => 2
  | .err => 3

/-- The three bits of ERRCODE (`10_state.md` R23). -/
def errBits : ErrCode → BitVec 3
  | .none => 0
  | .cfg => 1
  | .trunc => 2
  | .code => 3
  | .ovf => 4

/-- FULL, 1 exactly when NEXT = 4096 (`10_state.md` R26). -/
def fullFlag (s : State) : Bool := s.next.toNat == dictSize

/-- STATUS: STATE in bits 1:0, ERRCODE in bits 4:2, FIRST in bit 5, FULL in bit 6 (`10_state.md` R23). -/
def statusReg (s : State) : BitVec 7 :=
  BitVec.ofBool (fullFlag s) ++ BitVec.ofBool s.first ++ errBits s.errcode ++ stateBits s.state

end Sys2Proof.Machine
end

