-- ==== Sys2Proof/Machine/Operands.lean ====
section
/-! DEFINITION. The operand forms (`30_encoding.md` R93): the code as a byte, the code as a table index, and the operations on
byte strings that the code classes use (`00_scope.md` R17, `41_dictionary.md` R145, R148). -/

namespace Sys2Proof.Machine

/-- The bytes of a string, its first byte first. -/
def strBytes (s : ByteStr) : List Byte := s.head :: s.tail

/-- `len(s)`, at least 1 (`00_scope.md` R17). -/
def strLen (s : ByteStr) : Nat := s.tail.length + 1

/-- `First(s) = s[0]` (`41_dictionary.md` R145). -/
def firstByte (s : ByteStr) : Byte := s.head

/-- `s ++ [k]`. -/
def strSnoc (s : ByteStr) (k : Byte) : ByteStr := { s with tail := s.tail ++ [k] }

/-- The one-byte string `[b]`. -/
def oneByte (b : Byte) : ByteStr := { head := b, tail := [] }

/-- The code used as itself: the byte a literal emits, its value in 8 bits (`30_encoding.md` R93). -/
def literalStr (c : Code) : ByteStr := oneByte (c.setWidth 8)

/-- The string the KwKwK case builds, `P ++ [P[0]]` (`43_data_codes.md` R178). -/
def kwkStr (p : ByteStr) : ByteStr := strSnoc p (firstByte p)

end Sys2Proof.Machine
end

