-- ==== Sys2Proof/Machine/Ops.lean ====
section
/-! DEFINITION. The shared operations: memory cells, the bit cursor, the fetch of a code's bytes, the fault entry, the table
primitives, the emission of a string, the start of a run and the reset of the registers, and the host's register access. -/

namespace Sys2Proof.Machine

/-! ### Memory cells -/

/-- The value of a cell, none where nothing has written it. -/
def Memory.read {α : Type} : Memory α → Nat → Option α
  | [], _ => none
  | (k, v) :: rest, a => if k = a then some v else Memory.read rest a

/-- Store a value at an address, keeping addresses strictly rising. -/
def Memory.write {α : Type} : Memory α → Nat → α → Memory α
  | [], a, v => [(a, v)]
  | (k, u) :: rest, a, v =>
    if a < k then (a, v) :: (k, u) :: rest
    else if a = k then (a, v) :: rest
    else (k, u) :: Memory.write rest a v

/-- Store values at consecutive addresses from `a` upward, the lowest first. -/
def Memory.writeList {α : Type} (m : Memory α) (a : Nat) : List α → Memory α
  | [] => m
  | v :: rest => Memory.writeList (Memory.write m a v) (a + 1) rest

/-- The values of `n` consecutive addresses from `a` upward, none where one of them holds no value. -/
def Memory.readList {α : Type} (m : Memory α) (a : Nat) : Nat → Option (List α)
  | 0 => some []
  | n + 1 => (Memory.read m a).bind fun v => (Memory.readList m (a + 1) n).map fun rest => v :: rest

/-- The cells below an address; those at or above it hold no value any more. -/
def Memory.below {α : Type} (m : Memory α) (n : Nat) : Memory α := m.filter fun cell => cell.1 < n

/-! ### The bit cursor -/

/-- `BITPOS = 8 * IPTR + IBIT` (`10_state.md` R31). -/
def bitpos (s : State) : Nat := 8 * s.iptr.toNat + s.ibit.toNat

/-- `BITPOS <- BITPOS + w`: `t = IBIT + w; IPTR <- IPTR + (t div 8); IBIT <- t mod 8` (`40_bitreader.md` R122). -/
def advance (w : Nat) (s : State) : State :=
  { s with
    iptr := s.iptr + BitVec.ofNat 32 ((s.ibit.toNat + w) / 8)
    ibit := BitVec.ofNat 3 ((s.ibit.toNat + w) % 8) }

/-! ### The fetch -/

/-- The availability check fails: `8 * ILEN - BITPOS < CW` (`40_bitreader.md` R120), written without a subtraction. -/
abbrev inputExhausted (s : State) : Prop := 8 * s.ilen.toNat < bitpos s + s.cw.toNat

/-- The number of IBUF bytes a fetch reads: IBUF[IPTR] to IBUF[(BITPOS + w - 1) div 8] (`40_bitreader.md` R121). -/
def windowLen (s : State) : Nat := (s.ibit.toNat + s.cw.toNat + 7) / 8

/-- The bytes a fetch reads, none where one of them was never written. -/
def fetchWindow (s : State) : Option (List Byte) := Memory.readList s.ibuf s.iptr.toNat (windowLen s)

/-- The registers a code is read against. -/
def codeCtx (s : State) : CodeCtx := { mcs := s.mcs, cw := s.cw, next := s.next, first := s.first }

/-! ### Taking a fault. There is no return from one (`60_exceptions.md` R223). -/

/-- Fault entry, `raise ERR_X(v)`: ERRCODE, ERRVAL and STATE are written and nothing else (`60_exceptions.md` R220). -/
def raise (e : ErrCode) (v : Code) (s : State) : State :=
  { s with state := .err, errcode := e, errval := v }

/-! ### The table -/

/-- `Lookup(i) = DICT[i]` (`41_dictionary.md` R142). -/
def lookup (i : Nat) (s : State) : Option ByteStr := Memory.read s.dict i

/-- The initial entries `DICT[i] = [i]`, `i < CC` (`41_dictionary.md` R140, R143). -/
def literalTable (cc : Nat) : Memory ByteStr :=
  (List.range cc).map fun i => (i, oneByte (BitVec.ofNat 8 i))

/-- InitTable (`41_dictionary.md` R143). -/
def initTable (s : State) : State :=
  { s with
    dict := literalTable (clearCode s.mcs)
    next := BitVec.ofNat 13 (clearCode s.mcs + 2)
    cw := BitVec.ofNat 4 (s.mcs.toNat + 1) }

/-- ClearTable (`41_dictionary.md` R144). -/
def clearTable (s : State) : State :=
  { s with
    dict := Memory.below s.dict (clearCode s.mcs)
    next := BitVec.ofNat 13 (clearCode s.mcs + 2)
    cw := BitVec.ofNat 4 (s.mcs.toNat + 1) }

/-- The width after a growth that made the next free slot `next`: `if NEXT = (1 << CW) and CW < 12 then CW + 1`
(`41_dictionary.md` R149). -/
def grownWidth (next : BitVec 13) (cw : BitVec 4) : BitVec 4 :=
  if next.toNat = 2 ^ cw.toNat ∧ cw.toNat < maxCw then cw + 1#4 else cw

/-- `Append(s)`: the slot NEXT is filled, NEXT goes up by one, then the width grows (`41_dictionary.md` R147, R149). -/
def append (str : ByteStr) (s : State) : State :=
  { s with
    dict := Memory.write s.dict s.next.toNat str
    next := s.next + 1#13
    cw := grownWidth (s.next + 1#13) s.cw }

/-- The table has room (`41_dictionary.md` R146). -/
abbrev hasRoom (s : State) : Prop := s.next.toNat < dictSize

/-- Append where the table has room; a full table stops growing (`41_dictionary.md` R146). -/
def appendIfRoom (str : ByteStr) (s : State) : State := if hasRoom s then append str s else s

/-! ### Emission -/

/-- The capacity check fails: `OLEN + len(s) > OCAP`, compared exactly (`41_dictionary.md` R150, R152). -/
abbrev overflows (str : ByteStr) (s : State) : Prop := s.ocap.toNat < s.olen.toNat + strLen str

/-- The writes of an emission that fits: the bytes at OLEN upward, then OLEN (`41_dictionary.md` R150). -/
def storeStr (str : ByteStr) (s : State) : State :=
  { s with
    obuf := Memory.writeList s.obuf s.olen.toNat (strBytes str)
    olen := s.olen + BitVec.ofNat 32 (strLen str) }

/-- `Emit(s, c)` and what follows it in the step: ERR_OVF(c) ends the step before any write (`41_dictionary.md` R150,
R151). -/
def emitThen (str : ByteStr) (c : Code) (rest : State → Result) (s : State) : Result :=
  if overflows str s then .next (raise .ovf c s) else rest (storeStr str s)

/-- The end of an emitting step: `PREV <- c`, then the cursor advance by the width the code was fetched with
(`41_dictionary.md` R151, `40_bitreader.md` R122). -/
def finishCode (c : Code) (w : Nat) (s : State) : State := advance w { s with prev := c }

/-! ### Runs and registers -/

/-- `MCS < 2 or MCS > 8 or ILEN > IBUF_SIZE or OCAP > OBUF_SIZE` does not hold (`44_host_commands.md` R190). -/
abbrev configOk (s : State) : Prop :=
  legalMcs s.mcs ∧ s.ilen.toNat ≤ s.cfg.ibufSize.val ∧ s.ocap.toNat ≤ s.cfg.obufSize.val

/-- InitRun (`44_host_commands.md` R191). -/
def initRun (s : State) : State :=
  { initTable s with first := true, prev := 0, iptr := 0, ibit := 0, olen := 0 }

/-- Every register at its reset value, the memories as they are (`10_state.md` R45, `44_host_commands.md` R194). -/
def resetRegisters (s : State) : State :=
  { s with
    state := .idle, errcode := .none, first := false
    mcs := 0, ilen := 0, ocap := 0, olen := 0
    iptr := 0, ibit := 0
    cw := 0, next := 0, prev := 0, errval := 0 }

/-- Hardware reset: the registers reset and all memory contents forgotten (`70_reset_and_hazards.md` R240, R241). -/
def hardwareReset (s : State) : State :=
  { resetRegisters s with ibuf := [], obuf := [], dict := [] }

/-- The value a host read of register `n` returns, zero-extended to 32 bits; CTRL and the numbers from 12 up read 0
(`10_state.md` R21, R22, `44_host_commands.md` R196). -/
def readReg (n : Nat) (s : State) : Word :=
  match n with
  | 1 => (statusReg s).setWidth 32
  | 2 => s.mcs.setWidth 32
  | 3 => s.ilen
  | 4 => s.ocap
  | 5 => s.olen
  | 6 => s.iptr
  | 7 => s.ibit.setWidth 32
  | 8 => s.cw.setWidth 32
  | 9 => s.next.setWidth 32
  | 10 => s.prev.setWidth 32
  | 11 => s.errval.setWidth 32
  | _ => 0

/-- A host write of a register other than CTRL: MCS, ILEN and OCAP take the value's low bits outside RUN; every other write
is ignored (`10_state.md` R21, `44_host_commands.md` R197). -/
def writeReg (n : Nat) (v : Word) (s : State) : State :=
  if s.state = .run then s
  else
    match n with
    | 2 => { s with mcs := v.setWidth 8 }
    | 3 => { s with ilen := v }
    | 4 => { s with ocap := v }
    | _ => s

/-- The host is given the answer to a read (log 3). -/
def answer (a : HostAnswer) (s : State) : State :=
  { s with host := { s.host with answers := a :: s.host.answers } }

/-- The host has made the first move of its script. -/
def popMove (s : State) : State :=
  { s with host := { s.host with script := s.host.script.tail } }

end Sys2Proof.Machine
end

