-- ==== Sys2Proof/Machine/Command.lean ====
section
/-! DEFINITION. The host commands START and RESET (`44_host_commands.md`). -/

namespace Sys2Proof.Machine

/-- START: ignored in RUN (R192); ERR_CFG where the configuration is illegal, nothing else changing; otherwise InitRun,
ERRCODE and ERRVAL 0, STATE RUN (`44_host_commands.md` R190). -/
def execStart (s : State) : Result :=
  if s.state = .run then .next s
  else if ¬ configOk s then .next (raise .cfg 0 s)
  else .next { initRun s with errcode := .none, errval := 0, state := .run }

/-- RESET: every register to its reset value, the three memories unchanged, in every state (`44_host_commands.md` R194). -/
def execReset (s : State) : Result := .next (resetRegisters s)

end Sys2Proof.Machine
end

