-- ==== Sys2Proof/Machine/Control.lean ====
section
/-! DEFINITION. The control codes CLR and EOI (`42_control_codes.md`). -/

namespace Sys2Proof.Machine

/-- CLR: ClearTable, FIRST <- 1, and the cursor advances by the old width (`42_control_codes.md` R160, R161, R162). -/
def execClr (s : State) : Result :=
  .next (advance s.cw.toNat { clearTable s with first := true })

/-- EOI: STATE <- DONE and the cursor advances, in every position (`42_control_codes.md` R163, R164). -/
def execEoi (s : State) : Result :=
  .next (advance s.cw.toNat { s with state := .done })

end Sys2Proof.Machine
end

