-- ==== Sys2Proof/Machine/Data.lean ====
section
/-! DEFINITION. The data codes LIT, REF, KWK and BAD (`43_data_codes.md`). -/

namespace Sys2Proof.Machine

/-- ExecKnown with the code's string at hand: emit it; where the table has room append `DICT[PREV] ++ [First(s)]`, PREV
being the old one; then `PREV <- c` and the cursor (`43_data_codes.md` R171, R175, R176). -/
def execKnown (str : ByteStr) (c : Code) (s : State) : Result :=
  emitThen str c (fun t =>
    if hasRoom t then
      match lookup t.prev.toNat t with
      | none => .fault .undefinedSlot
      | some p => .next (finishCode c s.cw.toNat (append (strSnoc p (firstByte str)) t))
    else .next (finishCode c s.cw.toNat t)) s

/-- LIT: in first position the byte is emitted, PREV set and FIRST cleared (`43_data_codes.md` R172); otherwise ExecKnown
with `s = [c]` (R173). -/
def execLit (c : Code) (s : State) : Result :=
  if s.first then
    emitThen (literalStr c) c (fun t => .next (finishCode c s.cw.toNat { t with first := false })) s
  else execKnown (literalStr c) c s

/-- REF: ExecKnown with `s = DICT[c]` (`43_data_codes.md` R174). -/
def execRef (c : Code) (s : State) : Result :=
  match lookup c.toNat s with
  | none => .fault .undefinedSlot
  | some str => execKnown str c s

/-- KWK: `V = P ++ [P[0]]` with `P = DICT[PREV]`; emit V, append V, PREV <- c (`43_data_codes.md` R178). The append keeps
the source's "if room remains", which R179 shows always holds here (log 12). -/
def execKwk (c : Code) (s : State) : Result :=
  match lookup s.prev.toNat s with
  | none => .fault .undefinedSlot
  | some p =>
    emitThen (kwkStr p) c (fun t => .next (finishCode c s.cw.toNat (appendIfRoom (kwkStr p) t))) s

/-- BAD: raise ERR_CODE(c), in first position and outside it (`43_data_codes.md` R180, R181). -/
def execBad (c : Code) (s : State) : Result := .next (raise .code c s)

end Sys2Proof.Machine
end

