-- ==== Sys2Proof/Machine/Dispatch.lean ====
section
/-! DEFINITION. One arm for each constructor of Instr. -/

namespace Sys2Proof.Machine

def exec (i : Instr) (s : State) : Host.Outcome State Fault Refusal :=
  match i with
  | .clr => Sys2Proof.Machine.execClr s
  | .eoi => Sys2Proof.Machine.execEoi s
  | .lit c => Sys2Proof.Machine.execLit c s
  | .ref c => Sys2Proof.Machine.execRef c s
  | .kwk c => Sys2Proof.Machine.execKwk c s
  | .bad c => Sys2Proof.Machine.execBad c s
  | .start => Sys2Proof.Machine.execStart s
  | .reset => Sys2Proof.Machine.execReset s

end Sys2Proof.Machine
end

