-- ==== Sys2Proof/Machine/Engine.lean ====
section
/-! DEFINITION. The two agents' turns: the engine's step (`43_data_codes.md` R170) and a move of the host
(`44_host_commands.md` R196 to R198). -/

namespace Sys2Proof.Machine

/-- The engine's step in RUN: the availability check, the fetch, the classification, the execution
(`43_data_codes.md` R170, R182). -/
def fetchAndExec (s : State) : Result :=
  if inputExhausted s then .next (raise .trunc 0 s)
  else
    match fetchWindow s with
    | none => .fault .unwrittenInput
    | some bytes =>
      match decode (codeCtx s) bytes s.ibit.toNat with
      | .error e => .fault (.undecodable e)
      | .ok i => exec i s

/-- The engine's turn: a step exactly when STATE = RUN; in IDLE, DONE and ERR nothing happens (`10_state.md` R24,
`70_reset_and_hazards.md` R242; log 5). -/
def engineTurn (s : State) : Result :=
  if s.state = .run then fetchAndExec s else .next s

/-- A host access to address `a` of a buffer of `size` bytes: no such move during a run, none at or beyond the size
(`44_host_commands.md` R198). -/
def bufferAccess (a size : Nat) (s : State) (go : Result) : Result :=
  if s.state = .run then .refused .bufferDuringRun
  else if size ≤ a then .refused .bufferOutOfRange
  else go

/-- A host read of a buffer byte; a byte nothing has written holds no value to return (`10_state.md` R45). -/
def answerByte (b : Option Byte) (s : State) : Result :=
  match b with
  | none => .fault .unwrittenByte
  | some v => .next (answer (.byte v) s)

/-- A write to CTRL: the command it holds, or nothing (`10_state.md` R22). -/
def writeCtrl (v : Word) (s : State) : Result :=
  match decodeCtrl v with
  | .ok i => exec i s
  | .error _ => .next s

/-- One move of the host. -/
def hostMove (m : HostMove) (s : State) : Result :=
  match m with
  | .writeReg n v => if n = 0 then writeCtrl v s else .next (writeReg n v s)
  | .readReg n => .next (answer (.reg (readReg n s)) s)
  | .writeIbuf a b =>
    bufferAccess a s.cfg.ibufSize.val s (.next { s with ibuf := Memory.write s.ibuf a b })
  | .readIbuf a => bufferAccess a s.cfg.ibufSize.val s (answerByte (Memory.read s.ibuf a) s)
  | .readObuf a => bufferAccess a s.cfg.obufSize.val s (answerByte (Memory.read s.obuf a) s)
  | .hwReset => .next (hardwareReset s)
  | .wait => engineTurn s

/-- The next move of the script, or the engine's turn where the script is empty (log 2). -/
def takeTurn (s : State) : Result :=
  match s.host.script with
  | [] => engineTurn s
  | m :: _ => hostMove m (popMove s)

/-- A code word placed where the next step runs it: the machine of the source's scenario S1 after its fifth code (P1 of
`95_test_vectors.md`), with the word's two low bytes as the input bytes that follow (log 13). -/
def placeCode (w : Nat) (s : State) : State :=
  { s with
    state := .run, errcode := .none, first := tableCtx.first
    mcs := tableCtx.mcs, ilen := 4, ocap := 16, olen := 4
    iptr := 2, ibit := 0
    cw := tableCtx.cw, next := tableCtx.next, prev := 3, errval := 0
    ibuf := Memory.writeList [] 0 ([0x44, 0x34] ++ bytesOf w 2)
    obuf := Memory.writeList [] 0 [0, 1, 2, 3]
    dict := Memory.writeList (literalTable 4) 6 [⟨0, [1]⟩, ⟨1, [2]⟩, ⟨2, [3]⟩]
    host := { s.host with script := [] } }

/-- A value written to CTRL as the host's next move (log 13). -/
def placeCtrl (w : Nat) (s : State) : State :=
  { s with host := { s.host with script := .writeReg 0 (BitVec.ofNat 32 w) :: s.host.script } }

end Sys2Proof.Machine
end

