-- ==== Sys2Proof/Machine/Step.lean ====
section
/-! DEFINITION. The step of the whole machine, and the placing of one instruction where the next step runs it. -/

namespace Sys2Proof.Machine

/-- One step: the next agent's turn. -/
def step (s : State) : Host.Outcome State Fault Refusal := takeTurn s

/-- The state with one instruction of the opcode table placed where `step` takes its next one: a CTRL write as the host's
next move, or a code at the bit cursor of a run (log 13). -/
def State.withFetchWord (s : State) (nbits w : Nat) : State :=
  if nbits = 8 ∨ nbits = 32 then placeCtrl w s else placeCode w s

end Sys2Proof.Machine
end

