-- ==== Sys2Proof/Safety.lean ====
section
/-! DEFINITION. What claims about the machine are stated in: the invariants of every step boundary, a run whose input has been
written, the states whose next step is the engine's, and the agreement of two states on all that a run may read. -/

namespace Sys2Proof.Machine

/-- The output of a step is a next state. -/
def Result.isNext (r : Result) : Prop := ∃ t, r = .next t

/-- The next step is the engine's turn and no host move: the script is empty (log 2). -/
abbrev hostSilent (s : State) : Prop := s.host.script = []

/-- The host wrote every byte of the compressed buffer, IBUF[0 .. ILEN-1] (`70_reset_and_hazards.md` R243). -/
abbrev inputWritten (s : State) : Prop := ∀ a, a < s.ilen.toNat → (Memory.read s.ibuf a).isSome

/-- Every register at its reset value (`10_state.md` R45). -/
structure RegistersBlank (s : State) : Prop where
  state : s.state = .idle
  errcode : s.errcode = .none
  first : s.first = false
  mcs : s.mcs = 0
  ilen : s.ilen = 0
  ocap : s.ocap = 0
  olen : s.olen = 0
  cursor : s.iptr = 0 ∧ s.ibit = 0
  cw : s.cw = 0
  next : s.next = 0
  prev : s.prev = 0
  errval : s.errval = 0

/-- The table at every step boundary of a run (`10_state.md` R40). -/
structure TableInv (s : State) : Prop where
  /-- `DICT[i] = [i]` for `i < CC`. -/
  literals : ∀ i, i < clearCode s.mcs → lookup i s = some (oneByte (BitVec.ofNat 8 i))
  /-- The slots CC and EOI hold `none`. -/
  controlSlots : lookup (clearCode s.mcs) s = none ∧ lookup (eoiCode s.mcs) s = none
  /-- Every slot from CC + 2 up to NEXT - 1 is defined. -/
  learned : ∀ i, clearCode s.mcs + 2 ≤ i → i < s.next.toNat → (lookup i s).isSome
  /-- Every slot from NEXT up holds `none`. -/
  free : ∀ i, s.next.toNat ≤ i → lookup i s = none
  /-- Every byte of every entry is below CC. -/
  alphabet : ∀ i str, lookup i s = some str → ∀ b ∈ strBytes str, b.toNat < clearCode s.mcs
  /-- The entry at index `n >= CC + 2` has length at most `n - CC`, and at least 2 (`43_data_codes.md` R174). -/
  lengths : ∀ i str, clearCode s.mcs + 2 ≤ i → lookup i s = some str → 2 ≤ strLen str ∧ strLen str ≤ i - clearCode s.mcs

/-- The step-boundary invariants of a run (`10_state.md` R30 to R36, R40; `41_dictionary.md` R149, R152). -/
structure RunInv (s : State) : Prop where
  config : configOk s
  width : legalCw s.mcs s.cw
  nextLow : clearCode s.mcs + 2 ≤ s.next.toNat
  nextFits : s.next.toNat < 2 ^ s.cw.toNat ∨ (s.cw.toNat = maxCw ∧ s.next.toNat = dictSize)
  cursor : bitpos s ≤ 8 * s.ilen.toNat
  capacity : s.olen.toNat ≤ s.ocap.toNat
  /-- In first position the table is the initial one (R35). -/
  firstPosition : s.first = true → s.next.toNat = clearCode s.mcs + 2 ∧ s.cw.toNat = s.mcs.toNat + 1
  /-- Outside first position there is a previous string (R36). -/
  previous : s.first = false → (lookup s.prev.toNat s).isSome ∧ s.prev.toNat < s.next.toNat ∧
    s.prev.toNat ≠ clearCode s.mcs ∧ s.prev.toNat ≠ eoiCode s.mcs
  table : TableInv s

/-- What holds of the machine at every step boundary, in a run or outside one. -/
structure Inv (s : State) : Prop where
  /-- The three memories are in canonical form. -/
  canonical : s.ibuf.wf ∧ s.obuf.wf ∧ s.dict.wf
  /-- No cell exists outside its memory (`20_memory.md` R60, R73). -/
  ibufInside : ∀ a, (Memory.read s.ibuf a).isSome → a < s.cfg.ibufSize.val
  obufInside : ∀ a, (Memory.read s.obuf a).isSome → a < s.cfg.obufSize.val
  dictInside : ∀ i, (lookup i s).isSome → i < dictSize
  /-- The output OBUF[0 .. OLEN-1] is there to be read (`10_state.md` R30, R41). -/
  output : s.olen.toNat ≤ s.cfg.obufSize.val ∧ ∀ a, a < s.olen.toNat → (Memory.read s.obuf a).isSome
  /-- ERRCODE is 0 exactly when STATE is not ERR (`10_state.md` R25). -/
  errcode : s.errcode = .none ↔ s.state ≠ .err
  /-- ERRVAL is 0 unless ERR_CODE or ERR_OVF wrote it (`10_state.md` R37). -/
  errval : s.errcode ≠ .code → s.errcode ≠ .ovf → s.errval = 0
  /-- NEXT never passes 4096, so FULL reads as `10_state.md` R26 says. -/
  nextHigh : s.next.toNat ≤ dictSize
  /-- In IDLE nothing has been run: the engine's registers are at their reset values (`10_state.md` R24, R45). -/
  idle : s.state = .idle → s.first = false ∧ s.olen = 0 ∧ s.iptr = 0 ∧ s.ibit = 0 ∧ s.cw = 0 ∧ s.next = 0 ∧ s.prev = 0
  running : s.state = .run → RunInv s

/-- Two states agree on everything a run may read and everything it delivers: all registers (PREV only outside first
position, U10), every table slot, the input below ILEN and the output below OLEN. They may differ in the input at or above
ILEN, in what OBUF holds at or above OLEN, in the buffer sizes and in the outside world. -/
structure Agree (s t : State) : Prop where
  state : s.state = t.state
  errcode : s.errcode = t.errcode
  first : s.first = t.first
  mcs : s.mcs = t.mcs
  ilen : s.ilen = t.ilen
  ocap : s.ocap = t.ocap
  olen : s.olen = t.olen
  cursor : s.iptr = t.iptr ∧ s.ibit = t.ibit
  cw : s.cw = t.cw
  next : s.next = t.next
  prev : s.first = false → s.prev = t.prev
  errval : s.errval = t.errval
  table : ∀ i, lookup i s = lookup i t
  input : ∀ a, a < s.ilen.toNat → Memory.read s.ibuf a = Memory.read t.ibuf a
  output : ∀ a, a < s.olen.toNat → Memory.read s.obuf a = Memory.read t.obuf a

/-- Two outcomes agree: both are next states that agree, or both stop for the same reason. -/
def Result.agree : Result → Result → Prop
  | .next s, .next t => Agree s t
  | .fault e, .fault f => e = f
  | .refused e, .refused f => e = f
  | _, _ => False

/-! ### The packing procedure of `30_encoding.md` R103, as the rule writes it -/

/-- The byte loop of `30_encoding.md` R103: while at least 8 bits are held, output the low byte. -/
def packFlush : Nat → Nat → Nat → List Byte × Nat × Nat
  | 0, acc, n => ([], acc, n)
  | fuel + 1, acc, n =>
    if 8 ≤ n then
      let r := packFlush fuel (acc >>> 8) (n - 8)
      (BitVec.ofNat 8 (acc &&& 0xFF) :: r.1, r.2)
    else ([], acc, n)

/-- The packing procedure of `30_encoding.md` R103, accumulator and bit count as the rule has them. -/
def packLoop : List (Nat × Nat) → Nat → Nat → List Byte
  | [], acc, n => if 0 < n then [BitVec.ofNat 8 (acc &&& 0xFF)] else []
  | (c, w) :: rest, acc, n =>
    let r := packFlush (n + w) (acc ||| c <<< n) (n + w)
    r.1 ++ packLoop rest r.2.1 r.2.2

/-! ### The code streams a correct encoder produces (`43_data_codes.md` R184; what "correct" is, is log 16) -/

/-- The width of the code written when the decoder's next free slot is `n`: the least width from `MCS + 1` that holds `n`,
and 12 where none below 12 does (`30_encoding.md` R91, R102, `41_dictionary.md` R149). -/
def IsCodeWidth (m : BitVec 8) (n w : Nat) : Prop :=
  m.toNat + 1 ≤ w ∧ w ≤ 12 ∧ (n < 2 ^ w ∨ w = 12) ∧ ∀ v, m.toNat + 1 ≤ v → v < w → 2 ^ v ≤ n

/-- The code `c` stands for the string: a literal for itself, any other code for the entry learned at its slot. -/
def CodeNames (m : BitVec 8) (learned : List ByteStr) (c : Nat) (str : ByteStr) : Prop :=
  (c < 2 ^ m.toNat ∧ str.head.toNat = c ∧ str.tail = []) ∨
  (2 ^ m.toNat + 2 ≤ c ∧ learned[c - (2 ^ m.toNat + 2)]? = some str)

/-- The encoder's table once it knows that `str` comes next: where there was a string before and a slot is free, that string
and the first byte of `str` have been learned. -/
def encoderLearns (m : BitVec 8) (prev : Option ByteStr) (learned : List ByteStr) (str : ByteStr) : List ByteStr :=
  match prev with
  | none => learned
  | some p => if 2 ^ m.toNat + 2 + learned.length < 4096 then learned ++ [⟨p.head, p.tail ++ [str.head]⟩] else learned

/-- The codes `(c, w)` are an encoding of the buffer, from a point where the string before and the entries learned since the
last clear are as given: strings in any division, greedy or not, Clear Codes at any point, End-of-Information last. -/
inductive EncodedAs (m : BitVec 8) : Option ByteStr → List ByteStr → List Byte → List (Nat × Nat) → Prop
  | stop {prev : Option ByteStr} {learned : List ByteStr} {w : Nat}
      (hw : IsCodeWidth m (2 ^ m.toNat + 2 + learned.length) w) :
      EncodedAs m prev learned [] [(2 ^ m.toNat + 1, w)]
  | clear {prev : Option ByteStr} {learned : List ByteStr} {w : Nat} {buffer : List Byte} {codes : List (Nat × Nat)}
      (hw : IsCodeWidth m (2 ^ m.toNat + 2 + learned.length) w) (rest : EncodedAs m none [] buffer codes) :
      EncodedAs m prev learned buffer ((2 ^ m.toNat, w) :: codes)
  | string {prev : Option ByteStr} {learned : List ByteStr} {w c : Nat} {str : ByteStr} {buffer : List Byte}
      {codes : List (Nat × Nat)} (hw : IsCodeWidth m (2 ^ m.toNat + 2 + learned.length) w)
      (hc : CodeNames m (encoderLearns m prev learned str) c str)
      (rest : EncodedAs m (some str) (encoderLearns m prev learned str) buffer codes) :
      EncodedAs m prev learned (strBytes str ++ buffer) ((c, w) :: codes)

/-! ### Effects and events that claims name -/

/-- From `s` to `t` the string was emitted: its bytes stand at OLEN upward, first byte first, OLEN is past them, and every
other byte of OBUF reads as before (`41_dictionary.md` R150). -/
def Emitted (str : ByteStr) (s t : State) : Prop :=
  t.olen.toNat = s.olen.toNat + strLen str ∧
  ∀ a, Memory.read t.obuf a =
    if s.olen.toNat ≤ a ∧ a < s.olen.toNat + strLen str then (strBytes str)[a - s.olen.toNat]?
    else Memory.read s.obuf a

/-- From `s` to `t` the entry was appended: it stands in the slot NEXT, NEXT is one more, CW has grown exactly at a threshold
below 12, and every other slot reads as before (`41_dictionary.md` R147, R149). -/
def Learned (entry : ByteStr) (s t : State) : Prop :=
  t.next.toNat = s.next.toNat + 1 ∧
  (∀ i, lookup i t = if i = s.next.toNat then some entry else lookup i s) ∧
  t.cw.toNat = if s.next.toNat + 1 = 2 ^ s.cw.toNat ∧ s.cw.toNat < 12 then s.cw.toNat + 1 else s.cw.toNat

/-- From `s` to `t` the table and the width are as they were. -/
def TableKept (s t : State) : Prop := t.dict = s.dict ∧ t.next = s.next ∧ t.cw = s.cw

/-- The engine has the next turn: the script is empty or its first move is to wait (log 2). -/
def engineTurnNext (s : State) : Prop := s.host.script = [] ∨ ∃ rest, s.host.script = .wait :: rest

/-- The next move is a START command (`30_encoding.md` R99). -/
def startNext (s : State) : Prop :=
  ∃ v rest, s.host.script = .writeReg 0 v :: rest ∧ v.getLsbD 1 = false ∧ v.getLsbD 0 = true

/-- The next move is a RESET command or a hardware reset (`30_encoding.md` R99, `70_reset_and_hazards.md` R240). -/
def resetNext (s : State) : Prop :=
  (∃ v rest, s.host.script = .writeReg 0 v :: rest ∧ v.getLsbD 1 = true) ∨ ∃ rest, s.host.script = .hwReset :: rest

end Sys2Proof.Machine
end

