-- ==== Sys2Proof/Certificates/Slice0/Obligations.lean ====
section
/-! DEFINITION. The statements for the provers, each a numbered rule of the spec or a consequence of several. -/

section

set_option autoImplicit false

open Sys2Proof Sys2Proof.Machine

/-! ### Codes, commands and bytes -/

/-- Codes of `40_bitreader.md` R126 and of vectors T2, T54, T58, T59, and CTRL values of T81, decode to the
instructions they stand for. -/
def Obligations.SpecWordsDecode : Prop :=
  decode ⟨2, 3, 6, true⟩ [0x44, 0x34, 0x05] 0 = .ok .clr ∧
  decode ⟨2, 3, 6, true⟩ [0x44, 0x34, 0x05] 3 = .ok (.lit 0) ∧
  decode ⟨2, 3, 7, false⟩ [0x44, 0x34, 0x05] 9 = .ok (.lit 2) ∧
  decode ⟨2, 4, 9, false⟩ [0x44, 0x34, 0x05] 16 = .ok .eoi ∧
  decode ⟨2, 4, 8, false⟩ [0x44, 0xA4, 0x05] 12 = .ok (.bad 10) ∧
  decode ⟨8, 9, 260, false⟩ [0x00, 0x83, 0x08, 0x11, 0x18, 0x24, 0x20] 27 = .ok (.ref 258) ∧
  decode ⟨3, 4, 10, false⟩ [0x78, 0x7A, 0xA0, 0x90] 8 = .ok (.kwk 10) ∧
  decodeCtrl 1 = .ok .start ∧ decodeCtrl 2 = .ok .reset ∧ decodeCtrl 3 = .ok .reset

/-- Decoding an encoded well-formed instruction gives it back: a code, packed into bytes anywhere between other
codes; a command, in the value written to CTRL. -/
def Obligations.DecodeEncodeRoundTrip : Prop :=
  ∀ (x : CodeCtx) (i : Instr), i.wf x = true →
    match encode x i with
    | .code c w => ∀ (before after : List (Nat × Nat)),
        decode x (pack (before ++ (c, w) :: after)) (streamWidth before) = .ok i
    | .ctrlWrite v => decodeCtrl v = .ok i

/-- Whatever the decoder reads is well formed where it was read, and its encoding is exactly the bits read. -/
def Obligations.DecodedInstrIsWellFormed : Prop :=
  ∀ (x : CodeCtx) (bytes : List Byte) (p : Nat) (i : Instr), decode x bytes p = .ok i →
    i.wf x = true ∧ encode x i = .code (assemble bytes p x.cw.toNat) x.cw.toNat

/-- `30_encoding.md` R94: in every reachable state (legal MCS, NEXT at least CC + 2, and equal to it in first
position) each class is selected exactly under the condition of its lines, so that the conditions exclude one
another and cover every code. -/
def Obligations.ClassSelection : Prop :=
  ∀ (x : CodeCtx) (c : Code), legalMcs x.mcs → clearCode x.mcs + 2 ≤ x.next.toNat →
    (x.first = true → x.next.toNat = clearCode x.mcs + 2) →
    (classify x c = .clr ↔ c.toNat = clearCode x.mcs) ∧
    (classify x c = .eoi ↔ c.toNat = clearCode x.mcs + 1) ∧
    (classify x c = .lit c ↔
      (x.first = true ∧ c.toNat < clearCode x.mcs) ∨ (x.first = false ∧ c.toNat < clearCode x.mcs)) ∧
    (classify x c = .ref c ↔ x.first = false ∧ clearCode x.mcs + 2 ≤ c.toNat ∧ c.toNat < x.next.toNat) ∧
    (classify x c = .kwk c ↔ x.first = false ∧ c.toNat = x.next.toNat) ∧
    (classify x c = .bad c ↔
      (x.first = true ∧ clearCode x.mcs + 2 ≤ c.toNat) ∨ (x.first = false ∧ x.next.toNat < c.toNat)) ∧
    (classify x c = .clr ∨ classify x c = .eoi ∨ classify x c = .lit c ∨ classify x c = .ref c ∨
      classify x c = .kwk c ∨ classify x c = .bad c) ∧
    (x.next.toNat = 4096 → classify x c ≠ .kwk c)

/-- `30_encoding.md` R96: CLR, EOI and LIT are selected by match and mask on the code, whatever NEXT and FIRST are. -/
def Obligations.StaticSelectors : Prop :=
  ∀ (x : CodeCtx) (c : Code), legalMcs x.mcs →
    (classify x c = .clr ↔ c &&& 0xFFF#12 = 1#12 <<< x.mcs.toNat) ∧
    (classify x c = .eoi ↔ c &&& 0xFFF#12 = (1#12 <<< x.mcs.toNat) + 1#12) ∧
    (classify x c = .lit c ↔ c &&& (0xFFF#12 &&& ~~~((1#12 <<< x.mcs.toNat) - 1#12)) = 0#12)

/-- `30_encoding.md` R99: RESET where bit 1 is set, START where bit 1 is clear and bit 0 set, no command where both
are clear, whatever bits 31:2 are. -/
def Obligations.CtrlCommandSelection : Prop :=
  ∀ v : Word,
    (v.toNat / 2 % 2 = 1 → decodeCtrl v = .ok .reset) ∧
    (v.toNat / 2 % 2 = 0 → v.toNat % 2 = 1 → decodeCtrl v = .ok .start) ∧
    (v.toNat % 4 = 0 → decodeCtrl v = .error .noCommand ∧ ∀ s, hostMove (.writeReg 0 v) s = .next s)

/-- `40_bitreader.md` R121: once the availability check has passed, the fetch reads one to three bytes, all below
ILEN, and the code is the sum of its stream bits, below `2^w`. -/
def Obligations.FetchIsTheStreamSum : Prop :=
  ∀ s : State, legalMcs s.mcs → legalCw s.mcs s.cw → ¬ inputExhausted s → inputWritten s →
    ∃ bytes, fetchWindow s = some bytes ∧ 1 ≤ bytes.length ∧ bytes.length ≤ 3 ∧
      s.iptr.toNat + bytes.length = (bitpos s + s.cw.toNat - 1) / 8 + 1 ∧
      s.iptr.toNat + bytes.length ≤ s.ilen.toNat ∧
      assemble bytes s.ibit.toNat s.cw.toNat =
        ∑ i ∈ Finset.range s.cw.toNat,
          ((((Memory.read s.ibuf ((bitpos s + i) / 8)).getD 0).toNat >>> ((bitpos s + i) % 8)) &&& 1) <<< i ∧
      assemble bytes s.ibit.toNat s.cw.toNat < 2 ^ s.cw.toNat

/-- `20_memory.md` R66: a code of width at most 12 at bit `o` of its first byte is the word form `(W >> IBIT) & ((1
<< w) - 1)` of the first three bytes, absent ones taken as 0. -/
def Obligations.FetchWordForm : Prop :=
  ∀ (bytes : List Byte) (o w : Nat), o ≤ 7 → w ≤ 12 →
    assemble bytes o w =
      (((bytes.getD 0 0).toNat ||| (bytes.getD 1 0).toNat <<< 8 ||| (bytes.getD 2 0).toNat <<< 16) >>> o) &&&
        (1 <<< w - 1)

/-- `30_encoding.md` R103: `pack` is the rule's procedure, and the inverse of the fetch of `40_bitreader.md` R121:
each code is read back at the position the widths before it give. -/
def Obligations.PackIsTheByteLoop : Prop :=
  ∀ codes : List (Nat × Nat), (∀ cw ∈ codes, cw.1 < 2 ^ cw.2) →
    pack codes = packLoop codes 0 0 ∧
    ∀ before c w after, codes = before ++ (c, w) :: after → assemble (pack codes) (streamWidth before) w = c

/-! ### What each instruction does -/

/-- `42_control_codes.md` R160: CLR is selected by `c = CC` before any other test; it clears the table from CC up,
resets NEXT and CW, sets FIRST, advances by the old width, and writes nothing else. -/
def Obligations.ClrResult : Prop :=
  (∀ (x : CodeCtx) (c : Code), c.toNat = clearCode x.mcs → classify x c = .clr) ∧
  ∀ s : State, s.state = .run → legalMcs s.mcs → ¬ inputExhausted s →
    ∃ t, exec .clr s = .next t ∧
      (∀ i, lookup i t = if i < clearCode s.mcs then lookup i s else none) ∧
      t.next.toNat = clearCode s.mcs + 2 ∧ t.cw.toNat = s.mcs.toNat + 1 ∧ t.first = true ∧
      bitpos t = bitpos s + s.cw.toNat ∧
      t = { s with dict := t.dict, next := t.next, cw := t.cw, first := t.first, iptr := t.iptr, ibit := t.ibit }

/-- `42_control_codes.md` R161: a CLR in first position has no effect but the cursor advance by `MCS + 1`. -/
def Obligations.ClrInFirstPosition : Prop :=
  ∀ s : State, Inv s → s.state = .run → s.first = true → ¬ inputExhausted s →
    s.cw.toNat = s.mcs.toNat + 1 ∧
    ∃ t, exec .clr s = .next t ∧ bitpos t = bitpos s + s.cw.toNat ∧ t = { s with iptr := t.iptr, ibit := t.ibit }

/-- `42_control_codes.md` R163: EOI is selected by `c = CC + 1`; it sets STATE to DONE, advances the cursor, and
writes nothing else. What a turn in DONE does is stated in QuiescentEngine. -/
def Obligations.EoiResult : Prop :=
  (∀ (x : CodeCtx) (c : Code), c.toNat = clearCode x.mcs + 1 → classify x c = .eoi) ∧
  ∀ s : State, s.state = .run → ¬ inputExhausted s →
    ∃ t, exec .eoi s = .next t ∧ t.state = .done ∧ bitpos t = bitpos s + s.cw.toNat ∧
      t = { s with state := t.state, iptr := t.iptr, ibit := t.ibit }

/-- `43_data_codes.md` R172: a code below CC in first position is LIT, read at width `MCS + 1`; it emits the byte
`c`, sets PREV, clears FIRST, advances the cursor, and writes nothing else; where the byte does not fit, ERR_OVF(c)
and no other change. -/
def Obligations.LitInFirstPosition : Prop :=
  (∀ (x : CodeCtx) (c : Code), x.first = true → c.toNat < clearCode x.mcs → classify x c = .lit c) ∧
  (∀ s : State, Inv s → s.state = .run → s.first = true → s.cw.toNat = s.mcs.toNat + 1) ∧
  ∀ (s : State) (c : Code), s.state = .run → s.first = true → legalMcs s.mcs → c.toNat < clearCode s.mcs →
    ¬ inputExhausted s →
    (s.olen.toNat + 1 ≤ s.ocap.toNat →
      ∃ t b, exec (.lit c) s = .next t ∧ b.toNat = c.toNat ∧ Emitted ⟨b, []⟩ s t ∧ t.prev = c ∧ t.first = false ∧
        bitpos t = bitpos s + s.cw.toNat ∧
        t = { s with obuf := t.obuf, olen := t.olen, prev := t.prev, first := t.first, iptr := t.iptr, ibit := t.ibit }) ∧
    (s.ocap.toNat < s.olen.toNat + 1 →
      exec (.lit c) s = .next { s with state := .err, errcode := .ovf, errval := c })

/-- `43_data_codes.md` R173: a code below CC outside first position is LIT; it emits the byte `c`; with room it
appends `DICT[PREV] ++ [c]`, with a full table it appends nothing; it sets PREV and advances the cursor, and writes
nothing else; where the byte does not fit, ERR_OVF(c) and no other change. -/
def Obligations.LitResult : Prop :=
  (∀ (x : CodeCtx) (c : Code), x.first = false → c.toNat < clearCode x.mcs → classify x c = .lit c) ∧
  ∀ (s : State) (c : Code) (p : ByteStr), s.state = .run → s.first = false → legalMcs s.mcs →
    c.toNat < clearCode s.mcs → lookup s.prev.toNat s = some p → ¬ inputExhausted s →
    (s.olen.toNat + 1 ≤ s.ocap.toNat →
      ∃ t b, exec (.lit c) s = .next t ∧ b.toNat = c.toNat ∧ Emitted ⟨b, []⟩ s t ∧
        (s.next.toNat < 4096 → Learned ⟨p.head, p.tail ++ [b]⟩ s t) ∧
        (4096 ≤ s.next.toNat → TableKept s t) ∧
        t.prev = c ∧ bitpos t = bitpos s + s.cw.toNat ∧
        t = { s with obuf := t.obuf, olen := t.olen, dict := t.dict, next := t.next, cw := t.cw, prev := t.prev,
                     iptr := t.iptr, ibit := t.ibit }) ∧
    (s.ocap.toNat < s.olen.toNat + 1 →
      exec (.lit c) s = .next { s with state := .err, errcode := .ovf, errval := c })

/-- `43_data_codes.md` R174: a code from CC + 2 up to NEXT - 1 outside first position is REF, none in first position
is; it emits `DICT[c]`, of 2 to 4091 bytes in a run; with room it appends `DICT[PREV] ++ [DICT[c][0]]`, with a full
table it appends nothing; it sets PREV and advances the cursor, and writes nothing else; where the string does not fit,
ERR_OVF(c) and no other change. -/
def Obligations.RefResult : Prop :=
  (∀ (x : CodeCtx) (c : Code), clearCode x.mcs + 2 ≤ c.toNat → c.toNat < x.next.toNat →
    (x.first = false → classify x c = .ref c) ∧ (x.first = true → ∀ c', classify x c ≠ .ref c')) ∧
  (∀ (s : State) (c : Code) (str : ByteStr), Inv s → s.state = .run → clearCode s.mcs + 2 ≤ c.toNat →
    lookup c.toNat s = some str → 2 ≤ strLen str ∧ strLen str ≤ 4091) ∧
  ∀ (s : State) (c : Code) (str p : ByteStr), s.state = .run → s.first = false →
    clearCode s.mcs + 2 ≤ c.toNat → c.toNat < s.next.toNat →
    lookup c.toNat s = some str → lookup s.prev.toNat s = some p → ¬ inputExhausted s →
    (s.olen.toNat + strLen str ≤ s.ocap.toNat →
      ∃ t, exec (.ref c) s = .next t ∧ Emitted str s t ∧
        (s.next.toNat < 4096 → Learned ⟨p.head, p.tail ++ [str.head]⟩ s t) ∧
        (4096 ≤ s.next.toNat → TableKept s t) ∧
        t.prev = c ∧ bitpos t = bitpos s + s.cw.toNat ∧
        t = { s with obuf := t.obuf, olen := t.olen, dict := t.dict, next := t.next, cw := t.cw, prev := t.prev,
                     iptr := t.iptr, ibit := t.ibit }) ∧
    (s.ocap.toNat < s.olen.toNat + strLen str →
      exec (.ref c) s = .next { s with state := .err, errcode := .ovf, errval := c })

/-- `43_data_codes.md` R178: the code equal to NEXT outside first position is KWK, none in first position is; it
builds `V = P ++ [P[0]]` from `P = DICT[PREV]`, emits it, appends it in the slot `c = NEXT`, sets PREV to `c`,
advances the cursor, and writes nothing else; where V does not fit, ERR_OVF(c) and no other change. -/
def Obligations.KwkResult : Prop :=
  (∀ (x : CodeCtx) (c : Code), clearCode x.mcs + 2 ≤ c.toNat → c.toNat = x.next.toNat →
    (x.first = false → classify x c = .kwk c) ∧ (x.first = true → ∀ c', classify x c ≠ .kwk c')) ∧
  ∀ (s : State) (c : Code) (p : ByteStr), s.state = .run → s.first = false → c.toNat = s.next.toNat →
    lookup s.prev.toNat s = some p → ¬ inputExhausted s →
    (s.olen.toNat + (strLen p + 1) ≤ s.ocap.toNat →
      ∃ t, exec (.kwk c) s = .next t ∧ Emitted ⟨p.head, p.tail ++ [p.head]⟩ s t ∧
        Learned ⟨p.head, p.tail ++ [p.head]⟩ s t ∧ lookup c.toNat t = some ⟨p.head, p.tail ++ [p.head]⟩ ∧
        t.prev = c ∧ bitpos t = bitpos s + s.cw.toNat ∧
        t = { s with obuf := t.obuf, olen := t.olen, dict := t.dict, next := t.next, cw := t.cw, prev := t.prev,
                     iptr := t.iptr, ibit := t.ibit }) ∧
    (s.ocap.toNat < s.olen.toNat + (strLen p + 1) →
      exec (.kwk c) s = .next { s with state := .err, errcode := .ovf, errval := c })

/-- `43_data_codes.md` R180, R181: a code above NEXT outside first position, and one of at least CC + 2 in first
position, is BAD; it takes ERR_CODE(c): STATE, ERRCODE and ERRVAL are written and nothing else, and STATE is ERR. -/
def Obligations.BadResult : Prop :=
  (∀ (x : CodeCtx) (c : Code), clearCode x.mcs + 2 ≤ c.toNat →
    x.first = true ∨ (x.first = false ∧ x.next.toNat < c.toNat) → classify x c = .bad c) ∧
  ∀ (s : State) (c : Code),
    exec (.bad c) s = .next { s with state := .err, errcode := .code, errval := c }

/-- `30_encoding.md` R98: an engine step raises ERR_CODE exactly where, not in first position, the code is above
NEXT, or, in first position, it is at least CC + 2; ERRVAL is then the code, and the cursor stays. -/
def Obligations.IllegalCodesExactly : Prop :=
  ∀ (s : State) (bytes : List Byte), Inv s → s.state = .run → hostSilent s → ¬ inputExhausted s →
    fetchWindow s = some bytes →
    ((∃ t, step s = .next t ∧ t.errcode = .code) ↔
      (s.first = false ∧ s.next.toNat < assemble bytes s.ibit.toNat s.cw.toNat) ∨
      (s.first = true ∧ clearCode s.mcs + 2 ≤ assemble bytes s.ibit.toNat s.cw.toNat)) ∧
    (∀ t, step s = .next t → t.errcode = .code →
      t.state = .err ∧ t.errval.toNat = assemble bytes s.ibit.toNat s.cw.toNat ∧ bitpos t = bitpos s)

/-- `44_host_commands.md` R190, R191: outside RUN and with a legal configuration START initialises the table, NEXT,
CW, FIRST, PREV, the cursor and OLEN, clears the fault record, sets STATE to RUN, and writes nothing else. -/
def Obligations.StartBeginsRun : Prop :=
  ∀ s : State, s.state ≠ .run → 2 ≤ s.mcs.toNat → s.mcs.toNat ≤ 8 → s.ilen.toNat ≤ s.cfg.ibufSize.val →
    s.ocap.toNat ≤ s.cfg.obufSize.val →
    ∃ t, exec .start s = .next t ∧ t.state = .run ∧ t.errcode = .none ∧ t.errval = 0 ∧
      (∀ i, lookup i t = if i < 2 ^ s.mcs.toNat then some ⟨BitVec.ofNat 8 i, []⟩ else none) ∧
      t.next.toNat = 2 ^ s.mcs.toNat + 2 ∧ t.cw.toNat = s.mcs.toNat + 1 ∧ t.first = true ∧ t.prev = 0 ∧
      bitpos t = 0 ∧ t.olen = 0 ∧
      t = { s with state := t.state, errcode := t.errcode, errval := t.errval, dict := t.dict, next := t.next,
                   cw := t.cw, first := t.first, prev := t.prev, iptr := t.iptr, ibit := t.ibit, olen := t.olen }

/-- `60_exceptions.md` R212 and the failing branch of `44_host_commands.md` R190: outside RUN and with an illegal
configuration START takes ERR_CFG with ERRVAL 0 and changes nothing else: STATE is ERR and no RUN begins. -/
def Obligations.StartRefusesBadConfig : Prop :=
  ∀ s : State, s.state ≠ .run →
    (s.mcs.toNat < 2 ∨ 8 < s.mcs.toNat ∨ s.cfg.ibufSize.val < s.ilen.toNat ∨ s.cfg.obufSize.val < s.ocap.toNat) →
    exec .start s = .next { s with state := .err, errcode := .cfg, errval := 0 }

/-- `44_host_commands.md` R192: START while STATE = RUN is ignored. -/
def Obligations.StartIgnoredWhileRunning : Prop :=
  ∀ s : State, s.state = .run → exec .start s = .next s

/-- `44_host_commands.md` R194: a CTRL write with bit 1 set is RESET, whatever bit 0 is; it puts every register at
its reset value, in every state, and leaves the three memories as they are. -/
def Obligations.ResetResult : Prop :=
  (∀ v : Word, v.getLsbD 1 = true → decodeCtrl v = .ok .reset) ∧
  ∀ s : State, ∃ t, exec .reset s = .next t ∧ RegistersBlank t ∧
    t.dict = s.dict ∧ t.ibuf = s.ibuf ∧ t.obuf = s.obuf ∧ t.cfg = s.cfg ∧ t.host = s.host

/-! ### The four faults -/

/-- `60_exceptions.md` R215: where the string does not fit below OCAP, LIT, REF and KWK take ERR_OVF(c): no byte of
it is written, and ERRVAL is the code. -/
def Obligations.EmissionOverflow : Prop :=
  ∀ (s : State) (c : Code),
    (s.ocap.toNat < s.olen.toNat + 1 →
      exec (.lit c) s = .next { s with state := .err, errcode := .ovf, errval := c }) ∧
    (∀ str, lookup c.toNat s = some str → s.ocap.toNat < s.olen.toNat + strLen str →
      exec (.ref c) s = .next { s with state := .err, errcode := .ovf, errval := c }) ∧
    (∀ p, lookup s.prev.toNat s = some p → s.ocap.toNat < s.olen.toNat + (strLen p + 1) →
      exec (.kwk c) s = .next { s with state := .err, errcode := .ovf, errval := c })

/-- `40_bitreader.md` R120: an engine step with fewer than CW unread bits takes ERR_TRUNC(0), whatever the leftover
bits are and whether or not they were ever written, and changes nothing else; with at least CW it does not. -/
def Obligations.TruncatedInput : Prop :=
  ∀ s : State, Inv s → s.state = .run → hostSilent s →
    (8 * s.ilen.toNat - bitpos s < s.cw.toNat →
      step s = .next { s with state := .err, errcode := .trunc, errval := 0 }) ∧
    (s.cw.toNat ≤ 8 * s.ilen.toNat - bitpos s → ∀ t, step s = .next t → t.errcode ≠ .trunc)

/-- `60_exceptions.md` R216: a step reports one fault, the first of ERR_TRUNC, ERR_CODE, ERR_OVF that applies; and a run
reports one, since in ERR no step but a START or a reset touches the fault record. -/
def Obligations.FaultPriority : Prop :=
  (∀ (s t : State), Inv s → s.state = .run → hostSilent s → step s = .next t → t.state = .err →
    (t.errcode = .trunc ∧ inputExhausted s) ∨
    (t.errcode = .code ∧ ¬ inputExhausted s ∧ ∃ bytes c, fetchWindow s = some bytes ∧
      decode (codeCtx s) bytes s.ibit.toNat = .ok (.bad c) ∧ t.errval = c) ∨
    (t.errcode = .ovf ∧ ¬ inputExhausted s ∧ ∃ bytes c str, fetchWindow s = some bytes ∧ t.errval = c ∧
      s.ocap.toNat < s.olen.toNat + strLen str ∧
      ((decode (codeCtx s) bytes s.ibit.toNat = .ok (.lit c) ∧ strLen str = 1) ∨
       (decode (codeCtx s) bytes s.ibit.toNat = .ok (.ref c) ∧ lookup c.toNat s = some str) ∨
       (decode (codeCtx s) bytes s.ibit.toNat = .ok (.kwk c) ∧ ∃ p, lookup s.prev.toNat s = some p ∧
         strLen str = strLen p + 1)))) ∧
  ∀ (s t : State), s.state = .err → step s = .next t → ¬ startNext s → ¬ resetNext s →
    t.state = .err ∧ t.errcode = s.errcode ∧ t.errval = s.errval

/-- `60_exceptions.md` R220, R221: an engine step that faults leaves the state as it was, but for STATE, ERRCODE and
ERRVAL. -/
def Obligations.FaultsArePrecise : Prop :=
  ∀ (s t : State), Inv s → s.state = .run → engineTurnNext s → step s = .next t → t.state = .err →
    (t.errcode = .trunc ∧ t.errval = 0 ∨ t.errcode = .code ∨ t.errcode = .ovf) ∧
    t.host.answers = s.host.answers ∧ t.host.script = s.host.script.tail ∧
    t = { s with state := .err, errcode := t.errcode, errval := t.errval, host := t.host }

/-! ### Frames -/

/-- CLR, EOI and BAD store nothing: every byte of both buffers reads as before, and so does every register but those
named. -/
def Obligations.ControlCodeFrames : Prop :=
  ∀ (s t : State),
    (exec .clr s = .next t →
      t = { s with dict := t.dict, next := t.next, cw := t.cw, first := t.first, iptr := t.iptr, ibit := t.ibit } ∧
      ∀ a, Memory.read t.ibuf a = Memory.read s.ibuf a ∧ Memory.read t.obuf a = Memory.read s.obuf a) ∧
    (exec .eoi s = .next t →
      t = { s with state := t.state, iptr := t.iptr, ibit := t.ibit } ∧
      ∀ a, Memory.read t.ibuf a = Memory.read s.ibuf a ∧ Memory.read t.obuf a = Memory.read s.obuf a ∧
        lookup a t = lookup a s) ∧
    (∀ c, exec (.bad c) s = .next t →
      t = { s with state := t.state, errcode := t.errcode, errval := t.errval } ∧
      ∀ a, Memory.read t.ibuf a = Memory.read s.ibuf a ∧ Memory.read t.obuf a = Memory.read s.obuf a ∧
        lookup a t = lookup a s)

/-- LIT, REF and KWK, whichever way they end: no register is written but OLEN, NEXT, CW, PREV, FIRST (LIT in first
position only), the cursor and the fault record; OBUF changes at OLEN upward only, in as many bytes as OLEN moves;
DICT changes in the slot NEXT only; IBUF does not change. -/
def Obligations.DataCodeFrames : Prop :=
  ∀ (s t : State) (i : Instr) (c : Code), i = .lit c ∨ i = .ref c ∨ i = .kwk c → exec i s = .next t →
    t = { s with state := t.state, errcode := t.errcode, errval := t.errval, first := t.first, obuf := t.obuf,
                 olen := t.olen, dict := t.dict, next := t.next, cw := t.cw, prev := t.prev,
                 iptr := t.iptr, ibit := t.ibit } ∧
    (t.first ≠ s.first → i = .lit c ∧ s.first = true ∧ t.first = false) ∧
    s.olen.toNat ≤ t.olen.toNat ∧
    (∀ a, a < s.olen.toNat ∨ t.olen.toNat ≤ a → Memory.read t.obuf a = Memory.read s.obuf a) ∧
    (∀ j, j ≠ s.next.toNat → lookup j t = lookup j s) ∧
    (∀ a, Memory.read t.ibuf a = Memory.read s.ibuf a)

/-- START and RESET write no byte of either buffer, RESET no table slot, and neither writes MCS, ILEN or OCAP but
for RESET's zeros. -/
def Obligations.CommandFrames : Prop :=
  ∀ (s t : State),
    (exec .start s = .next t →
      t = { s with state := t.state, errcode := t.errcode, errval := t.errval, dict := t.dict, next := t.next,
                   cw := t.cw, first := t.first, prev := t.prev, iptr := t.iptr, ibit := t.ibit, olen := t.olen } ∧
      ∀ a, Memory.read t.ibuf a = Memory.read s.ibuf a ∧ Memory.read t.obuf a = Memory.read s.obuf a) ∧
    (exec .reset s = .next t →
      RegistersBlank t ∧ t.cfg = s.cfg ∧ t.host = s.host ∧
      ∀ a, Memory.read t.ibuf a = Memory.read s.ibuf a ∧ Memory.read t.obuf a = Memory.read s.obuf a ∧
        lookup a t = lookup a s)

/-! ### The step -/

/-- Where the engine has the turn in RUN, the bits are there and they decode to `i`, the step is `exec i`, with the
wait (if that is what gave the turn) taken off the script. -/
def Obligations.StepRunsTheDecodedCode : Prop :=
  ∀ (s : State) (bytes : List Byte) (i : Instr), s.state = .run → ¬ inputExhausted s → fetchWindow s = some bytes →
    decode (codeCtx s) bytes s.ibit.toNat = .ok i →
    (s.host.script = [] → step s = exec i s) ∧
    (∀ rest, s.host.script = .wait :: rest → step s = exec i { s with host := { s.host with script := rest } })

/-- A CTRL write that decodes to `i` runs `exec i` in every state, the move taken off the script; one that holds no
command changes nothing (`10_state.md` R22). -/
def Obligations.StepRunsTheCommand : Prop :=
  ∀ (s : State) (v : Word) (rest : List HostMove), s.host.script = .writeReg 0 v :: rest →
    (∀ i, decodeCtrl v = .ok i → step s = exec i { s with host := { s.host with script := rest } }) ∧
    (v.toNat % 4 = 0 → step s = .next { s with host := { s.host with script := rest } })

/-- In IDLE, DONE and ERR the engine does nothing (`10_state.md` R24). That a turn there answers the same state is
the model's form of it (log 5). -/
def Obligations.QuiescentEngine : Prop :=
  ∀ s : State, s.state = .idle ∨ s.state = .done ∨ s.state = .err → hostSilent s → step s = .next s

/-- The step after `withFetchWord` runs exactly the instruction `decodeTableWord` reads (log 13). -/
def Obligations.PlacedWordRuns : Prop :=
  ∀ (s : State) (nbits w : Nat) (i : Instr), decodeTableWord nbits w = some i →
    step (s.withFetchWord nbits w) =
      exec i (if nbits = 8 ∨ nbits = 32 then s else s.withFetchWord nbits w)

/-- `44_host_commands.md` R196, `10_state.md` R21: a register read returns the register's value, zero-extended to 32
bits, in any state; CTRL and the numbers from 12 up read 0; nothing else changes. -/
def Obligations.RegisterRead : Prop :=
  ∀ (s : State) (n : Nat) (rest : List HostMove), s.host.script = .readReg n :: rest →
    ∃ v : Word,
      step s = .next { s with host := { script := rest, answers := .reg v :: s.host.answers } } ∧
      v.toNat = match n with
        | 1 => (match s.state with | .idle => 0 | .run => 1 | .done => 2 | .err => 3) +
            4 * (match s.errcode with | .none => 0 | .cfg => 1 | .trunc => 2 | .code => 3 | .ovf => 4) +
            (if s.first then 32 else 0) + (if s.next.toNat = 4096 then 64 else 0)
        | 2 => s.mcs.toNat
        | 3 => s.ilen.toNat
        | 4 => s.ocap.toNat
        | 5 => s.olen.toNat
        | 6 => s.iptr.toNat
        | 7 => s.ibit.toNat
        | 8 => s.cw.toNat
        | 9 => s.next.toNat
        | 10 => s.prev.toNat
        | 11 => s.errval.toNat
        | _ => 0

/-- `44_host_commands.md` R197: a write reaches MCS (its low 8 bits), ILEN and OCAP outside RUN; every other
register write but CTRL's is ignored; none faults. CTRL takes its command in every state. -/
def Obligations.RegisterWrite : Prop :=
  (∀ (s : State) (n : Nat) (v : Word) (rest : List HostMove), s.host.script = .writeReg n v :: rest → n ≠ 0 →
    ∃ t, step s = .next t ∧
      t.mcs.toNat = (if n = 2 ∧ s.state ≠ .run then v.toNat % 256 else s.mcs.toNat) ∧
      t.ilen = (if n = 3 ∧ s.state ≠ .run then v else s.ilen) ∧
      t.ocap = (if n = 4 ∧ s.state ≠ .run then v else s.ocap) ∧
      t = { s with mcs := t.mcs, ilen := t.ilen, ocap := t.ocap, host := { s.host with script := rest } }) ∧
  ∀ (s : State) (v : Word) (rest : List HostMove), s.host.script = .writeReg 0 v :: rest →
    (v.getLsbD 1 = true → step s = exec .reset { s with host := { s.host with script := rest } }) ∧
    (v.getLsbD 1 = false → v.getLsbD 0 = true → step s = exec .start { s with host := { s.host with script := rest } }) ∧
    (v.getLsbD 1 = false → v.getLsbD 0 = false → step s = .next { s with host := { s.host with script := rest } })

/-- `44_host_commands.md` R198: outside RUN the host writes and reads IBUF and reads OBUF below their sizes; at or
beyond the size, and in RUN, the access is refused. That a read of a byte nothing has written faults is
`10_state.md` R45. -/
def Obligations.BufferAccess : Prop :=
  ∀ (s : State) (m : HostMove) (rest : List HostMove) (a : Nat), s.host.script = m :: rest →
    (∀ b, m = .writeIbuf a b → s.state ≠ .run → a < s.cfg.ibufSize.val →
      ∃ t, step s = .next t ∧ t = { s with ibuf := t.ibuf, host := { s.host with script := rest } } ∧
        ∀ k, Memory.read t.ibuf k = if k = a then some b else Memory.read s.ibuf k) ∧
    (∀ v, m = .readIbuf a → s.state ≠ .run → a < s.cfg.ibufSize.val → Memory.read s.ibuf a = some v →
      step s = .next { s with host := { script := rest, answers := .byte v :: s.host.answers } }) ∧
    (∀ v, m = .readObuf a → s.state ≠ .run → a < s.cfg.obufSize.val → Memory.read s.obuf a = some v →
      step s = .next { s with host := { script := rest, answers := .byte v :: s.host.answers } }) ∧
    ((m = .readIbuf a ∧ a < s.cfg.ibufSize.val ∧ Memory.read s.ibuf a = none ∨
      m = .readObuf a ∧ a < s.cfg.obufSize.val ∧ Memory.read s.obuf a = none) → s.state ≠ .run →
      step s = .fault .unwrittenByte) ∧
    (((∃ b, m = .writeIbuf a b) ∨ m = .readIbuf a ∨ m = .readObuf a) → s.state = .run →
      step s = .refused .bufferDuringRun) ∧
    ((((∃ b, m = .writeIbuf a b) ∨ m = .readIbuf a) ∧ s.cfg.ibufSize.val ≤ a ∨
      m = .readObuf a ∧ s.cfg.obufSize.val ≤ a) → s.state ≠ .run →
      step s = .refused .bufferOutOfRange)

/-- `10_state.md` R45: after hardware reset, in `State.reset` and after the platform's move in any state, every
register is at its reset value, reads 0, and no memory cell holds a value, so that reading one is a fault of the
model; the RESET command does the same to the registers and keeps the memories. -/
def Obligations.ResetValues : Prop :=
  RegistersBlank State.reset ∧ (∀ n, readReg n State.reset = 0) ∧
  (∀ a, Memory.read State.reset.ibuf a = none ∧ Memory.read State.reset.obuf a = none ∧ lookup a State.reset = none) ∧
  (∀ a, a < State.reset.cfg.ibufSize.val → hostMove (.readIbuf a) State.reset = .fault .unwrittenByte) ∧
  (∀ a, a < State.reset.cfg.obufSize.val → hostMove (.readObuf a) State.reset = .fault .unwrittenByte) ∧
  (∀ (s : State) (rest : List HostMove), s.host.script = .hwReset :: rest →
    ∃ t, step s = .next t ∧ RegistersBlank t ∧
      (∀ a, Memory.read t.ibuf a = none ∧ Memory.read t.obuf a = none ∧ lookup a t = none) ∧
      t.cfg = s.cfg ∧ t.host = { s.host with script := rest }) ∧
  (∀ (s t : State), exec .reset s = .next t →
    RegistersBlank t ∧ t.ibuf = s.ibuf ∧ t.obuf = s.obuf ∧ t.dict = s.dict)

/-- `44_host_commands.md` R199: the host sequence. From any state outside RUN, writing a payload to IBUF[0 ..], its
length, a legal minimum code size, a capacity and CTRL = 1 takes one step each and ends in a started run over
exactly that input. -/
def Obligations.HostSequenceStartsRun : Prop :=
  ∀ (s : State) (payload : List Byte) (m : BitVec 8) (cap : Word), s.state ≠ .run → legalMcs m →
    payload.length ≤ s.cfg.ibufSize.val → cap.toNat ≤ s.cfg.obufSize.val →
    s.host.script = payload.mapIdx (fun a b => HostMove.writeIbuf a b) ++
      [.writeReg 3 (BitVec.ofNat 32 payload.length), .writeReg 2 (m.setWidth 32), .writeReg 4 cap, .writeReg 0 1] →
    ∃ t, core.run (payload.length + 4) s = .next t ∧ t.state = .run ∧ hostSilent t ∧ inputWritten t ∧ bitpos t = 0 ∧
      t.olen = 0 ∧ t.mcs = m ∧ t.ocap = cap ∧ t.ilen.toNat = payload.length ∧
      ∀ a, a < payload.length → Memory.read t.ibuf a = payload[a]?

/-! ### Invariants and whole-machine rules -/

/-- The invariants hold at reset. -/
def Obligations.ResetKeepsInvariants : Prop := Inv State.reset

/-- Every step, of the engine or of the host, keeps every invariant. -/
def Obligations.StepKeepsInvariants : Prop :=
  ∀ s t : State, Inv s → step s = .next t → Inv t

/-- `10_state.md` R24: the transitions of STATE, and nothing else changes it. -/
def Obligations.StateTransitions : Prop :=
  State.reset.state = .idle ∧ ∀ s t : State, step s = .next t →
    (s.state ≠ .run →
      (startNext s → configOk s → t.state = .run) ∧
      (startNext s → ¬ configOk s → t.state = .err ∧ t.errcode = .cfg) ∧
      (resetNext s → t.state = .idle) ∧
      (¬ startNext s → ¬ resetNext s → t.state = s.state)) ∧
    (s.state = .run →
      (resetNext s → t.state = .idle) ∧
      (startNext s → t.state = .run) ∧
      (¬ resetNext s → ¬ engineTurnNext s → t.state = .run) ∧
      (engineTurnNext s → t.state = .run ∨ t.state = .err ∨
        (t.state = .done ∧ ∃ bytes, fetchWindow s = some bytes ∧
          decode (codeCtx s) bytes s.ibit.toNat = .ok .eoi)) ∧
      (engineTurnNext s → ∀ bytes, ¬ inputExhausted s → fetchWindow s = some bytes →
        decode (codeCtx s) bytes s.ibit.toNat = .ok .eoi → t.state = .done))

/-- `70_reset_and_hazards.md` R250: no step from RUN changes MCS, ILEN or OCAP, but a reset. -/
def Obligations.ConfigurationFrozenInRun : Prop :=
  ∀ s t : State, s.state = .run → step s = .next t → ¬ resetNext s →
    t.mcs = s.mcs ∧ t.ilen = s.ilen ∧ t.ocap = s.ocap ∧
    clearCode t.mcs = clearCode s.mcs ∧ eoiCode t.mcs = eoiCode s.mcs

/-- Who writes each memory (`20_memory.md` R60, R63, R71, conflict C9): IBUF only the host, outside RUN, one byte a
move; OBUF only an engine step, from OLEN up to the new OLEN, below OCAP; DICT only an engine step or START; the
sizes nobody. -/
def Obligations.WritersOfTheMemories : Prop :=
  ∀ s t : State, Inv s → step s = .next t →
    t.cfg = s.cfg ∧
    ((∃ rest, s.host.script = .hwReset :: rest) ∨
      (((∀ a, Memory.read t.ibuf a = Memory.read s.ibuf a) ∨
        (s.state ≠ .run ∧ ∃ a b rest, s.host.script = .writeIbuf a b :: rest ∧
          ∀ k, k ≠ a → Memory.read t.ibuf k = Memory.read s.ibuf k)) ∧
       ((∀ a, Memory.read t.obuf a = Memory.read s.obuf a) ∨
        (s.state = .run ∧ engineTurnNext s ∧ s.olen.toNat < t.olen.toNat ∧ t.olen.toNat ≤ s.ocap.toNat ∧
          ∀ a, a < s.olen.toNat ∨ t.olen.toNat ≤ a → Memory.read t.obuf a = Memory.read s.obuf a)) ∧
       ((∀ i, lookup i t = lookup i s) ∨ (s.state = .run ∧ engineTurnNext s) ∨ (s.state ≠ .run ∧ startNext s))))

/-- `40_bitreader.md` R122: an engine step that does not fault advances BITPOS by the width its code was fetched
with, one that faults leaves it; BITPOS stays within the input; and no host move but START and reset moves it. -/
def Obligations.CursorMovesForward : Prop :=
  ∀ s t : State, Inv s → step s = .next t →
    (s.state = .run → engineTurnNext s →
      (t.state ≠ .err → bitpos t = bitpos s + s.cw.toNat) ∧ (t.state = .err → bitpos t = bitpos s) ∧
      bitpos t ≤ 8 * s.ilen.toNat) ∧
    (¬ engineTurnNext s → bitpos t = bitpos s ∨ bitpos t = 0 ∧ (startNext s ∨ resetNext s))

/-- `43_data_codes.md` R183: in a run, from START on, every byte of the output is below CC. -/
def Obligations.OutputAlphabet : Prop :=
  ∀ (s r t : State) (n : Nat), s.state ≠ .run → configOk s → hostSilent s → exec .start s = .next r →
    core.run n r = .next t →
    ∀ a, a < t.olen.toNat → ∃ b, Memory.read t.obuf a = some b ∧ b.toNat < 2 ^ s.mcs.toNat

/-- A step emits at most 4091 bytes, the longest string the table can hold (`10_state.md` R40,
`70_reset_and_hazards.md` R260). -/
def Obligations.EmissionIsBounded : Prop :=
  ∀ s t : State, Inv s → s.state = .run → engineTurnNext s → step s = .next t → t.olen.toNat ≤ s.olen.toNat + 4091

/-- `43_data_codes.md` R175: with a full table only CLR, EOI, LIT and REF can be read, and LIT and REF leave the
table, NEXT and CW alone and still set PREV. -/
def Obligations.FullTableRegime : Prop :=
  ∀ (s : State) (bytes : List Byte) (i : Instr), Inv s → s.state = .run → s.next.toNat = 4096 →
    ¬ inputExhausted s → fetchWindow s = some bytes → decode (codeCtx s) bytes s.ibit.toNat = .ok i →
    s.cw.toNat = 12 ∧
    (i = .clr ∨ i = .eoi ∨ ∃ c, (i = .lit c ∨ i = .ref c) ∧ ∃ t, exec i s = .next t ∧ TableKept s t ∧
      (t.state = .run → t.prev = c))

/-- `43_data_codes.md` R179: a KWK code read in a run always finds room, and after it `DICT[PREV]` is the string it
emitted. -/
def Obligations.KwkAlwaysHasRoom : Prop :=
  ∀ (s : State) (bytes : List Byte) (c : Code), Inv s → s.state = .run →
    ¬ inputExhausted s → fetchWindow s = some bytes → decode (codeCtx s) bytes s.ibit.toNat = .ok (.kwk c) →
    s.next.toNat < 4096 ∧
    ∃ p t, lookup s.prev.toNat s = some p ∧ exec (.kwk c) s = .next t ∧
      (t.state = .run → Learned ⟨p.head, p.tail ++ [p.head]⟩ s t ∧
        lookup t.prev.toNat t = some ⟨p.head, p.tail ++ [p.head]⟩)

/-- `10_state.md` R36: after a step that emits, `DICT[PREV]` is the string it emitted, and no slot that held a
string has changed it. -/
def Obligations.PrevHoldsTheEmittedString : Prop :=
  ∀ s t : State, Inv s → s.state = .run → hostSilent s → step s = .next t → t.olen ≠ s.olen →
    t.first = false ∧
    (∃ str, lookup t.prev.toNat t = some str ∧ Emitted str s t) ∧
    t.prev.toNat < t.next.toNat ∧ t.prev.toNat ≠ clearCode t.mcs ∧ t.prev.toNat ≠ eoiCode t.mcs ∧
    ∀ i str, lookup i s = some str → lookup i t = some str

/-- `41_dictionary.md` R147 in a run: an append fills the slot NEXT, which held nothing, moves NEXT up by one, and
writes nothing else but the width, which grows exactly when the new NEXT is `2^CW` below the ceiling (R149), so that
NEXT stays below `2^CW` or stands at 4096 with CW = 12. -/
def Obligations.AppendGrowsTheWidth : Prop :=
  ∀ (s : State) (str : ByteStr), Inv s → s.state = .run → s.next.toNat < 4096 →
    lookup s.next.toNat s = none ∧ Learned str s (append str s) ∧
    append str s = { s with dict := (append str s).dict, next := (append str s).next, cw := (append str s).cw } ∧
    ((append str s).next.toNat < 2 ^ (append str s).cw.toNat ∨
      (append str s).cw.toNat = 12 ∧ (append str s).next.toNat = 4096)

/-- Two memories in canonical form that read alike are the same memory, whether they hold bytes or table entries. -/
def Obligations.CanonicalMemoriesAreEqual : Prop :=
  ∀ (α : Type) (m n : Memory α), m.wf → n.wf → (∀ a, Memory.read m a = Memory.read n a) → m = n

/-! ### Runs -/

/-- In a run whose input was written the engine always has its step: no fault of the model, no refusal
(`20_memory.md` R73, `43_data_codes.md` R170). -/
def Obligations.EngineNeverStops : Prop :=
  ∀ s : State, Inv s → s.state = .run → hostSilent s → inputWritten s → ∃ t, step s = .next t

/-- `00_scope.md` R14: an engine step halts the engine or advances the cursor by at least 3, so a run ends within
`floor(8 * ILEN / 3) + 1` steps of its start, and within the like number of steps from any state of it. Where it ends
sooner, the steps left over are the model's turns outside RUN, which answer the same state (log 5). -/
def Obligations.EveryRunEnds : Prop :=
  (∀ s t : State, Inv s → s.state = .run → hostSilent s → step s = .next t →
    t.state = .done ∨ t.state = .err ∨ (t.state = .run ∧ bitpos s + 3 ≤ bitpos t ∧ bitpos t ≤ 8 * s.ilen.toNat)) ∧
  (∀ s : State, Inv s → s.state = .run → hostSilent s → inputWritten s →
    ∃ t, core.run ((8 * s.ilen.toNat - bitpos s) / 3 + 1) s = .next t ∧ (t.state = .done ∨ t.state = .err)) ∧
  (∀ s r : State, Inv s → s.state ≠ .run → configOk s → hostSilent s → inputWritten s → exec .start s = .next r →
    ∃ t, core.run (8 * s.ilen.toNat / 3 + 1) r = .next t ∧ (t.state = .done ∨ t.state = .err))

/-- What a step of a run does depends on nothing but the registers, the table and the input below ILEN: states that
agree on those go to states that agree, or stop alike (`20_memory.md` R69, U8, U9, U10). -/
def Obligations.UnreadDataDoesNotMatter : Prop :=
  ∀ s t : State, Inv s → s.state = .run → Agree s t → hostSilent s → hostSilent t → Result.agree (step s) (step t)

/-- `00_scope.md` R13: a run is a deterministic function of MCS, ILEN, OCAP and IBUF[0 .. ILEN-1]. Two machines that
agree on these, whatever else they hold, go in step through every state of the run to the same end and the same
output. -/
def Obligations.RunDeterminedByInputs : Prop :=
  ∀ s t : State, s.state ≠ .run → t.state ≠ .run → configOk s → configOk t →
    s.mcs = t.mcs → s.ilen = t.ilen → s.ocap = t.ocap →
    (∀ a, a < s.ilen.toNat → Memory.read s.ibuf a = Memory.read t.ibuf a) → hostSilent s → hostSilent t →
    ∃ s₀ t₀, exec .start s = .next s₀ ∧ exec .start t = .next t₀ ∧
      ∀ n, Result.agree (core.run n s₀) (core.run n t₀)

/-- `43_data_codes.md` R184: the round trip. Every buffer over `0 .. 2^m - 1` has code streams, and on every one of
them, packed into IBUF with anything after it, a run with room for the buffer ends DONE, one step a code, with the
buffer as its output. What a correct encoder may write is `EncodedAs` (log 16). -/
def Obligations.RoundTrip : Prop :=
  (∀ (m : BitVec 8) (buffer : List Byte), legalMcs m → (∀ b ∈ buffer, b.toNat < 2 ^ m.toNat) →
    ∃ codes, EncodedAs m none [] buffer codes) ∧
  ∀ (s : State) (buffer : List Byte) (codes : List (Nat × Nat)), s.state ≠ .run → configOk s → hostSilent s →
    EncodedAs s.mcs none [] buffer codes → (pack codes).length ≤ s.ilen.toNat →
    (∀ a, a < (pack codes).length → Memory.read s.ibuf a = (pack codes)[a]?) →
    buffer.length ≤ s.ocap.toNat →
    ∃ r t, exec .start s = .next r ∧ core.run codes.length r = .next t ∧ t.state = .done ∧
      t.olen.toNat = buffer.length ∧ ∀ a, a < buffer.length → Memory.read t.obuf a = buffer[a]?

end
end

