-- ==== Sys2Proof/Laws/Memory.lean ====
section
/-! SUPPORT. The laws of memory cells: a read after a write, what a write leaves alone, and that every memory operation keeps
the canonical form. -/

namespace Sys2Proof.Machine

variable {α : Type}

@[simp] theorem Memory.read_nil (a : Nat) : Memory.read ([] : Memory α) a = none := rfl

theorem Memory.read_cons (k : Nat) (v : α) (m : Memory α) (a : Nat) :
    Memory.read ((k, v) :: m) a = if k = a then some v else Memory.read m a := rfl

/-- A read after a write: the value written at that address, the old value everywhere else. -/
theorem Memory.read_write (m : Memory α) (a b : Nat) (v : α) :
    Memory.read (Memory.write m a v) b = if a = b then some v else Memory.read m b := by
  induction m with
  | nil => simp [Memory.write, Memory.read_cons]
  | cons cell m ih =>
    obtain ⟨k, u⟩ := cell
    simp only [Memory.write]
    split
    · simp [Memory.read_cons]
    · split
      · subst a; simp only [Memory.read_cons]; split <;> simp_all
      · simp only [Memory.read_cons, ih]; split <;> split <;> simp_all

@[simp] theorem Memory.read_write_same (m : Memory α) (a : Nat) (v : α) :
    Memory.read (Memory.write m a v) a = some v := by simp [Memory.read_write]

theorem Memory.read_write_other (m : Memory α) {a b : Nat} (v : α) (h : a ≠ b) :
    Memory.read (Memory.write m a v) b = Memory.read m b := by simp [Memory.read_write, h]

/-- Writing a list stores its entries at consecutive addresses and leaves every other address alone. -/
theorem Memory.read_writeList (m : Memory α) (a b : Nat) (vs : List α) :
    Memory.read (Memory.writeList m a vs) b =
      if a ≤ b ∧ b < a + vs.length then vs[b - a]? else Memory.read m b := by
  induction vs generalizing m a with
  | nil => simp [Memory.writeList]
  | cons v vs ih =>
    simp only [Memory.writeList, ih, Memory.read_write, List.length_cons]
    by_cases h : a = b
    · subst h; simp
    · by_cases h2 : a + 1 ≤ b ∧ b < a + 1 + vs.length
      · rw [if_pos h2, if_pos (by omega)]
        obtain ⟨n, hn⟩ : ∃ n, b - a = n + 1 := ⟨b - a - 1, by omega⟩
        rw [hn, List.getElem?_cons_succ]; congr 1; omega
      · rw [if_neg h2, if_neg h, if_neg (by omega)]

/-- Outside the addresses written a list write changes nothing. -/
theorem Memory.read_writeList_other (m : Memory α) {a b : Nat} (vs : List α)
    (h : b < a ∨ a + vs.length ≤ b) : Memory.read (Memory.writeList m a vs) b = Memory.read m b := by
  rw [Memory.read_writeList, if_neg (by omega)]

/-- Reading a list gives a value at each of its addresses, or nothing where one is missing. -/
theorem Memory.readList_eq_some (m : Memory α) (a n : Nat) (vs : List α) :
    Memory.readList m a n = some vs ↔
      vs.length = n ∧ ∀ j, j < n → Memory.read m (a + j) = vs[j]? := by
  induction n generalizing a vs with
  | zero => simp [Memory.readList, eq_comm (a := ([] : List α))]
  | succ n ih =>
    simp only [Memory.readList]
    constructor
    · intro h
      obtain ⟨v, hv, h2⟩ := Option.bind_eq_some_iff.mp h
      obtain ⟨rest, hr, rfl⟩ := Option.map_eq_some_iff.mp h2
      obtain ⟨hl, hj⟩ := (ih _ _).mp hr
      refine ⟨by simp [hl], fun j hjn => ?_⟩
      cases j with
      | zero => simpa using hv
      | succ j => rw [List.getElem?_cons_succ, ← hj j (by omega)]; congr 1; omega
    · rintro ⟨hl, hj⟩
      cases vs with
      | nil => simp at hl
      | cons v rest =>
        have h0 := hj 0 (by omega)
        simp only [Nat.add_zero, List.getElem?_cons_zero] at h0
        have hr : Memory.readList m (a + 1) n = some rest := by
          refine (ih _ _).mpr ⟨by simpa using hl, fun j hjn => ?_⟩
          have := hj (j + 1) (by omega)
          rw [List.getElem?_cons_succ] at this
          rw [← this]; congr 1; omega
        simp [h0, hr]

/-- A list read succeeds exactly when every one of its cells holds a value. -/
theorem Memory.readList_isSome (m : Memory α) (a n : Nat) :
    (Memory.readList m a n).isSome ↔ ∀ j, j < n → (Memory.read m (a + j)).isSome := by
  induction n generalizing a with
  | zero => simp [Memory.readList]
  | succ n ih =>
    have hstep : (Memory.readList m a (n + 1)).isSome ↔
        (Memory.read m a).isSome ∧ (Memory.readList m (a + 1) n).isSome := by
      simp only [Memory.readList]; cases Memory.read m a <;> simp
    rw [hstep, ih]
    constructor
    · rintro ⟨h0, h⟩ j hj
      cases j with
      | zero => simpa using h0
      | succ j => have := h j (by omega); rwa [show a + 1 + j = a + (j + 1) by omega] at this
    · intro h
      refine ⟨by simpa using h 0 (by omega), fun j hj => ?_⟩
      have := h (j + 1) (by omega); rwa [show a + (j + 1) = a + 1 + j by omega] at this

/-- A list read depends on the cells it reads only. -/
theorem Memory.readList_congr (m m' : Memory α) (a n : Nat)
    (h : ∀ j, j < n → Memory.read m (a + j) = Memory.read m' (a + j)) :
    Memory.readList m a n = Memory.readList m' a n := by
  induction n generalizing a with
  | zero => rfl
  | succ n ih =>
    have h0 := h 0 (by omega)
    simp only [Nat.add_zero] at h0
    simp only [Memory.readList, h0]
    rw [ih (a + 1) fun j hj => by
      have := h (j + 1) (by omega)
      rwa [show a + (j + 1) = a + 1 + j by omega] at this]

/-- Clearing from `n` up keeps the cells below `n` and no other. -/
theorem Memory.read_below (m : Memory α) (n a : Nat) :
    Memory.read (Memory.below m n) a = if a < n then Memory.read m a else none := by
  induction m with
  | nil => simp [Memory.below]
  | cons cell m ih =>
    obtain ⟨k, u⟩ := cell
    simp only [Memory.below, List.filter_cons] at ih ⊢
    by_cases hk : k < n
    · simp only [hk, decide_true, if_true, Memory.read_cons, ih]; split <;> split <;> simp_all
    · simp only [hk, decide_false, Bool.false_eq_true, if_false, Memory.read_cons, ih]
      by_cases hka : k = a
      · subst hka; simp [hk]
      · simp [hka]

/-! ### The canonical form -/

@[simp] theorem Memory.wf_nil : Memory.wf ([] : Memory α) := List.Pairwise.nil

theorem Memory.wf_cons (k : Nat) (v : α) (m : Memory α) :
    Memory.wf ((k, v) :: m) ↔ (∀ cell ∈ m, k < cell.1) ∧ Memory.wf m := by
  simp [Memory.wf, List.pairwise_cons]

theorem Memory.mem_write {m : Memory α} {a : Nat} {v : α} {cell : Nat × α}
    (h : cell ∈ Memory.write m a v) : cell = (a, v) ∨ cell ∈ m := by
  induction m with
  | nil => simpa [Memory.write] using h
  | cons hd m ih =>
    obtain ⟨k, u⟩ := hd
    simp only [Memory.write] at h
    split at h
    · simpa using h
    · split at h
      · rcases List.mem_cons.mp h with h | h
        · exact .inl h
        · exact .inr (List.mem_cons_of_mem _ h)
      · rcases List.mem_cons.mp h with h | h
        · exact .inr (h ▸ List.mem_cons_self)
        · exact (ih h).imp_right (List.mem_cons_of_mem _)

/-- A write keeps the canonical form. -/
theorem Memory.write_wf {m : Memory α} (h : m.wf) (a : Nat) (v : α) : (Memory.write m a v).wf := by
  induction m with
  | nil => simp [Memory.write, Memory.wf]
  | cons hd m ih =>
    obtain ⟨k, u⟩ := hd
    obtain ⟨hk, hm⟩ := (Memory.wf_cons k u m).mp h
    simp only [Memory.write]
    split
    · refine (Memory.wf_cons _ _ _).mpr ⟨fun cell hc => ?_, h⟩
      rcases List.mem_cons.mp hc with rfl | hc
      · assumption
      · exact Nat.lt_trans ‹a < k› (hk cell hc)
    · split
      · subst a; exact (Memory.wf_cons _ _ _).mpr ⟨hk, hm⟩
      · refine (Memory.wf_cons _ _ _).mpr ⟨fun cell hc => ?_, ih hm⟩
        rcases Memory.mem_write hc with rfl | hc
        · show k < a; omega
        · exact hk cell hc

/-- A list write keeps the canonical form. -/
theorem Memory.writeList_wf {m : Memory α} (h : m.wf) (a : Nat) (vs : List α) : (Memory.writeList m a vs).wf := by
  induction vs generalizing m a with
  | nil => exact h
  | cons v vs ih => exact ih (Memory.write_wf h a v) (a + 1)

/-- Clearing from an address up keeps the canonical form. -/
theorem Memory.below_wf {m : Memory α} (h : m.wf) (n : Nat) : (Memory.below m n).wf :=
  List.Pairwise.sublist (List.Sublist.map _ List.filter_sublist) h

/-- The initial table reads `[i]` below CC and nothing from CC up (`41_dictionary.md` R143). -/
theorem read_literalTable (cc i : Nat) :
    Memory.read (literalTable cc) i = if i < cc then some (oneByte (BitVec.ofNat 8 i)) else none := by
  have key : ∀ (l : List Nat), Memory.read (l.map fun i => (i, oneByte (BitVec.ofNat 8 i))) i =
      if i ∈ l then some (oneByte (BitVec.ofNat 8 i)) else none := by
    intro l
    induction l with
    | nil => simp
    | cons j l ih =>
      simp only [List.map_cons, Memory.read_cons, ih, List.mem_cons]
      by_cases h : j = i
      · simp [h]
      · simp [h, Ne.symm h]
  simpa [literalTable] using key (List.range cc)

/-- The initial table is in canonical form. -/
theorem literalTable_wf (cc : Nat) : (literalTable cc).wf := by
  have : (literalTable cc).map Prod.fst = List.range cc := by simp [literalTable, Function.comp_def]
  show List.Pairwise (· < ·) _
  rw [this]; exact List.pairwise_lt_range

/-- The memories of `State.reset` are in canonical form. -/
theorem reset_memories_wf : State.reset.ibuf.wf ∧ State.reset.obuf.wf ∧ State.reset.dict.wf :=
  ⟨Memory.wf_nil, Memory.wf_nil, Memory.wf_nil⟩

end Sys2Proof.Machine
end

