-- ==== Sys2Proof/Laws/State.lean ====
section
/-! SUPPORT. One lemma for each field of State under each named update, so that no proof unfolds a record update. -/

namespace Sys2Proof.Machine

/-! ### the cursor advance (`40_bitreader.md` R122) -/

section
variable (w : Nat) (s : State)

@[simp] theorem advance_cfg : (advance w s).cfg = s.cfg := rfl
@[simp] theorem advance_state : (advance w s).state = s.state := rfl
@[simp] theorem advance_errcode : (advance w s).errcode = s.errcode := rfl
@[simp] theorem advance_first : (advance w s).first = s.first := rfl
@[simp] theorem advance_mcs : (advance w s).mcs = s.mcs := rfl
@[simp] theorem advance_ilen : (advance w s).ilen = s.ilen := rfl
@[simp] theorem advance_ocap : (advance w s).ocap = s.ocap := rfl
@[simp] theorem advance_olen : (advance w s).olen = s.olen := rfl
@[simp] theorem advance_iptr : (advance w s).iptr = s.iptr + BitVec.ofNat 32 ((s.ibit.toNat + w) / 8) := rfl
@[simp] theorem advance_ibit : (advance w s).ibit = BitVec.ofNat 3 ((s.ibit.toNat + w) % 8) := rfl
@[simp] theorem advance_cw : (advance w s).cw = s.cw := rfl
@[simp] theorem advance_next : (advance w s).next = s.next := rfl
@[simp] theorem advance_prev : (advance w s).prev = s.prev := rfl
@[simp] theorem advance_errval : (advance w s).errval = s.errval := rfl
@[simp] theorem advance_ibuf : (advance w s).ibuf = s.ibuf := rfl
@[simp] theorem advance_obuf : (advance w s).obuf = s.obuf := rfl
@[simp] theorem advance_dict : (advance w s).dict = s.dict := rfl
@[simp] theorem advance_host : (advance w s).host = s.host := rfl
end

/-! ### the fault entry (`60_exceptions.md` R220) -/

section
variable (e : ErrCode) (v : Code) (s : State)

@[simp] theorem raise_cfg : (raise e v s).cfg = s.cfg := rfl
@[simp] theorem raise_state : (raise e v s).state = .err := rfl
@[simp] theorem raise_errcode : (raise e v s).errcode = e := rfl
@[simp] theorem raise_first : (raise e v s).first = s.first := rfl
@[simp] theorem raise_mcs : (raise e v s).mcs = s.mcs := rfl
@[simp] theorem raise_ilen : (raise e v s).ilen = s.ilen := rfl
@[simp] theorem raise_ocap : (raise e v s).ocap = s.ocap := rfl
@[simp] theorem raise_olen : (raise e v s).olen = s.olen := rfl
@[simp] theorem raise_iptr : (raise e v s).iptr = s.iptr := rfl
@[simp] theorem raise_ibit : (raise e v s).ibit = s.ibit := rfl
@[simp] theorem raise_cw : (raise e v s).cw = s.cw := rfl
@[simp] theorem raise_next : (raise e v s).next = s.next := rfl
@[simp] theorem raise_prev : (raise e v s).prev = s.prev := rfl
@[simp] theorem raise_errval : (raise e v s).errval = v := rfl
@[simp] theorem raise_ibuf : (raise e v s).ibuf = s.ibuf := rfl
@[simp] theorem raise_obuf : (raise e v s).obuf = s.obuf := rfl
@[simp] theorem raise_dict : (raise e v s).dict = s.dict := rfl
@[simp] theorem raise_host : (raise e v s).host = s.host := rfl
end

/-! ### InitTable (`41_dictionary.md` R143) -/

section
variable (s : State)

@[simp] theorem initTable_cfg : (initTable s).cfg = s.cfg := rfl
@[simp] theorem initTable_state : (initTable s).state = s.state := rfl
@[simp] theorem initTable_errcode : (initTable s).errcode = s.errcode := rfl
@[simp] theorem initTable_first : (initTable s).first = s.first := rfl
@[simp] theorem initTable_mcs : (initTable s).mcs = s.mcs := rfl
@[simp] theorem initTable_ilen : (initTable s).ilen = s.ilen := rfl
@[simp] theorem initTable_ocap : (initTable s).ocap = s.ocap := rfl
@[simp] theorem initTable_olen : (initTable s).olen = s.olen := rfl
@[simp] theorem initTable_iptr : (initTable s).iptr = s.iptr := rfl
@[simp] theorem initTable_ibit : (initTable s).ibit = s.ibit := rfl
@[simp] theorem initTable_cw : (initTable s).cw = BitVec.ofNat 4 (s.mcs.toNat + 1) := rfl
@[simp] theorem initTable_next : (initTable s).next = BitVec.ofNat 13 (clearCode s.mcs + 2) := rfl
@[simp] theorem initTable_prev : (initTable s).prev = s.prev := rfl
@[simp] theorem initTable_errval : (initTable s).errval = s.errval := rfl
@[simp] theorem initTable_ibuf : (initTable s).ibuf = s.ibuf := rfl
@[simp] theorem initTable_obuf : (initTable s).obuf = s.obuf := rfl
@[simp] theorem initTable_dict : (initTable s).dict = literalTable (clearCode s.mcs) := rfl
@[simp] theorem initTable_host : (initTable s).host = s.host := rfl
end

/-! ### ClearTable (`41_dictionary.md` R144) -/

section
variable (s : State)

@[simp] theorem clearTable_cfg : (clearTable s).cfg = s.cfg := rfl
@[simp] theorem clearTable_state : (clearTable s).state = s.state := rfl
@[simp] theorem clearTable_errcode : (clearTable s).errcode = s.errcode := rfl
@[simp] theorem clearTable_first : (clearTable s).first = s.first := rfl
@[simp] theorem clearTable_mcs : (clearTable s).mcs = s.mcs := rfl
@[simp] theorem clearTable_ilen : (clearTable s).ilen = s.ilen := rfl
@[simp] theorem clearTable_ocap : (clearTable s).ocap = s.ocap := rfl
@[simp] theorem clearTable_olen : (clearTable s).olen = s.olen := rfl
@[simp] theorem clearTable_iptr : (clearTable s).iptr = s.iptr := rfl
@[simp] theorem clearTable_ibit : (clearTable s).ibit = s.ibit := rfl
@[simp] theorem clearTable_cw : (clearTable s).cw = BitVec.ofNat 4 (s.mcs.toNat + 1) := rfl
@[simp] theorem clearTable_next : (clearTable s).next = BitVec.ofNat 13 (clearCode s.mcs + 2) := rfl
@[simp] theorem clearTable_prev : (clearTable s).prev = s.prev := rfl
@[simp] theorem clearTable_errval : (clearTable s).errval = s.errval := rfl
@[simp] theorem clearTable_ibuf : (clearTable s).ibuf = s.ibuf := rfl
@[simp] theorem clearTable_obuf : (clearTable s).obuf = s.obuf := rfl
@[simp] theorem clearTable_dict : (clearTable s).dict = Memory.below s.dict (clearCode s.mcs) := rfl
@[simp] theorem clearTable_host : (clearTable s).host = s.host := rfl
end

/-! ### Append (`41_dictionary.md` R147) -/

section
variable (str : ByteStr) (s : State)

@[simp] theorem append_cfg : (append str s).cfg = s.cfg := rfl
@[simp] theorem append_state : (append str s).state = s.state := rfl
@[simp] theorem append_errcode : (append str s).errcode = s.errcode := rfl
@[simp] theorem append_first : (append str s).first = s.first := rfl
@[simp] theorem append_mcs : (append str s).mcs = s.mcs := rfl
@[simp] theorem append_ilen : (append str s).ilen = s.ilen := rfl
@[simp] theorem append_ocap : (append str s).ocap = s.ocap := rfl
@[simp] theorem append_olen : (append str s).olen = s.olen := rfl
@[simp] theorem append_iptr : (append str s).iptr = s.iptr := rfl
@[simp] theorem append_ibit : (append str s).ibit = s.ibit := rfl
@[simp] theorem append_cw : (append str s).cw = grownWidth (s.next + 1#13) s.cw := rfl
@[simp] theorem append_next : (append str s).next = s.next + 1#13 := rfl
@[simp] theorem append_prev : (append str s).prev = s.prev := rfl
@[simp] theorem append_errval : (append str s).errval = s.errval := rfl
@[simp] theorem append_ibuf : (append str s).ibuf = s.ibuf := rfl
@[simp] theorem append_obuf : (append str s).obuf = s.obuf := rfl
@[simp] theorem append_dict : (append str s).dict = Memory.write s.dict s.next.toNat str := rfl
@[simp] theorem append_host : (append str s).host = s.host := rfl
end

/-! ### the writes of an emission (`41_dictionary.md` R150) -/

section
variable (str : ByteStr) (s : State)

@[simp] theorem storeStr_cfg : (storeStr str s).cfg = s.cfg := rfl
@[simp] theorem storeStr_state : (storeStr str s).state = s.state := rfl
@[simp] theorem storeStr_errcode : (storeStr str s).errcode = s.errcode := rfl
@[simp] theorem storeStr_first : (storeStr str s).first = s.first := rfl
@[simp] theorem storeStr_mcs : (storeStr str s).mcs = s.mcs := rfl
@[simp] theorem storeStr_ilen : (storeStr str s).ilen = s.ilen := rfl
@[simp] theorem storeStr_ocap : (storeStr str s).ocap = s.ocap := rfl
@[simp] theorem storeStr_olen : (storeStr str s).olen = s.olen + BitVec.ofNat 32 (strLen str) := rfl
@[simp] theorem storeStr_iptr : (storeStr str s).iptr = s.iptr := rfl
@[simp] theorem storeStr_ibit : (storeStr str s).ibit = s.ibit := rfl
@[simp] theorem storeStr_cw : (storeStr str s).cw = s.cw := rfl
@[simp] theorem storeStr_next : (storeStr str s).next = s.next := rfl
@[simp] theorem storeStr_prev : (storeStr str s).prev = s.prev := rfl
@[simp] theorem storeStr_errval : (storeStr str s).errval = s.errval := rfl
@[simp] theorem storeStr_ibuf : (storeStr str s).ibuf = s.ibuf := rfl
@[simp] theorem storeStr_obuf : (storeStr str s).obuf = Memory.writeList s.obuf s.olen.toNat (strBytes str) := rfl
@[simp] theorem storeStr_dict : (storeStr str s).dict = s.dict := rfl
@[simp] theorem storeStr_host : (storeStr str s).host = s.host := rfl
end

/-! ### the end of an emitting step (`41_dictionary.md` R151) -/

section
variable (c : Code) (w : Nat) (s : State)

@[simp] theorem finishCode_cfg : (finishCode c w s).cfg = s.cfg := rfl
@[simp] theorem finishCode_state : (finishCode c w s).state = s.state := rfl
@[simp] theorem finishCode_errcode : (finishCode c w s).errcode = s.errcode := rfl
@[simp] theorem finishCode_first : (finishCode c w s).first = s.first := rfl
@[simp] theorem finishCode_mcs : (finishCode c w s).mcs = s.mcs := rfl
@[simp] theorem finishCode_ilen : (finishCode c w s).ilen = s.ilen := rfl
@[simp] theorem finishCode_ocap : (finishCode c w s).ocap = s.ocap := rfl
@[simp] theorem finishCode_olen : (finishCode c w s).olen = s.olen := rfl
@[simp] theorem finishCode_iptr : (finishCode c w s).iptr = s.iptr + BitVec.ofNat 32 ((s.ibit.toNat + w) / 8) := rfl
@[simp] theorem finishCode_ibit : (finishCode c w s).ibit = BitVec.ofNat 3 ((s.ibit.toNat + w) % 8) := rfl
@[simp] theorem finishCode_cw : (finishCode c w s).cw = s.cw := rfl
@[simp] theorem finishCode_next : (finishCode c w s).next = s.next := rfl
@[simp] theorem finishCode_prev : (finishCode c w s).prev = c := rfl
@[simp] theorem finishCode_errval : (finishCode c w s).errval = s.errval := rfl
@[simp] theorem finishCode_ibuf : (finishCode c w s).ibuf = s.ibuf := rfl
@[simp] theorem finishCode_obuf : (finishCode c w s).obuf = s.obuf := rfl
@[simp] theorem finishCode_dict : (finishCode c w s).dict = s.dict := rfl
@[simp] theorem finishCode_host : (finishCode c w s).host = s.host := rfl
end

/-! ### InitRun (`44_host_commands.md` R191) -/

section
variable (s : State)

@[simp] theorem initRun_cfg : (initRun s).cfg = s.cfg := rfl
@[simp] theorem initRun_state : (initRun s).state = s.state := rfl
@[simp] theorem initRun_errcode : (initRun s).errcode = s.errcode := rfl
@[simp] theorem initRun_first : (initRun s).first = true := rfl
@[simp] theorem initRun_mcs : (initRun s).mcs = s.mcs := rfl
@[simp] theorem initRun_ilen : (initRun s).ilen = s.ilen := rfl
@[simp] theorem initRun_ocap : (initRun s).ocap = s.ocap := rfl
@[simp] theorem initRun_olen : (initRun s).olen = 0 := rfl
@[simp] theorem initRun_iptr : (initRun s).iptr = 0 := rfl
@[simp] theorem initRun_ibit : (initRun s).ibit = 0 := rfl
@[simp] theorem initRun_cw : (initRun s).cw = BitVec.ofNat 4 (s.mcs.toNat + 1) := rfl
@[simp] theorem initRun_next : (initRun s).next = BitVec.ofNat 13 (clearCode s.mcs + 2) := rfl
@[simp] theorem initRun_prev : (initRun s).prev = 0 := rfl
@[simp] theorem initRun_errval : (initRun s).errval = s.errval := rfl
@[simp] theorem initRun_ibuf : (initRun s).ibuf = s.ibuf := rfl
@[simp] theorem initRun_obuf : (initRun s).obuf = s.obuf := rfl
@[simp] theorem initRun_dict : (initRun s).dict = literalTable (clearCode s.mcs) := rfl
@[simp] theorem initRun_host : (initRun s).host = s.host := rfl
end

/-! ### the RESET of the registers (`10_state.md` R45) -/

section
variable (s : State)

@[simp] theorem resetRegisters_cfg : (resetRegisters s).cfg = s.cfg := rfl
@[simp] theorem resetRegisters_state : (resetRegisters s).state = .idle := rfl
@[simp] theorem resetRegisters_errcode : (resetRegisters s).errcode = .none := rfl
@[simp] theorem resetRegisters_first : (resetRegisters s).first = false := rfl
@[simp] theorem resetRegisters_mcs : (resetRegisters s).mcs = 0 := rfl
@[simp] theorem resetRegisters_ilen : (resetRegisters s).ilen = 0 := rfl
@[simp] theorem resetRegisters_ocap : (resetRegisters s).ocap = 0 := rfl
@[simp] theorem resetRegisters_olen : (resetRegisters s).olen = 0 := rfl
@[simp] theorem resetRegisters_iptr : (resetRegisters s).iptr = 0 := rfl
@[simp] theorem resetRegisters_ibit : (resetRegisters s).ibit = 0 := rfl
@[simp] theorem resetRegisters_cw : (resetRegisters s).cw = 0 := rfl
@[simp] theorem resetRegisters_next : (resetRegisters s).next = 0 := rfl
@[simp] theorem resetRegisters_prev : (resetRegisters s).prev = 0 := rfl
@[simp] theorem resetRegisters_errval : (resetRegisters s).errval = 0 := rfl
@[simp] theorem resetRegisters_ibuf : (resetRegisters s).ibuf = s.ibuf := rfl
@[simp] theorem resetRegisters_obuf : (resetRegisters s).obuf = s.obuf := rfl
@[simp] theorem resetRegisters_dict : (resetRegisters s).dict = s.dict := rfl
@[simp] theorem resetRegisters_host : (resetRegisters s).host = s.host := rfl
end

/-! ### hardware reset (`70_reset_and_hazards.md` R240) -/

section
variable (s : State)

@[simp] theorem hardwareReset_cfg : (hardwareReset s).cfg = s.cfg := rfl
@[simp] theorem hardwareReset_state : (hardwareReset s).state = .idle := rfl
@[simp] theorem hardwareReset_errcode : (hardwareReset s).errcode = .none := rfl
@[simp] theorem hardwareReset_first : (hardwareReset s).first = false := rfl
@[simp] theorem hardwareReset_mcs : (hardwareReset s).mcs = 0 := rfl
@[simp] theorem hardwareReset_ilen : (hardwareReset s).ilen = 0 := rfl
@[simp] theorem hardwareReset_ocap : (hardwareReset s).ocap = 0 := rfl
@[simp] theorem hardwareReset_olen : (hardwareReset s).olen = 0 := rfl
@[simp] theorem hardwareReset_iptr : (hardwareReset s).iptr = 0 := rfl
@[simp] theorem hardwareReset_ibit : (hardwareReset s).ibit = 0 := rfl
@[simp] theorem hardwareReset_cw : (hardwareReset s).cw = 0 := rfl
@[simp] theorem hardwareReset_next : (hardwareReset s).next = 0 := rfl
@[simp] theorem hardwareReset_prev : (hardwareReset s).prev = 0 := rfl
@[simp] theorem hardwareReset_errval : (hardwareReset s).errval = 0 := rfl
@[simp] theorem hardwareReset_ibuf : (hardwareReset s).ibuf = [] := rfl
@[simp] theorem hardwareReset_obuf : (hardwareReset s).obuf = [] := rfl
@[simp] theorem hardwareReset_dict : (hardwareReset s).dict = [] := rfl
@[simp] theorem hardwareReset_host : (hardwareReset s).host = s.host := rfl
end

/-! ### the answer to a host read -/

section
variable (a : HostAnswer) (s : State)

@[simp] theorem answer_cfg : (answer a s).cfg = s.cfg := rfl
@[simp] theorem answer_state : (answer a s).state = s.state := rfl
@[simp] theorem answer_errcode : (answer a s).errcode = s.errcode := rfl
@[simp] theorem answer_first : (answer a s).first = s.first := rfl
@[simp] theorem answer_mcs : (answer a s).mcs = s.mcs := rfl
@[simp] theorem answer_ilen : (answer a s).ilen = s.ilen := rfl
@[simp] theorem answer_ocap : (answer a s).ocap = s.ocap := rfl
@[simp] theorem answer_olen : (answer a s).olen = s.olen := rfl
@[simp] theorem answer_iptr : (answer a s).iptr = s.iptr := rfl
@[simp] theorem answer_ibit : (answer a s).ibit = s.ibit := rfl
@[simp] theorem answer_cw : (answer a s).cw = s.cw := rfl
@[simp] theorem answer_next : (answer a s).next = s.next := rfl
@[simp] theorem answer_prev : (answer a s).prev = s.prev := rfl
@[simp] theorem answer_errval : (answer a s).errval = s.errval := rfl
@[simp] theorem answer_ibuf : (answer a s).ibuf = s.ibuf := rfl
@[simp] theorem answer_obuf : (answer a s).obuf = s.obuf := rfl
@[simp] theorem answer_dict : (answer a s).dict = s.dict := rfl
@[simp] theorem answer_host : (answer a s).host = { s.host with answers := a :: s.host.answers } := rfl
end

/-! ### taking the script's first move -/

section
variable (s : State)

@[simp] theorem popMove_cfg : (popMove s).cfg = s.cfg := rfl
@[simp] theorem popMove_state : (popMove s).state = s.state := rfl
@[simp] theorem popMove_errcode : (popMove s).errcode = s.errcode := rfl
@[simp] theorem popMove_first : (popMove s).first = s.first := rfl
@[simp] theorem popMove_mcs : (popMove s).mcs = s.mcs := rfl
@[simp] theorem popMove_ilen : (popMove s).ilen = s.ilen := rfl
@[simp] theorem popMove_ocap : (popMove s).ocap = s.ocap := rfl
@[simp] theorem popMove_olen : (popMove s).olen = s.olen := rfl
@[simp] theorem popMove_iptr : (popMove s).iptr = s.iptr := rfl
@[simp] theorem popMove_ibit : (popMove s).ibit = s.ibit := rfl
@[simp] theorem popMove_cw : (popMove s).cw = s.cw := rfl
@[simp] theorem popMove_next : (popMove s).next = s.next := rfl
@[simp] theorem popMove_prev : (popMove s).prev = s.prev := rfl
@[simp] theorem popMove_errval : (popMove s).errval = s.errval := rfl
@[simp] theorem popMove_ibuf : (popMove s).ibuf = s.ibuf := rfl
@[simp] theorem popMove_obuf : (popMove s).obuf = s.obuf := rfl
@[simp] theorem popMove_dict : (popMove s).dict = s.dict := rfl
@[simp] theorem popMove_host : (popMove s).host = { s.host with script := s.host.script.tail } := rfl
end

end Sys2Proof.Machine
end

