-- ==== Sys2Proof/Laws/Ops.lean ====
section
/-! SUPPORT. What each shared operation does, in exact arithmetic (`41_dictionary.md` R152), and one inversion lemma for each
operation that can end a step in more than one way. -/

namespace Sys2Proof.Machine

/-! ### The constants of a run -/

/-- The Clear Code of a legal MCS lies between 4 and 256 (`10_state.md` R38). -/
theorem clearCode_bounds {m : BitVec 8} (h : legalMcs m) : 4 ≤ clearCode m ∧ clearCode m ≤ 256 :=
  ⟨Nat.pow_le_pow_right (n := 2) (by omega) h.1, Nat.pow_le_pow_right (n := 2) (by omega) h.2⟩

/-- The initial width holds both control codes (`41_dictionary.md` R140). -/
theorem clearCode_lt_width {m : BitVec 8} (h : legalMcs m) : clearCode m + 2 < 2 ^ (m.toNat + 1) := by
  have := (clearCode_bounds h).1
  unfold clearCode at *
  rw [Nat.pow_succ]; omega

theorem initialNext_toNat {m : BitVec 8} (h : legalMcs m) :
    (BitVec.ofNat 13 (clearCode m + 2)).toNat = clearCode m + 2 := by
  have := (clearCode_bounds h).2
  rw [BitVec.toNat_ofNat]; omega

theorem initialWidth_toNat {m : BitVec 8} (h : legalMcs m) :
    (BitVec.ofNat 4 (m.toNat + 1)).toNat = m.toNat + 1 := by
  have := h.2
  rw [BitVec.toNat_ofNat]; omega

/-! ### The cursor -/

/-- The advance adds the width to BITPOS wherever the sum fits the two registers (`40_bitreader.md` R122). -/
theorem bitpos_advance (w : Nat) (s : State) (h : bitpos s + w < 8 * 4294967296) :
    bitpos (advance w s) = bitpos s + w := by
  unfold bitpos at *
  simp only [advance_iptr, advance_ibit, BitVec.toNat_add, BitVec.toNat_ofNat]
  omega

/-- A code whose bits are available leaves the cursor inside the input (`40_bitreader.md` R122). -/
theorem bitpos_advance_available {s : State} (h : ¬ inputExhausted s) :
    bitpos (advance s.cw.toNat s) = bitpos s + s.cw.toNat := by
  have := s.ilen.isLt
  unfold inputExhausted at h
  exact bitpos_advance _ _ (by omega)

/-! ### The table -/

@[simp] theorem lookup_append (str : ByteStr) (s : State) (i : Nat) :
    lookup i (append str s) = if s.next.toNat = i then some str else lookup i s := by
  simp [lookup, Memory.read_write]

@[simp] theorem lookup_clearTable (s : State) (i : Nat) :
    lookup i (clearTable s) = if i < clearCode s.mcs then lookup i s else none := by
  simp [lookup, Memory.read_below]

@[simp] theorem lookup_initTable (s : State) (i : Nat) :
    lookup i (initTable s) = if i < clearCode s.mcs then some (oneByte (BitVec.ofNat 8 i)) else none := by
  simp [lookup, read_literalTable]

/-- A lookup reads the table and nothing else. -/
theorem lookup_congr {s t : State} (h : s.dict = t.dict) (i : Nat) : lookup i s = lookup i t := by simp [lookup, h]

/-- An append where the table has room moves NEXT up by one (`41_dictionary.md` R147). -/
theorem append_next_toNat {s : State} (str : ByteStr) (h : hasRoom s) :
    (append str s).next.toNat = s.next.toNat + 1 := by
  have h2 : s.next.toNat < 4096 := h
  simp only [append_next, BitVec.toNat_add, BitVec.toNat_ofNat]; omega

/-- The width after a growth: one more exactly at a threshold below 12 (`41_dictionary.md` R149). -/
theorem grownWidth_toNat (n : BitVec 13) (w : BitVec 4) :
    (grownWidth n w).toNat = if n.toNat = 2 ^ w.toNat ∧ w.toNat < maxCw then w.toNat + 1 else w.toNat := by
  unfold grownWidth
  split
  · rename_i h
    have : w.toNat < 12 := h.2
    simp only [BitVec.toNat_add, BitVec.toNat_ofNat]; omega
  · rfl

/-! ### Emission -/

@[simp] theorem strBytes_length (str : ByteStr) : (strBytes str).length = strLen str := by simp [strBytes, strLen]

@[simp] theorem strLen_snoc (str : ByteStr) (k : Byte) : strLen (strSnoc str k) = strLen str + 1 := by
  simp [strLen, strSnoc]

@[simp] theorem strBytes_snoc (str : ByteStr) (k : Byte) : strBytes (strSnoc str k) = strBytes str ++ [k] := by
  simp [strBytes, strSnoc]

@[simp] theorem strBytes_oneByte (b : Byte) : strBytes (oneByte b) = [b] := rfl

@[simp] theorem strLen_oneByte (b : Byte) : strLen (oneByte b) = 1 := rfl

/-- The first byte of a string is one of its bytes. -/
theorem firstByte_mem (str : ByteStr) : firstByte str ∈ strBytes str := by simp [firstByte, strBytes]

/-- An emission that fits adds the string's length to OLEN exactly (`41_dictionary.md` R150, R152). -/
theorem storeStr_olen_toNat {s : State} {str : ByteStr} (h : ¬ overflows str s) :
    (storeStr str s).olen.toNat = s.olen.toNat + strLen str := by
  have h1 := s.ocap.isLt
  unfold overflows at h
  simp only [storeStr_olen, BitVec.toNat_add, BitVec.toNat_ofNat]; omega

/-- The bytes of an emission stand at OLEN upward, first byte first; every other byte is as it was
(`41_dictionary.md` R150). -/
theorem read_storeStr (str : ByteStr) (s : State) (a : Nat) :
    Memory.read (storeStr str s).obuf a =
      if s.olen.toNat ≤ a ∧ a < s.olen.toNat + strLen str then (strBytes str)[a - s.olen.toNat]?
      else Memory.read s.obuf a := by
  simp [Memory.read_writeList]

/-- An emission ends in ERR_OVF with nothing written, or goes on after its writes (`41_dictionary.md` R150). -/
theorem emitThen_cases {str : ByteStr} {c : Code} {rest : State → Result} {s t : State}
    (h : emitThen str c rest s = .next t) :
    (overflows str s ∧ t = raise .ovf c s) ∨ (¬ overflows str s ∧ rest (storeStr str s) = .next t) := by
  unfold emitThen at h
  split at h
  · rename_i ho; injection h with h; exact .inl ⟨ho, h.symm⟩
  · rename_i ho; exact .inr ⟨ho, h⟩

/-- An append where there is room, or nothing (`41_dictionary.md` R146). -/
theorem appendIfRoom_of_room {s : State} (str : ByteStr) (h : hasRoom s) : appendIfRoom str s = append str s :=
  if_pos h

theorem appendIfRoom_of_full {s : State} (str : ByteStr) (h : ¬ hasRoom s) : appendIfRoom str s = s := if_neg h

end Sys2Proof.Machine
end

