-- ==== Sys2Proof/Laws/Exec.lean ====
section
/-! SUPPORT. One inversion lemma for each meaning: everything it can do when it answers a next state. -/

namespace Sys2Proof.Machine

/-- The last states an emitting code can lead to: the capacity fault, or the writes of the emission, a change of the table
or of FIRST, PREV and the cursor. -/
inductive EmitEnd (str : ByteStr) (c : Code) (s : State) : State → Prop
  | overflow (h : overflows str s) : EmitEnd str c s (raise .ovf c s)
  | firstCode (h : ¬ overflows str s) (hf : s.first = true) :
      EmitEnd str c s (finishCode c s.cw.toNat { storeStr str s with first := false })
  | learned (h : ¬ overflows str s) (hr : hasRoom s) (entry : ByteStr) :
      EmitEnd str c s (finishCode c s.cw.toNat (append entry (storeStr str s)))
  | full (h : ¬ overflows str s) (hr : ¬ hasRoom s) : EmitEnd str c s (finishCode c s.cw.toNat (storeStr str s))

/-- ExecKnown ends in the capacity fault, appends `DICT[PREV] ++ [First(s)]`, or leaves a full table alone
(`43_data_codes.md` R171). -/
theorem execKnown_cases {str : ByteStr} {c : Code} {s t : State} (h : execKnown str c s = .next t) :
    (overflows str s ∧ t = raise .ovf c s) ∨
    (¬ overflows str s ∧ hasRoom s ∧ ∃ p, lookup s.prev.toNat s = some p ∧
      t = finishCode c s.cw.toNat (append (strSnoc p (firstByte str)) (storeStr str s))) ∨
    (¬ overflows str s ∧ ¬ hasRoom s ∧ t = finishCode c s.cw.toNat (storeStr str s)) := by
  rcases emitThen_cases h with h | ⟨ho, h⟩
  · exact .inl h
  · by_cases hr : hasRoom s
    · refine .inr (.inl ⟨ho, hr, ?_⟩)
      rw [if_pos (show hasRoom (storeStr str s) from hr)] at h
      cases hp : lookup s.prev.toNat s with
      | none =>
        rw [show lookup (storeStr str s).prev.toNat (storeStr str s) = none from hp] at h
        cases h
      | some p =>
        rw [show lookup (storeStr str s).prev.toNat (storeStr str s) = some p from hp] at h
        injection h with h
        exact ⟨p, rfl, h.symm⟩
    · refine .inr (.inr ⟨ho, hr, ?_⟩)
      rw [if_neg (show ¬ hasRoom (storeStr str s) from hr)] at h
      injection h with h
      exact h.symm

/-- LIT in first position emits its byte, sets PREV and clears FIRST, or faults on capacity (`43_data_codes.md` R172). -/
theorem execLit_first_cases {c : Code} {s t : State} (hf : s.first = true) (h : execLit c s = .next t) :
    (overflows (literalStr c) s ∧ t = raise .ovf c s) ∨
    (¬ overflows (literalStr c) s ∧
      t = finishCode c s.cw.toNat { storeStr (literalStr c) s with first := false }) := by
  rw [execLit, if_pos hf] at h
  rcases emitThen_cases h with h | ⟨ho, h⟩
  · exact .inl h
  · injection h with h; exact .inr ⟨ho, h.symm⟩

/-- LIT outside first position is ExecKnown with `s = [c]` (`43_data_codes.md` R173). -/
theorem execLit_known {c : Code} {s : State} (hf : s.first = false) :
    execLit c s = execKnown (literalStr c) c s := by simp [execLit, hf]

/-- REF is ExecKnown with `s = DICT[c]` (`43_data_codes.md` R174). -/
theorem execRef_known {c : Code} {s : State} {str : ByteStr} (h : lookup c.toNat s = some str) :
    execRef c s = execKnown str c s := by simp [execRef, h]

theorem execRef_cases {c : Code} {s t : State} (h : execRef c s = .next t) :
    ∃ str, lookup c.toNat s = some str ∧ execKnown str c s = .next t := by
  unfold execRef at h
  cases hl : lookup c.toNat s with
  | none => rw [hl] at h; cases h
  | some str => rw [hl] at h; exact ⟨str, rfl, h⟩

/-- KWK faults on capacity, or emits and appends `V = P ++ [P[0]]` (`43_data_codes.md` R178). -/
theorem execKwk_cases {c : Code} {s t : State} (h : execKwk c s = .next t) :
    ∃ p, lookup s.prev.toNat s = some p ∧
      ((overflows (kwkStr p) s ∧ t = raise .ovf c s) ∨
       (¬ overflows (kwkStr p) s ∧
        t = finishCode c s.cw.toNat (appendIfRoom (kwkStr p) (storeStr (kwkStr p) s)))) := by
  unfold execKwk at h
  cases hp : lookup s.prev.toNat s with
  | none => rw [hp] at h; cases h
  | some p =>
    rw [hp] at h
    refine ⟨p, rfl, ?_⟩
    rcases emitThen_cases h with h | ⟨ho, h⟩
    · exact .inl h
    · injection h with h; exact .inr ⟨ho, h.symm⟩

/-- START is ignored in RUN, faults on an illegal configuration, or starts a run (`44_host_commands.md` R190). -/
theorem execStart_cases {s t : State} (h : execStart s = .next t) :
    (s.state = .run ∧ t = s) ∨ (s.state ≠ .run ∧ ¬ configOk s ∧ t = raise .cfg 0 s) ∨
    (s.state ≠ .run ∧ configOk s ∧ t = { initRun s with errcode := .none, errval := 0, state := .run }) := by
  unfold execStart at h
  split at h
  · rename_i hr; injection h with h; exact .inl ⟨hr, h.symm⟩
  · rename_i hr
    split at h
    · rename_i hc; injection h with h; exact .inr (.inl ⟨hr, hc, h.symm⟩)
    · rename_i hc; injection h with h; exact .inr (.inr ⟨hr, not_not.mp hc, h.symm⟩)

/-- The data codes that emit, in one form: which state each can lead to (`41_dictionary.md` R151). -/
theorem exec_emit_end {i : Instr} {s t : State} (hi : (∃ c, i = .lit c) ∨ (∃ c, i = .ref c) ∨ ∃ c, i = .kwk c)
    (h : exec i s = .next t) : ∃ str c, EmitEnd str c s t := by
  have known : ∀ {str c}, execKnown str c s = .next t → ∃ str c, EmitEnd str c s t := by
    intro str c h
    rcases execKnown_cases h with ⟨ho, rfl⟩ | ⟨ho, hr, p, -, rfl⟩ | ⟨ho, hr, rfl⟩
    · exact ⟨str, c, .overflow ho⟩
    · exact ⟨str, c, .learned ho hr _⟩
    · exact ⟨str, c, .full ho hr⟩
  rcases hi with ⟨c, rfl⟩ | ⟨c, rfl⟩ | ⟨c, rfl⟩
  · cases hf : s.first
    · exact known ((execLit_known hf).symm.trans h)
    · rcases execLit_first_cases hf h with ⟨ho, rfl⟩ | ⟨ho, rfl⟩
      · exact ⟨_, c, .overflow ho⟩
      · exact ⟨_, c, .firstCode ho hf⟩
  · obtain ⟨str, -, hk⟩ := execRef_cases h
    exact known hk
  · obtain ⟨p, -, ⟨ho, rfl⟩ | ⟨ho, rfl⟩⟩ := execKwk_cases h
    · exact ⟨_, c, .overflow ho⟩
    · by_cases hr : hasRoom s
      · rw [appendIfRoom_of_room _ (show hasRoom (storeStr (kwkStr p) s) from hr)]
        exact ⟨_, c, .learned ho hr _⟩
      · rw [appendIfRoom_of_full _ (show ¬ hasRoom (storeStr (kwkStr p) s) from hr)]
        exact ⟨_, c, .full ho hr⟩

end Sys2Proof.Machine
end

