-- ==== Sys2Proof/Laws/Step.lean ====
section
/-! SUPPORT. What a step can do: one inversion lemma for the script, one for the engine's turn, one for a move of the host; and
what a decoded code says of the registers it was read against. -/

namespace Sys2Proof.Machine

/-- The engine's turn leaves a quiescent machine alone, faults on exhausted input, or executes the decoded code
(`43_data_codes.md` R170). -/
theorem engineTurn_cases {s t : State} (h : engineTurn s = .next t) :
    (s.state ≠ .run ∧ t = s) ∨
    (s.state = .run ∧ inputExhausted s ∧ t = raise .trunc 0 s) ∨
    (s.state = .run ∧ ¬ inputExhausted s ∧ ∃ bytes i, fetchWindow s = some bytes ∧
      decode (codeCtx s) bytes s.ibit.toNat = .ok i ∧ exec i s = .next t) := by
  unfold engineTurn at h
  split at h
  · rename_i hr
    refine .inr ?_
    unfold fetchAndExec at h
    split at h
    · rename_i he; injection h with h; exact .inl ⟨hr, he, h.symm⟩
    · rename_i he
      refine .inr ⟨hr, he, ?_⟩
      cases hw : fetchWindow s with
      | none => rw [hw] at h; cases h
      | some bytes =>
        rw [hw] at h
        simp only at h
        cases hd : decode (codeCtx s) bytes s.ibit.toNat with
        | error e => rw [hd] at h; cases h
        | ok i => rw [hd] at h; exact ⟨bytes, i, rfl, hd, h⟩
  · rename_i hr; injection h with h; exact .inl ⟨hr, h.symm⟩

/-- An engine step that finds its code runs it. -/
theorem engineTurn_run {s : State} {bytes : List Byte} {i : Instr} (hr : s.state = .run) (he : ¬ inputExhausted s)
    (hw : fetchWindow s = some bytes) (hd : decode (codeCtx s) bytes s.ibit.toNat = .ok i) :
    engineTurn s = exec i s := by
  simp [engineTurn, fetchAndExec, hr, he, hw, hd]

/-- A step is the engine's turn where the script is empty, else the script's first move (log 2). -/
theorem step_cases (s : State) :
    (s.host.script = [] ∧ step s = engineTurn s) ∨
    ∃ m rest, s.host.script = m :: rest ∧ step s = hostMove m (popMove s) := by
  unfold step takeTurn
  cases hs : s.host.script with
  | nil => exact .inl ⟨rfl, rfl⟩
  | cons m rest => exact .inr ⟨m, rest, rfl, rfl⟩

theorem step_of_silent {s : State} (h : hostSilent s) : step s = engineTurn s := by
  simp [step, takeTurn, h]

/-- A buffer access that answers a next state was made outside a run and inside the buffer. -/
theorem bufferAccess_cases {a size : Nat} {s t : State} {go : Result} (h : bufferAccess a size s go = .next t) :
    s.state ≠ .run ∧ a < size ∧ go = .next t := by
  unfold bufferAccess at h
  split at h
  · cases h
  · split at h
    · cases h
    · exact ⟨‹_›, by omega, h⟩

theorem answerByte_cases {b : Option Byte} {s t : State} (h : answerByte b s = .next t) :
    ∃ v, b = some v ∧ t = answer (.byte v) s := by
  cases b with
  | none => cases h
  | some v => injection h with h; exact ⟨v, rfl, h.symm⟩

/-- A CTRL write is RESET, START or nothing (`10_state.md` R22). -/
theorem writeCtrl_cases (v : Word) (s : State) :
    (decodeCtrl v = .ok .reset ∧ writeCtrl v s = execReset s) ∨
    (decodeCtrl v = .ok .start ∧ writeCtrl v s = execStart s) ∨
    (decodeCtrl v = .error .noCommand ∧ writeCtrl v s = .next s) := by
  unfold writeCtrl decodeCtrl
  split
  · exact .inl ⟨rfl, rfl⟩
  · split
    · exact .inr (.inl ⟨rfl, rfl⟩)
    · exact .inr (.inr ⟨rfl, rfl⟩)

/-- A host write of a register is ignored in RUN, and reaches MCS, ILEN or OCAP only (`44_host_commands.md` R197). -/
theorem writeReg_cases (n : Nat) (v : Word) (s : State) :
    writeReg n v s = s ∨ (s.state ≠ .run ∧
      ((n = 2 ∧ writeReg n v s = { s with mcs := v.setWidth 8 }) ∨ (n = 3 ∧ writeReg n v s = { s with ilen := v }) ∨
       (n = 4 ∧ writeReg n v s = { s with ocap := v }))) := by
  by_cases hr : s.state = .run
  · exact .inl (by simp [writeReg, hr])
  · by_cases h2 : n = 2
    · exact .inr ⟨hr, .inl ⟨h2, by subst h2; simp [writeReg, hr]⟩⟩
    · by_cases h3 : n = 3
      · exact .inr ⟨hr, .inr (.inl ⟨h3, by subst h3; simp [writeReg, hr]⟩)⟩
      · by_cases h4 : n = 4
        · exact .inr ⟨hr, .inr (.inr ⟨h4, by subst h4; simp [writeReg, hr]⟩)⟩
        · refine .inl ?_
          unfold writeReg
          split
          · rfl
          · split <;> simp_all

/-- Every move of the host that answers a next state, and the state it answers. -/
theorem hostMove_cases {m : HostMove} {s t : State} (h : hostMove m s = .next t) :
    (∃ v, m = .writeReg 0 v ∧ writeCtrl v s = .next t) ∨
    (∃ n v, m = .writeReg n v ∧ n ≠ 0 ∧ t = writeReg n v s) ∨
    (∃ n, m = .readReg n ∧ t = answer (.reg (readReg n s)) s) ∨
    (∃ a b, m = .writeIbuf a b ∧ s.state ≠ .run ∧ a < s.cfg.ibufSize.val ∧
      t = { s with ibuf := Memory.write s.ibuf a b }) ∨
    (∃ a v, (m = .readIbuf a ∧ Memory.read s.ibuf a = some v ∨ m = .readObuf a ∧ Memory.read s.obuf a = some v) ∧
      s.state ≠ .run ∧ t = answer (.byte v) s) ∨
    (m = .hwReset ∧ t = hardwareReset s) ∨
    (m = .wait ∧ engineTurn s = .next t) := by
  cases m with
  | writeReg n v =>
    by_cases hn : n = 0
    · subst hn; exact .inl ⟨v, rfl, h⟩
    · simp only [hostMove, if_neg hn] at h
      injection h with h
      exact .inr (.inl ⟨n, v, rfl, hn, h.symm⟩)
  | readReg n => injection h with h; exact .inr (.inr (.inl ⟨n, rfl, h.symm⟩))
  | writeIbuf a b =>
    obtain ⟨hr, ha, h⟩ := bufferAccess_cases h
    injection h with h
    exact .inr (.inr (.inr (.inl ⟨a, b, rfl, hr, ha, h.symm⟩)))
  | readIbuf a =>
    obtain ⟨hr, -, h⟩ := bufferAccess_cases h
    obtain ⟨v, hv, rfl⟩ := answerByte_cases h
    exact .inr (.inr (.inr (.inr (.inl ⟨a, v, .inl ⟨rfl, hv⟩, hr, rfl⟩))))
  | readObuf a =>
    obtain ⟨hr, -, h⟩ := bufferAccess_cases h
    obtain ⟨v, hv, rfl⟩ := answerByte_cases h
    exact .inr (.inr (.inr (.inr (.inl ⟨a, v, .inr ⟨rfl, hv⟩, hr, rfl⟩))))
  | hwReset => injection h with h; exact .inr (.inr (.inr (.inr (.inr (.inl ⟨rfl, h.symm⟩)))))
  | wait => exact .inr (.inr (.inr (.inr (.inr (.inr ⟨rfl, h⟩)))))

/-! ### What decoding says -/

/-- Assembled bits make a number below `2^w` (`30_encoding.md` R92). -/
theorem assemble_lt (bytes : List Byte) (p w : Nat) : assemble bytes p w < 2 ^ w := by
  induction w generalizing p with
  | zero => simp [assemble]
  | succ w ih =>
    have h1 : streamBit bytes p < 2 := Nat.mod_lt _ (by omega)
    have h2 := ih (p + 1)
    simp only [assemble, Nat.pow_succ]; omega

/-- A decoded code was read in a legal context, from enough bits, and is the class of the bits read. -/
theorem decode_eq_ok {x : CodeCtx} {bytes : List Byte} {p : Nat} {i : Instr} :
    decode x bytes p = .ok i ↔ x.legal ∧ p + x.cw.toNat ≤ 8 * bytes.length ∧
      i = classify x (BitVec.ofNat 12 (assemble bytes p x.cw.toNat)) := by
  unfold decode CodeCtx.legal
  split
  · simp_all
  · split
    · simp_all
    · split
      · simp_all
      · constructor
        · intro h; injection h with h; exact ⟨⟨not_not.mp ‹_›, not_not.mp ‹_›⟩, by omega, h.symm⟩
        · rintro ⟨-, -, rfl⟩; rfl

/-- The code read is its bits' exact value: 12 bits hold every width (`30_encoding.md` R92). -/
theorem assembled_code_toNat {x : CodeCtx} (h : x.legal) (bytes : List Byte) (p : Nat) :
    (BitVec.ofNat 12 (assemble bytes p x.cw.toNat)).toNat = assemble bytes p x.cw.toNat := by
  have h1 := assemble_lt bytes p x.cw.toNat
  have h2 : 2 ^ x.cw.toNat ≤ 2 ^ 12 := Nat.pow_le_pow_right (by omega) h.2.2
  rw [BitVec.toNat_ofNat, Nat.mod_eq_of_lt (by omega)]

/-- The condition each class was selected by (`30_encoding.md` R94). -/
theorem classify_cases (x : CodeCtx) (c : Code) :
    (classify x c = .clr ∧ c.toNat = clearCode x.mcs) ∨
    (classify x c = .eoi ∧ c.toNat = eoiCode x.mcs) ∨
    (classify x c = .lit c ∧ c.toNat < clearCode x.mcs) ∨
    (classify x c = .bad c ∧ x.first = true ∧ clearCode x.mcs + 2 ≤ c.toNat) ∨
    (classify x c = .ref c ∧ x.first = false ∧ clearCode x.mcs + 2 ≤ c.toNat ∧ c.toNat < x.next.toNat) ∨
    (classify x c = .kwk c ∧ x.first = false ∧ clearCode x.mcs + 2 ≤ c.toNat ∧ c.toNat = x.next.toNat) ∨
    (classify x c = .bad c ∧ x.first = false ∧ clearCode x.mcs + 2 ≤ c.toNat ∧ x.next.toNat < c.toNat) := by
  unfold classify
  unfold eoiCode
  cases hf : x.first
  · by_cases h1 : c.toNat = clearCode x.mcs
    · simp [h1]
    · by_cases h2 : c.toNat = clearCode x.mcs + 1
      · simp [h2]
      · by_cases h3 : c.toNat < clearCode x.mcs
        · simp [h1, h2, h3]
        · have h4 : clearCode x.mcs + 2 ≤ c.toNat := by omega
          by_cases h5 : c.toNat < x.next.toNat
          · simp [h1, h2, h3, h4, h5]
          · by_cases h6 : c.toNat = x.next.toNat
            · simp only [h6, if_false, if_true, Bool.false_eq_true]
              simp only [if_neg (show ¬ x.next.toNat = clearCode x.mcs by omega),
                if_neg (show ¬ x.next.toNat = clearCode x.mcs + 1 by omega),
                if_neg (show ¬ x.next.toNat < clearCode x.mcs by omega), lt_irrefl, if_false]
              simp; omega
            · simp [h1, h2, h3, h4, h5, h6]; omega
  · by_cases h1 : c.toNat = clearCode x.mcs
    · simp [h1]
    · by_cases h2 : c.toNat = clearCode x.mcs + 1
      · simp [h2]
      · by_cases h3 : c.toNat < clearCode x.mcs
        · simp [h1, h2, h3]
        · simp [h1, h2, h3]; omega

end Sys2Proof.Machine
end

