-- ==== Sys2Proof/Laws/Bits.lean ====
section
/-! SUPPORT. The arithmetic of the bit stream: what a fetched code is as a number, what the bytes of a number are, and how the
encoder's codes stand in the bytes it packs (`20_memory.md` R65, `30_encoding.md` R103). -/

namespace Sys2Proof.Machine

set_option autoImplicit false

/-- A code is the sum of its stream bits (`40_bitreader.md` R121). -/
theorem assemble_eq_sum (bytes : List Byte) (p w : Nat) :
    assemble bytes p w = ∑ i ∈ Finset.range w, streamBit bytes (p + i) * 2 ^ i := by
  induction w generalizing p with
  | zero => simp [assemble]
  | succ w ih =>
    rw [assemble, ih, Finset.sum_range_succ', Finset.mul_sum]
    simp only [Nat.add_zero, pow_zero, mul_one]
    rw [add_comm]
    congr 1
    apply Finset.sum_congr rfl
    intro i _
    rw [show p + 1 + i = p + (i+1) by omega, pow_succ]; ring

/-- Bit `i` of a code is stream bit `p + i` (`30_encoding.md` R92). -/
theorem testBit_assemble (bytes : List Byte) (p w i : Nat) :
    (assemble bytes p w).testBit i = (decide (i < w) && decide (streamBit bytes (p+i) = 1)) := by
  induction w generalizing p i with
  | zero => simp [assemble]
  | succ w ih =>
    have hb : streamBit bytes p = 0 ∨ streamBit bytes p = 1 := by unfold streamBit; omega
    rw [assemble]
    cases i with
    | zero =>
      rw [Nat.testBit_zero]; rcases hb with hb | hb <;> simp [hb]
    | succ i =>
      rw [Nat.testBit_succ, show (streamBit bytes p + 2 * assemble bytes (p+1) w) / 2 = assemble bytes (p+1) w by omega, ih]
      rw [show p + 1 + i = p + (i+1) by omega]; simp

/-- A stream bit is a bit of its byte (`20_memory.md` R65). -/
theorem decide_streamBit (bytes : List Byte) (k : Nat) : decide (streamBit bytes k = 1) = (bytes.getD (k/8) 0).toNat.testBit (k%8) := by
  rw [Nat.testBit_eq_decide_div_mod_eq]; unfold streamBit; rw [Nat.shiftRight_eq_div_pow]

/-- Equal stream bits make equal codes. -/
theorem assemble_congr {a b : List Byte} {p q : Nat} {w : Nat} (h : ∀ i, i < w → streamBit a (p + i) = streamBit b (q + i)) :
    assemble a p w = assemble b q w := by
  induction w generalizing p q with
  | zero => rfl
  | succ w ih =>
    simp only [assemble]
    rw [show streamBit a p = streamBit b q from h 0 (by omega)]
    rw [ih (p := p+1) (q := q+1) fun i hi => by
      have := h (i+1) (by omega)
      rwa [show p + (i+1) = p + 1 + i by omega, show q + (i+1) = q + 1 + i by omega] at this]

/-- The bytes of a number are as many as were asked for. -/
theorem bytesOf_length (v n : Nat) : (bytesOf v n).length = n := by
  induction n generalizing v with
  | zero => rfl
  | succ n ih => simp [bytesOf, ih]

/-- The byte at place `k` is the number's bits from `8 * k` on. -/
theorem bytesOf_getD (v n k : Nat) (h : k < n) : (bytesOf v n).getD k 0 = BitVec.ofNat 8 (v / 2 ^ (8 * k) % 256) := by
  induction n generalizing v k with
  | zero => omega
  | succ n ih =>
    cases k with
    | zero => simp [bytesOf]
    | succ k =>
      simp only [bytesOf, List.getD_cons_succ]
      rw [ih _ _ (by omega), Nat.div_div_eq_div_mul]
      congr 3
      rw [show 8 * (k+1) = 8 + 8 * k by ring, Nat.pow_add]

/-- Taking bytes in two parts. -/
theorem bytesOf_append (v a b : Nat) : bytesOf v (a + b) = bytesOf v a ++ bytesOf (v / 2 ^ (8*a)) b := by
  induction a generalizing v with
  | zero => simp [bytesOf]
  | succ a ih =>
    rw [show a + 1 + b = (a + b) + 1 by omega]
    simp only [bytesOf, ih, List.cons_append, Nat.div_div_eq_div_mul]
    rw [show 256 * 2 ^ (8*a) = 2 ^ (8 * (a+1)) by rw [show 8 * (a+1) = 8*a + 8 by ring, pow_add]; ring]

/-- The low bytes depend on the low bits only. -/
theorem bytesOf_mod (v n : Nat) : bytesOf (v % 2 ^ (8*n)) n = bytesOf v n := by
  induction n generalizing v with
  | zero => rfl
  | succ n ih =>
    have h1 : 2 ^ (8*(n+1)) = 256 * 2 ^ (8*n) := by rw [show 8 * (n+1) = 8*n + 8 by ring, pow_add]; ring
    simp only [bytesOf]
    rw [h1, Nat.mod_mul_right_mod, Nat.mod_mul_right_div_self, ih]

/-- Stream bit `k` of the bytes of a number is bit `k` of the number. -/
theorem streamBit_bytesOf (v n k : Nat) (h : k < 8 * n) : streamBit (bytesOf v n) k = v / 2 ^ k % 2 := by
  unfold streamBit
  rw [bytesOf_getD _ _ _ (by omega), BitVec.toNat_ofNat, Nat.shiftRight_eq_div_pow]
  rw [Nat.mod_eq_of_lt (a := v / 2 ^ (8 * (k/8)) % 256) (by omega)]
  have : k % 8 < 8 := Nat.mod_lt _ (by omega)
  rw [show 256 = 2 ^ (k % 8) * 2 ^ (8 - k % 8) by rw [← Nat.pow_add, show k % 8 + (8 - k % 8) = 8 by omega]]
  rw [Nat.mod_mul_right_div_self, Nat.div_div_eq_div_mul, ← Nat.pow_add, show 8 * (k/8) + k % 8 = k by omega]
  rw [show 8 - k % 8 = (7 - k % 8) + 1 by omega, Nat.pow_succ, Nat.mul_comm, Nat.mod_mul_right_mod]

/-- A code read from the bytes of a number is a field of the number. -/
theorem assemble_bytesOf (v n p w : Nat) (h : p + w ≤ 8 * n) : assemble (bytesOf v n) p w = v / 2 ^ p % 2 ^ w := by
  induction w generalizing p with
  | zero => simp [assemble, Nat.mod_one]
  | succ w ih =>
    simp only [assemble]
    rw [ih (p+1) (by omega), streamBit_bytesOf _ _ _ (by omega), Nat.pow_succ 2 w, Nat.pow_succ 2 p, Nat.mul_comm (2^w) 2, Nat.mod_mul, Nat.div_div_eq_div_mul]

/-- The bits of two code lists add up. -/
theorem streamWidth_append (a b : List (Nat × Nat)) : streamWidth (a ++ b) = streamWidth a + streamWidth b := by
  induction a with
  | nil => simp [streamWidth]
  | cons x a ih => obtain ⟨c, w⟩ := x; simp [streamWidth, ih]; omega

/-- A stream's number has no bit beyond its width. -/
theorem streamValue_lt (a : List (Nat × Nat)) : streamValue a < 2 ^ streamWidth a := by
  induction a with
  | nil => simp [streamValue, streamWidth]
  | cons x a ih =>
    obtain ⟨c, w⟩ := x
    simp only [streamValue, streamWidth, Nat.pow_add]
    have := Nat.mod_lt c (show 0 < 2 ^ w by positivity)
    calc c % 2 ^ w + 2 ^ w * streamValue a < 2^w + 2 ^ w * streamValue a := by omega
      _ = 2^w * (streamValue a + 1) := by ring
      _ ≤ _ := Nat.mul_le_mul_left _ ih

/-- The stream of two code lists, the second above the first. -/
theorem streamValue_append (a b : List (Nat × Nat)) : streamValue (a ++ b) = streamValue a + 2 ^ streamWidth a * streamValue b := by
  induction a with
  | nil => simp [streamWidth, streamValue]
  | cons x a ih =>
    obtain ⟨c, w⟩ := x; simp only [List.cons_append, streamWidth, streamValue, ih, Nat.pow_add]; ring

/-- One more code, its width more bits. -/
theorem streamWidth_snoc (before : List (Nat × Nat)) (c w : Nat) : streamWidth (before ++ [(c, w)]) = streamWidth before + w := by
  rw [streamWidth_append]; simp [streamWidth]

/-- The bytes a code list is packed into, the last one filled up (`30_encoding.md` R103). -/
theorem pack_length (cs : List (Nat × Nat)) : (pack cs).length = (streamWidth cs + 7) / 8 := by
  simp [pack, bytesOf_length]

/-- The code at its own position in a packed list reads back. -/
theorem assemble_pack (before after : List (Nat × Nat)) (c w : Nat) :
    assemble (pack (before ++ (c, w) :: after)) (streamWidth before) w = c % 2 ^ w := by
  unfold pack
  rw [assemble_bytesOf _ _ _ _ (by rw [streamWidth_append, streamWidth]; omega)]
  rw [streamValue_append, streamValue]
  rw [Nat.add_mul_div_left _ _ (by positivity), Nat.div_eq_of_lt (streamValue_lt _), Nat.zero_add]
  rw [Nat.add_mul_mod_self_left, Nat.mod_mod]

/-- The byte loop takes the whole bytes and keeps the rest (`30_encoding.md` R103). -/
theorem packFlush_eq (fuel acc n : Nat) (h : n ≤ fuel) :
    packFlush fuel acc n = (bytesOf acc (n/8), acc / 2 ^ (8 * (n/8)), n % 8) := by
  induction fuel generalizing acc n with
  | zero => obtain rfl : n = 0 := by omega
            simp [packFlush, bytesOf]
  | succ fuel ih =>
    unfold packFlush
    split
    · rw [ih _ _ (by omega)]
      obtain ⟨k, hk⟩ : ∃ k, n / 8 = k + 1 := ⟨n/8 - 1, by omega⟩
      rw [show (n-8)/8 = k by omega, hk]
      simp only [bytesOf, Prod.mk.injEq, List.cons.injEq, Nat.shiftRight_eq_div_pow]
      refine ⟨⟨?_, trivial⟩, ?_, by omega⟩
      · congr 1; exact Nat.and_two_pow_sub_one_eq_mod acc 8
      · rw [Nat.div_div_eq_div_mul, ← pow_add]; congr 2; ring
    · rw [show n / 8 = 0 by omega, show n % 8 = n by omega]; simp [bytesOf]

end Sys2Proof.Machine
end

