-- ==== Sys2Proof/Laws/Run.lean ====
section
/-! SUPPORT. The invariant of a run, kept by each thing an engine step can do; what a step does in a running state; and runs of
several steps. -/

namespace Sys2Proof.Machine

set_option autoImplicit false

/-! ### The table -/

/-- The table invariant reads MCS, DICT and NEXT only. -/
theorem TableInv.congr {s t : State} (h : TableInv s) (hm : t.mcs = s.mcs) (hd : t.dict = s.dict) (hn : t.next = s.next) :
    TableInv t := by
  have hl : ∀ i, lookup i t = lookup i s := fun i => lookup_congr hd i
  constructor <;> simp only [hl, hm, hn]
  · exact h.literals
  · exact h.controlSlots
  · exact h.learned
  · exact h.free
  · exact h.alphabet
  · exact h.lengths

/-- An append of a string over the alphabet, of a length its slot allows, keeps the table invariant (`10_state.md` R40). -/
theorem TableInv.append {s : State} (h : TableInv s) (hr : hasRoom s) (hn : clearCode s.mcs + 2 ≤ s.next.toNat) {e : ByteStr}
    (hb : ∀ b ∈ strBytes e, b.toNat < clearCode s.mcs) (hl : 2 ≤ strLen e ∧ strLen e ≤ s.next.toNat - clearCode s.mcs) :
    TableInv (append e s) := by
  have hnx := append_next_toNat e hr
  constructor
  · intro i hi
    rw [lookup_append, if_neg (by simp at hi; omega)]; exact h.literals i hi
  · simp only [lookup_append, append_mcs, eoiCode]
    rw [if_neg (by omega), if_neg (by omega)]; exact h.controlSlots
  · intro i hi h2
    rw [hnx] at h2
    rw [lookup_append]; split
    · rfl
    · exact h.learned i hi (by omega)
  · intro i hi
    rw [hnx] at hi
    rw [lookup_append, if_neg (by omega)]; exact h.free i (by omega)
  · intro i str hs
    rw [lookup_append] at hs; split at hs
    · injection hs with hs; subst hs; exact hb
    · exact h.alphabet i str hs
  · intro i str hi hs
    rw [lookup_append] at hs; split at hs
    · injection hs with hs; subst hs; rename_i hx; rw [← hx]; exact hl
    · exact h.lengths i str hi hs

/-- An append keeps the width legal, and NEXT below `2^CW` or at the ceiling (`41_dictionary.md` R149). -/
theorem width_after_append {s : State} (hr : hasRoom s) (e : ByteStr) (hw : legalCw s.mcs s.cw)
    (hf : s.next.toNat < 2 ^ s.cw.toNat ∨ (s.cw.toNat = maxCw ∧ s.next.toNat = dictSize)) :
    legalCw s.mcs (append e s).cw ∧
    ((append e s).next.toNat < 2 ^ (append e s).cw.toNat ∨ ((append e s).cw.toNat = maxCw ∧ (append e s).next.toNat = dictSize)) := by
  have hnx := append_next_toNat e hr
  have hr' : s.next.toNat < 4096 := hr
  have hf' : s.next.toNat < 2 ^ s.cw.toNat := by
    rcases hf with h | ⟨-, h⟩
    · exact h
    · unfold dictSize at h; omega
  unfold legalCw at *
  rw [hnx, append_cw, grownWidth_toNat]
  rw [append_next] at hnx; rw [hnx]
  unfold maxCw dictSize at *
  split
  · rename_i h
    refine ⟨by omega, .inl ?_⟩
    rw [Nat.pow_succ]; omega
  · rename_i h
    refine ⟨hw, ?_⟩
    by_cases h2 : s.next.toNat + 1 = 2 ^ s.cw.toNat
    · have : s.cw.toNat = 12 := by omega
      right; refine ⟨this, ?_⟩; rw [h2, this]; norm_num
    · left; omega

/-- A state with the table and width of an append has learned the entry. -/
theorem learned_of_append {s t : State} {e : ByteStr} (hroom : hasRoom s) (h1 : t.next = (append e s).next) (h2 : t.dict = (append e s).dict) (h3 : t.cw = (append e s).cw) :
    Learned e s t := by
  have hnx := append_next_toNat e hroom
  refine ⟨by rw [h1]; exact hnx, fun i => ?_, ?_⟩
  · rw [lookup_congr h2, lookup_append]; by_cases hi : i = s.next.toNat
    · simp [hi]
    · rw [if_neg hi, if_neg (Ne.symm hi)]
  · rw [h3, append_cw, grownWidth_toNat, show (s.next + 1#13).toNat = _ from hnx]

/-- DICT[PREV] with a byte of the alphabet added is an entry the slot NEXT can take (`41_dictionary.md` R148). -/
theorem RunInv.entry {s : State} (h : RunInv s) (hf : s.first = false) {p : ByteStr} (hp : lookup s.prev.toNat s = some p)
    {k : Byte} (hk : k.toNat < clearCode s.mcs) :
    (∀ b ∈ strBytes (strSnoc p k), b.toNat < clearCode s.mcs) ∧ 2 ≤ strLen (strSnoc p k) ∧
    strLen (strSnoc p k) ≤ s.next.toNat - clearCode s.mcs := by
  obtain ⟨-, h1, h2, h3⟩ := h.previous hf
  have hm := clearCode_bounds h.config.1
  have hn := h.nextLow
  constructor
  · intro b hb
    simp only [strBytes_snoc, List.mem_append, List.mem_singleton] at hb
    rcases hb with hb | rfl
    · exact h.table.alphabet _ _ hp b hb
    · exact hk
  · rw [strLen_snoc]
    by_cases hlt : s.prev.toNat < clearCode s.mcs
    · rw [h.table.literals _ hlt] at hp; injection hp with hp; subst hp
      simp; omega
    · unfold eoiCode at h3
      have := h.table.lengths _ _ (by omega) hp
      omega

/-- A literal's string is over the alphabet. -/
theorem literalStr_alphabet {m : BitVec 8} (hm : legalMcs m) {c : Code} (hc : c.toNat < clearCode m) :
    ∀ b ∈ strBytes (literalStr c), b.toNat < clearCode m := by
  intro b hb
  have := (clearCode_bounds hm).2
  simp only [literalStr, strBytes_oneByte, List.mem_singleton] at hb
  subst hb; simp [BitVec.toNat_setWidth]; omega

/-! ### The engine's step -/

/-- The cursor advance of a code that was available, whatever else the step changed (`40_bitreader.md` R122). -/
theorem bitpos_advance_step {s s' : State} (h : ¬ inputExhausted s) (hi : s'.iptr = s.iptr) (hb : s'.ibit = s.ibit) :
    bitpos (advance s.cw.toNat s') = bitpos s + s.cw.toNat := by
  have : bitpos s' = bitpos s := by simp [bitpos, hi, hb]
  rw [← this]
  apply bitpos_advance
  have := s.ilen.isLt
  unfold inputExhausted at h; omega

/-- The class of a decode_ok_cases code and the condition it was selected by (`30_encoding.md` R94). -/
theorem decode_ok_cases {s : State} {bytes : List Byte} {i : Instr} (hd : decode (codeCtx s) bytes s.ibit.toNat = .ok i) :
    ∃ c : Code, c.toNat = assemble bytes s.ibit.toNat s.cw.toNat ∧ c.toNat < 2 ^ s.cw.toNat ∧
    ((i = .clr ∧ c.toNat = clearCode s.mcs) ∨ (i = .eoi ∧ c.toNat = eoiCode s.mcs) ∨ (i = .lit c ∧ c.toNat < clearCode s.mcs) ∨
     (i = .bad c ∧ clearCode s.mcs + 2 ≤ c.toNat ∧ (s.first = true ∨ s.first = false ∧ s.next.toNat < c.toNat)) ∨
     (i = .ref c ∧ s.first = false ∧ clearCode s.mcs + 2 ≤ c.toNat ∧ c.toNat < s.next.toNat) ∨
     (i = .kwk c ∧ s.first = false ∧ clearCode s.mcs + 2 ≤ c.toNat ∧ c.toNat = s.next.toNat)) := by
  obtain ⟨hx, hp, rfl⟩ := decode_eq_ok.mp hd
  have hv := assembled_code_toNat hx bytes s.ibit.toNat
  have hlt := assemble_lt bytes s.ibit.toNat s.cw.toNat
  refine ⟨BitVec.ofNat 12 (assemble bytes s.ibit.toNat s.cw.toNat), hv, by
    rw [show (BitVec.ofNat 12 (assemble bytes s.ibit.toNat s.cw.toNat)).toNat = _ from hv]; exact hlt, ?_⟩
  rcases classify_cases (codeCtx s) (BitVec.ofNat 12 (assemble bytes s.ibit.toNat s.cw.toNat)) with ⟨e,h1⟩|⟨e,h1⟩|⟨e,h1⟩|⟨e,h1,h2⟩|⟨e,h1,h2,h3⟩|⟨e,h1,h2,h3⟩|⟨e,h1,h2,h3⟩
  · exact .inl ⟨e, h1⟩
  · exact .inr (.inl ⟨e, h1⟩)
  · exact .inr (.inr (.inl ⟨e, h1⟩))
  · exact .inr (.inr (.inr (.inl ⟨e, h2, .inl h1⟩)))
  · exact .inr (.inr (.inr (.inr (.inl ⟨e, h1, h2, h3⟩))))
  · exact .inr (.inr (.inr (.inr (.inr ⟨e, h1, h2, h3⟩))))
  · exact .inr (.inr (.inr (.inl ⟨e, h2, .inr ⟨h1, h3⟩⟩)))

/-- A step in RUN faults on exhausted input or executes the decode_ok_cases code (`43_data_codes.md` R170). -/
theorem engineTurn_run_cases {s t : State} (hr : s.state = .run) (ht : engineTurn s = .next t) :
    (inputExhausted s ∧ t = raise .trunc 0 s) ∨ (¬ inputExhausted s ∧ ∃ bytes i, fetchWindow s = some bytes ∧ decode (codeCtx s) bytes s.ibit.toNat = .ok i ∧
      exec i s = .next t) := by
  rcases engineTurn_cases ht with ⟨hn, -⟩ | ⟨-, he, rfl⟩ | ⟨-, he, bytes, i, hw, hd, hx⟩
  · exact absurd hr hn
  · exact .inl ⟨he, rfl⟩
  · exact .inr ⟨he, bytes, i, hw, hd, hx⟩

/-- A data code names its string, and either faults on capacity or emits it, sets PREV and advances (`41_dictionary.md` R151). -/
theorem exec_data_cases {i : Instr} {c : Code} {s t : State} (hi : i = .lit c ∨ i = .ref c ∨ i = .kwk c) (hx : exec i s = .next t) :
    ∃ str, ((i = .lit c ∧ str = literalStr c) ∨ (i = .ref c ∧ lookup c.toNat s = some str) ∨
        (i = .kwk c ∧ ∃ p, lookup s.prev.toNat s = some p ∧ str = kwkStr p)) ∧
      ((overflows str s ∧ t = raise .ovf c s) ∨
       (¬ overflows str s ∧ t.state = s.state ∧ t.errcode = s.errcode ∧ t.errval = s.errval ∧ t.prev = c ∧
        t.olen = (storeStr str s).olen ∧ t.obuf = (storeStr str s).obuf ∧ t.mcs = s.mcs ∧ t.host = s.host ∧
        t.iptr = (advance s.cw.toNat s).iptr ∧ t.ibit = (advance s.cw.toNat s).ibit ∧ t.ilen = s.ilen ∧ t.ocap = s.ocap)) := by
  have known : ∀ {str}, execKnown str c s = .next t → (overflows str s ∧ t = raise .ovf c s) ∨
       (¬ overflows str s ∧ t.state = s.state ∧ t.errcode = s.errcode ∧ t.errval = s.errval ∧ t.prev = c ∧
        t.olen = (storeStr str s).olen ∧ t.obuf = (storeStr str s).obuf ∧ t.mcs = s.mcs ∧ t.host = s.host ∧
        t.iptr = (advance s.cw.toNat s).iptr ∧ t.ibit = (advance s.cw.toNat s).ibit ∧ t.ilen = s.ilen ∧ t.ocap = s.ocap) := by
    intro str h
    rcases execKnown_cases h with ⟨h1, rfl⟩ | ⟨h1, -, p, -, rfl⟩ | ⟨h1, -, rfl⟩
    · exact .inl ⟨h1, rfl⟩
    · exact .inr ⟨h1, rfl, rfl, rfl, rfl, rfl, rfl, rfl, rfl, rfl, rfl, rfl, rfl⟩
    · exact .inr ⟨h1, rfl, rfl, rfl, rfl, rfl, rfl, rfl, rfl, rfl, rfl, rfl, rfl⟩
  rcases hi with rfl | rfl | rfl
  · refine ⟨literalStr c, .inl ⟨rfl, rfl⟩, ?_⟩
    cases hf : s.first
    · exact known ((execLit_known hf).symm.trans hx)
    · rcases execLit_first_cases hf hx with ⟨h, rfl⟩ | ⟨h, rfl⟩
      · exact .inl ⟨h, rfl⟩
      · exact .inr ⟨h, rfl, rfl, rfl, rfl, rfl, rfl, rfl, rfl, rfl, rfl, rfl, rfl⟩
  · obtain ⟨str, hs, hk⟩ := execRef_cases hx
    exact ⟨str, .inr (.inl ⟨rfl, hs⟩), known hk⟩
  · obtain ⟨p, hp, h⟩ := execKwk_cases hx
    refine ⟨kwkStr p, .inr (.inr ⟨rfl, p, hp, rfl⟩), ?_⟩
    rcases h with ⟨h, rfl⟩ | ⟨h, rfl⟩
    · exact .inl ⟨h, rfl⟩
    · unfold appendIfRoom; split <;> exact .inr ⟨h, rfl, rfl, rfl, rfl, rfl, rfl, rfl, rfl, rfl, rfl, rfl, rfl⟩

/-- Outside RUN the engine's turn does nothing. -/
theorem engineTurn_idle {s t : State} (hr : s.state ≠ .run) (ht : engineTurn s = .next t) : t = s := by
  simp only [engineTurn, if_neg hr] at ht; injection ht with ht; exact ht.symm

/-- What an emitting step must leave for the run's invariant to hold again. -/
theorem RunInv.ofEmit {s t : State} (h : RunInv s) (he : ¬ inputExhausted s) {str : ByteStr} (ho : ¬ overflows str s)
    (hcfg : t.cfg = s.cfg) (hmcs : t.mcs = s.mcs) (hil : t.ilen = s.ilen) (hoc : t.ocap = s.ocap)
    (hol : t.olen = (storeStr str s).olen) (hbp : bitpos t = bitpos s + s.cw.toNat) (hf : t.first = false)
    (hw : legalCw s.mcs t.cw) (hnl : clearCode s.mcs + 2 ≤ t.next.toNat)
    (hnf : t.next.toNat < 2 ^ t.cw.toNat ∨ (t.cw.toNat = maxCw ∧ t.next.toNat = dictSize))
    (htab : TableInv t) (hprev : t.prev.toNat < clearCode s.mcs ∨ clearCode s.mcs + 2 ≤ t.prev.toNat ∧ t.prev.toNat < t.next.toNat) :
    RunInv t := by
  have hc := h.config
  unfold overflows at ho
  unfold inputExhausted at he
  refine ⟨?_, by rw [hmcs]; exact hw, by rw [hmcs]; exact hnl, hnf, ?_, ?_, by simp [hf], ?_, htab⟩
  · unfold configOk at *; rw [hcfg, hmcs, hil, hoc]; exact hc
  · rw [hbp, hil]; omega
  · rw [hol, storeStr_olen_toNat (by unfold overflows; omega), hoc]; omega
  · intro _
    rw [hmcs]; unfold eoiCode
    rcases hprev with hp | ⟨hp, hq⟩
    · refine ⟨?_, by omega, by omega, by omega⟩
      rw [htab.literals _ (by rw [hmcs]; exact hp)]; rfl
    · exact ⟨htab.learned _ (by rw [hmcs]; exact hp) hq, hq, by omega, by omega⟩

/-- A CLR keeps the run's invariant (`41_dictionary.md` R144). -/
theorem RunInv.clr {s t : State} (h : RunInv s) (he : ¬ inputExhausted s) (ht : exec .clr s = .next t) : RunInv t := by
  injection ht with ht; subst ht
  have hm := h.config.1
  have hc := clearCode_bounds hm
  have hn : (BitVec.ofNat 13 (clearCode s.mcs + 2)).toNat = clearCode s.mcs + 2 := initialNext_toNat hm
  have hw : (BitVec.ofNat 4 (s.mcs.toNat + 1)).toNat = s.mcs.toNat + 1 := initialWidth_toNat hm
  refine ⟨h.config, ?_, ?_, ?_, ?_, h.capacity, fun _ => ⟨hn, hw⟩, fun hf => (by cases hf), ?_⟩
  · show legalCw s.mcs (BitVec.ofNat 4 (s.mcs.toNat + 1))
    unfold legalCw maxCw; rw [hw]; have := hm.2; omega
  · show clearCode s.mcs + 2 ≤ (BitVec.ofNat 13 (clearCode s.mcs + 2)).toNat
    omega
  · left
    show (BitVec.ofNat 13 (clearCode s.mcs + 2)).toNat < 2 ^ (BitVec.ofNat 4 (s.mcs.toNat + 1)).toNat
    rw [hn, hw]; exact clearCode_lt_width hm
  · rw [bitpos_advance_step (s' := { clearTable s with first := true }) he rfl rfl]
    show _ ≤ 8 * s.ilen.toNat
    unfold inputExhausted at he; omega
  · suffices TableInv (clearTable s) from this.congr rfl rfl rfl
    constructor
    · intro i hi; rw [clearTable_mcs] at hi; rw [lookup_clearTable, if_pos hi]; exact h.table.literals i hi
    · rw [lookup_clearTable, lookup_clearTable, clearTable_mcs, if_neg (by omega), if_neg (by unfold eoiCode; omega)]; exact ⟨rfl, rfl⟩
    · intro i hi h2; rw [clearTable_next, hn] at h2; rw [clearTable_mcs] at hi; omega
    · intro i hi; rw [clearTable_next, hn] at hi; rw [lookup_clearTable, if_neg (by omega)]
    · intro i str hs; rw [lookup_clearTable] at hs; split at hs
      · exact h.table.alphabet i str hs
      · cases hs
    · intro i str hi hs; rw [clearTable_mcs] at hi; rw [lookup_clearTable, if_neg (by omega)] at hs; cases hs

/-- A known code keeps the run's invariant (`43_data_codes.md` R171). -/
theorem RunInv.known {s t : State} (h : RunInv s) (he : ¬ inputExhausted s) (hf : s.first = false) {str : ByteStr} {c : Code}
    (hb : ∀ b ∈ strBytes str, b.toNat < clearCode s.mcs)
    (hc : c.toNat < clearCode s.mcs ∨ clearCode s.mcs + 2 ≤ c.toNat ∧ c.toNat < s.next.toNat)
    (ht : execKnown str c s = .next t) (hrun : t.state = .run) : RunInv t := by
  rcases execKnown_cases ht with ⟨-, rfl⟩ | ⟨ho, hroom, p, hp, rfl⟩ | ⟨ho, hroom, rfl⟩
  · cases hrun
  · obtain ⟨e1, e2⟩ := h.entry hf hp (hb _ (firstByte_mem str))
    obtain ⟨w1, w2⟩ := width_after_append hroom (strSnoc p (firstByte str)) h.width h.nextFits
    have hnx := append_next_toNat (strSnoc p (firstByte str)) hroom
    have htab := h.table.append hroom h.nextLow e1 e2
    have hnl := h.nextLow
    have hnx2 : (finishCode c s.cw.toNat (append (strSnoc p (firstByte str)) (storeStr str s))).next.toNat = s.next.toNat + 1 := hnx
    refine RunInv.ofEmit h he ho rfl rfl rfl rfl rfl (bitpos_advance_step he rfl rfl) hf w1 (by omega) w2 (htab.congr rfl rfl rfl) ?_
    rw [hnx2]; rcases hc with hc | hc
    · exact .inl hc
    · exact .inr ⟨hc.1, by have := hc.2; show c.toNat < _; omega⟩
  · exact RunInv.ofEmit h he ho rfl rfl rfl rfl rfl (bitpos_advance_step he rfl rfl) hf h.width h.nextLow h.nextFits (h.table.congr rfl rfl rfl) hc

/-- An engine step that stays in RUN keeps the run's invariant. -/
theorem RunInv.engine {s t : State} (h : RunInv s) (hr : s.state = .run) (ht : engineTurn s = .next t) (hrun : t.state = .run) :
    RunInv t := by
  rcases engineTurn_cases ht with ⟨hn, -⟩ | ⟨-, -, rfl⟩ | ⟨-, he, bytes, i, hw, hd, hx⟩
  · exact absurd hr hn
  · cases hrun
  · have hm := h.config.1
    have hcc := clearCode_bounds hm
    have hnl := h.nextLow
    obtain ⟨c, hcv, hcw, ⟨rfl, h1⟩ | ⟨rfl, h1⟩ | ⟨rfl, h1⟩ | ⟨rfl, h1⟩ | ⟨rfl, hf, h1, h2⟩ | ⟨rfl, hf, h1, h2⟩⟩ := decode_ok_cases hd
    · exact h.clr he hx
    · injection hx with hx; subst hx; cases hrun
    · cases hf : s.first
      · exact h.known he hf (literalStr_alphabet hm h1) (.inl h1) ((execLit_known hf).symm.trans hx) hrun
      · rcases execLit_first_cases hf hx with ⟨-, rfl⟩ | ⟨ho, rfl⟩
        · cases hrun
        · exact RunInv.ofEmit h he ho rfl rfl rfl rfl rfl (bitpos_advance_step he rfl rfl) rfl h.width h.nextLow h.nextFits (h.table.congr rfl rfl rfl) (.inl h1)
    · injection hx with hx; subst hx; cases hrun
    · obtain ⟨str, hs, hk⟩ := execRef_cases hx
      exact h.known he hf (h.table.alphabet _ _ hs) (.inr ⟨h1, h2⟩) hk hrun
    · obtain ⟨p, hp, ⟨ho, rfl⟩ | ⟨ho, rfl⟩⟩ := execKwk_cases hx
      · cases hrun
      · have hroom : hasRoom s := by have := c.isLt; unfold hasRoom dictSize; omega
        rw [appendIfRoom_of_room _ (show hasRoom (storeStr (kwkStr p) s) from hroom)]
        obtain ⟨e1, e2⟩ := h.entry hf hp (h.table.alphabet _ _ hp _ (firstByte_mem p))
        obtain ⟨w1, w2⟩ := width_after_append hroom (kwkStr p) h.width h.nextFits
        have hnx := append_next_toNat (kwkStr p) hroom
        have htab := h.table.append hroom h.nextLow e1 e2
        have hnx2 : (finishCode c s.cw.toNat (append (kwkStr p) (storeStr (kwkStr p) s))).next.toNat = s.next.toNat + 1 := hnx
        refine RunInv.ofEmit h he ho rfl rfl rfl rfl rfl (bitpos_advance_step he rfl rfl) hf w1 (by omega) w2 (htab.congr rfl rfl rfl) ?_
        rw [hnx2]; exact .inr ⟨h1, by show c.toNat < _; omega⟩

/-- START establishes the run's invariant, whatever the state was before (`44_host_commands.md` R191). -/
theorem RunInv.start {s : State} (h : configOk s) (r : ErrCode) (v : Code) (st : RunState):
    RunInv { initRun s with errcode := r, errval := v, state := st } := by
  have hm := h.1
  have hc := clearCode_bounds hm
  have hn : (BitVec.ofNat 13 (clearCode s.mcs + 2)).toNat = clearCode s.mcs + 2 := initialNext_toNat hm
  have hw : (BitVec.ofNat 4 (s.mcs.toNat + 1)).toNat = s.mcs.toNat + 1 := initialWidth_toNat hm
  refine ⟨h, ?_, ?_, ?_, by simp [bitpos], by simp, fun _ => ⟨hn, hw⟩, fun hf => (by cases hf), ?_⟩
  · show legalCw s.mcs (BitVec.ofNat 4 (s.mcs.toNat + 1))
    unfold legalCw maxCw; rw [hw]; have := hm.2; omega
  · show clearCode s.mcs + 2 ≤ (BitVec.ofNat 13 (clearCode s.mcs + 2)).toNat
    omega
  · left
    show (BitVec.ofNat 13 (clearCode s.mcs + 2)).toNat < 2 ^ (BitVec.ofNat 4 (s.mcs.toNat + 1)).toNat
    rw [hn, hw]; exact clearCode_lt_width hm
  · suffices TableInv (initTable s) from this.congr rfl rfl rfl
    constructor
    · intro i hi; rw [initTable_mcs] at hi; rw [lookup_initTable, if_pos hi]
    · rw [lookup_initTable, lookup_initTable, initTable_mcs, if_neg (by omega), if_neg (by unfold eoiCode; omega)]; exact ⟨rfl, rfl⟩
    · intro i hi h2; rw [initTable_next, hn] at h2; rw [initTable_mcs] at hi; omega
    · intro i hi; rw [initTable_next, hn] at hi; rw [lookup_initTable, if_neg (by omega)]
    · intro i str hs; rw [lookup_initTable] at hs; split at hs
      · rename_i hi
        injection hs with hs; subst hs; intro b hb
        simp at hb; subst hb; simp; omega
      · cases hs
    · intro i str hi hs; rw [initTable_mcs] at hi; rw [lookup_initTable, if_neg (by omega)] at hs; cases hs

/-- The run's invariant does not read the outside world. -/
theorem RunInv.congrHost {s t : State} (h : RunInv s) (ht : t = { s with host := t.host }) : RunInv t := by
  rw [ht]; exact ⟨h.config, h.width, h.nextLow, h.nextFits, h.cursor, h.capacity, h.firstPosition, h.previous, h.table.congr rfl rfl rfl⟩

/-! ### The machine's invariant -/

/-- A fault entry keeps the invariant (`60_exceptions.md` R220). -/
theorem Inv.raise {s : State} (h : Inv s) {e : ErrCode} {v : Code} (he : e ≠ .none) (hv : e ≠ .code → e ≠ .ovf → v = 0) :
    Inv (raise e v s) :=
  ⟨h.canonical, h.ibufInside, h.obufInside, h.dictInside, h.output, ⟨fun h2 => absurd h2 he, fun h2 => absurd rfl h2⟩, hv, h.nextHigh,
   fun h2 => (by cases h2), fun h2 => (by cases h2)⟩

/-- No fault is recorded during a run (`10_state.md` R25). -/
theorem Inv.errNone {s : State} (h : Inv s) (hr : s.state = .run) : s.errcode = .none := h.errcode.mpr (by simp [hr])

/-- The output memory after an emission that fits. -/
theorem Inv.emitted {s : State} (h : Inv s) (hr : s.state = .run) {str : ByteStr} (ho : ¬ overflows str s) :
    (storeStr str s).obuf.wf ∧ (∀ a, (Memory.read (storeStr str s).obuf a).isSome → a < s.cfg.obufSize.val) ∧
    (storeStr str s).olen.toNat ≤ s.cfg.obufSize.val ∧ ∀ a, a < (storeStr str s).olen.toNat → (Memory.read (storeStr str s).obuf a).isSome := by
  have hc := (h.running hr).config.2.2
  have hlen := storeStr_olen_toNat ho
  unfold overflows at ho
  refine ⟨Memory.writeList_wf h.canonical.2.1 _ _, fun a ha => ?_, by omega, fun a ha => ?_⟩
  · rw [read_storeStr] at ha; split at ha
    · omega
    · exact h.obufInside a ha
  · rw [read_storeStr]; split
    · rename_i hx; simp; omega
    · exact h.output.2 a (by omega)

/-- The table memory after an append. -/
theorem Inv.appended {s : State} (h : Inv s) (hroom : hasRoom s) (e : ByteStr) :
    (append e s).dict.wf ∧ (∀ i, (lookup i (append e s)).isSome → i < dictSize) ∧ (append e s).next.toNat ≤ dictSize := by
  have hnx := append_next_toNat e hroom
  have hr : s.next.toNat < 4096 := hroom
  refine ⟨Memory.write_wf h.canonical.2.2 _ _, fun i hi => ?_, by unfold dictSize; omega⟩
  rw [lookup_append] at hi; split at hi
  · unfold dictSize; omega
  · exact h.dictInside i hi

/-- The invariant does not read the outside world. -/
theorem Inv.congrHost {s t : State} (h : Inv s) (ht : t = { s with host := t.host }) : Inv t := by
  have hrun : t.state = .run → RunInv t := fun hr => (h.running (by rw [ht] at hr; exact hr)).congrHost ht
  rw [ht] at hrun ⊢
  exact ⟨h.canonical, h.ibufInside, h.obufInside, h.dictInside, h.output, h.errcode, h.errval, h.nextHigh, h.idle, hrun⟩

/-! ### Progress -/

/-- A known code always completes where DICT[PREV] is defined. -/
theorem execKnown_next {str : ByteStr} {c : Code} {s : State} (h : lookup s.prev.toNat s ≠ none) : ∃ t, execKnown str c s = .next t := by
  unfold execKnown emitThen
  split
  · exact ⟨_, rfl⟩
  · show ∃ t, (if hasRoom (storeStr str s) then _ else _) = _
    split
    · cases hp : lookup s.prev.toNat s with
      | none => exact absurd hp h
      | some p => rw [show lookup (storeStr str s).prev.toNat (storeStr str s) = some p from hp]; exact ⟨_, rfl⟩
    · exact ⟨_, rfl⟩

/-- Every code decode_ok_cases in a run completes. -/
theorem exec_next {s : State} (h : RunInv s) {bytes : List Byte} {i : Instr}
    (hd : decode (codeCtx s) bytes s.ibit.toNat = .ok i) : ∃ t, exec i s = .next t := by
  obtain ⟨c, hcv, -, ⟨rfl, h1⟩ | ⟨rfl, h1⟩ | ⟨rfl, h1⟩ | ⟨rfl, h1, h2⟩ | ⟨rfl, hf, h1, h2⟩ | ⟨rfl, hf, h1, h2⟩⟩ := decode_ok_cases hd
  · exact ⟨_, rfl⟩
  · exact ⟨_, rfl⟩
  · show ∃ t, execLit c s = _
    cases hf : s.first
    · rw [execLit_known hf]
      exact execKnown_next (Option.isSome_iff_ne_none.mp (h.previous hf).1)
    · unfold execLit emitThen; rw [if_pos hf]; split <;> exact ⟨_, rfl⟩
  · exact ⟨_, rfl⟩
  · show ∃ t, execRef c s = _
    obtain ⟨str, hs⟩ := Option.isSome_iff_exists.mp (h.table.learned _ h1 h2)
    rw [execRef_known hs]
    exact execKnown_next (Option.isSome_iff_ne_none.mp (h.previous hf).1)
  · show ∃ t, execKwk c s = _
    obtain ⟨p, hp⟩ := Option.isSome_iff_exists.mp (h.previous hf).1
    unfold execKwk emitThen; rw [hp]; simp only; split <;> exact ⟨_, rfl⟩

/-- The bytes of an available code were written (`20_memory.md` R73). -/
theorem fetch_some {s : State} (h : RunInv s) (he : ¬ inputExhausted s) (hw : inputWritten s) : ∃ bytes, fetchWindow s = some bytes := by
  apply Option.isSome_iff_exists.mp
  rw [fetchWindow, Memory.readList_isSome]
  intro j hj
  apply hw
  have h3 : 3 ≤ s.cw.toNat := by have := h.width.1; have := h.config.1.1; omega
  unfold inputExhausted bitpos at he
  unfold windowLen at hj
  omega

/-- In a run every fetched window decodes. -/
theorem decode_some {s : State} (h : RunInv s) {bytes : List Byte} (hb : fetchWindow s = some bytes) : ∃ i, decode (codeCtx s) bytes s.ibit.toNat = .ok i := by
  refine ⟨_, decode_eq_ok.mpr ⟨⟨h.config.1, h.width⟩, ?_, rfl⟩⟩
  obtain ⟨hl, -⟩ := (Memory.readList_eq_some _ _ _ _).mp hb
  rw [hl]; unfold windowLen; show _ + s.cw.toNat ≤ _; omega

/-- In a run whose input was written the engine's turn always completes. -/
theorem engineTurn_next {s : State} (h : RunInv s) (hr : s.state = .run) (hw : inputWritten s) : ∃ t, engineTurn s = .next t := by
  by_cases he : inputExhausted s
  · exact ⟨raise .trunc 0 s, by simp only [engineTurn, if_pos hr, fetchAndExec, if_pos he]⟩
  · obtain ⟨bytes, hb⟩ := fetch_some h he hw
    obtain ⟨i, hd⟩ := decode_some h hb
    rw [engineTurn_run hr he hb hd]
    exact exec_next h hd

/-! ### Steps of the whole machine -/

/-- Where the engine has the turn, the step is its turn, with the wait taken off the script (log 2). -/
theorem step_engineTurn {s t : State} (h : engineTurnNext s) (ht : step s = .next t) :
    ∃ s', s' = { s with host := { s.host with script := s.host.script.tail } } ∧ engineTurn s' = .next t := by
  rcases h with h | ⟨rest, h⟩
  · rw [step_of_silent h] at ht
    refine ⟨s, ?_, ht⟩
    rw [h]
    show s = { s with host := { s.host with script := [] } }
    rw [← h]
  · refine ⟨_, rfl, ?_⟩
    rw [h]
    unfold step takeTurn at ht; rw [h] at ht
    unfold popMove at ht; rw [h] at ht
    exact ht

/-- A register write leaves the memories, STATE and the cursor alone (`44_host_commands.md` R197). -/
theorem writeReg_frame (n : Nat) (v : Word) (s : State) : (writeReg n v s).state = s.state ∧ (writeReg n v s).cfg = s.cfg ∧ (writeReg n v s).ibuf = s.ibuf ∧
   (writeReg n v s).obuf = s.obuf ∧ (writeReg n v s).dict = s.dict ∧ bitpos (writeReg n v s) = bitpos s ∧
   (s.state = .run → writeReg n v s = s) := by
  rcases writeReg_cases n v s with e | ⟨hr, ⟨-, e⟩ | ⟨-, e⟩ | ⟨-, e⟩⟩ <;> rw [e]
  · exact ⟨rfl, rfl, rfl, rfl, rfl, rfl, fun _ => rfl⟩
  all_goals exact ⟨rfl, rfl, rfl, rfl, rfl, rfl, fun h => absurd h hr⟩

/-- A run of one more step. -/
theorem run_succ (n : Nat) (s t : State) (h : step s = .next t) : core.run (n+1) s = core.run n t := by
  have h' : core.step s = .next t := h
  simp only [Host.Core.run, h']

/-- A silent machine outside RUN stays as it is. -/
theorem run_stopped (n : Nat) {s : State} (hs : hostSilent s) (hr : s.state ≠ .run) : core.run n s = .next s := by
  induction n with
  | zero => rfl
  | succ n ih =>
    rw [run_succ n s s (by rw [step_of_silent hs]; simp [engineTurn, hr])]; exact ih

end Sys2Proof.Machine
end

