-- ==== Sys2Proof/Laws/Encoder.lean ====
section
/-! SUPPORT. The code widths of an encoder, and the run that follows an encoded stream code by code (`43_data_codes.md` R184). -/

namespace Sys2Proof.Machine

set_option autoImplicit false

/-- Every slot number has a code width. -/
theorem width_exists {m : BitVec 8} (hm : legalMcs m) (n : Nat) : ∃ w, IsCodeWidth m n w := by
  classical
  have hex : ∃ w, m.toNat + 1 ≤ w ∧ (n < 2 ^ w ∨ w = 12) := ⟨12, by have := hm.2; omega, .inr rfl⟩
  have h1 := Nat.find_spec hex
  refine ⟨Nat.find hex, h1.1, Nat.find_le ⟨by have := hm.2; omega, .inr rfl⟩, h1.2, fun v hv hlt => ?_⟩
  have := Nat.find_min hex hlt
  by_contra hc
  exact this ⟨hv, .inl (by omega)⟩

/-- It has only one. -/
theorem width_unique {m : BitVec 8} {n w v : Nat} (h : IsCodeWidth m n w) (h' : IsCodeWidth m n v) : w = v := by
  obtain ⟨a1, a2, a3, a4⟩ := h
  obtain ⟨b1, b2, b3, b4⟩ := h'
  rcases Nat.lt_trichotomy w v with hlt | he | hlt
  · have := b4 w a1 hlt; omega
  · exact he
  · have := a4 v b1 hlt; omega

/-- The width after a growth is the decoder's (`41_dictionary.md` R149). -/
theorem width_grow {m : BitVec 8} {n w : Nat} (h : IsCodeWidth m n w) (hn : n < 2 ^ w) :
    IsCodeWidth m (n + 1) (if n + 1 = 2 ^ w ∧ w < 12 then w + 1 else w) := by
  obtain ⟨a1, a2, a3, a4⟩ := h
  split
  · rename_i hx
    refine ⟨by omega, by omega, .inl ?_, fun v hv hlt => ?_⟩
    · rw [Nat.pow_succ]; omega
    · have : 2 ^ v ≤ 2 ^ w := Nat.pow_le_pow_right (by omega) (by omega)
      omega
  · rename_i hx
    refine ⟨a1, a2, by omega, fun v hv hlt => ?_⟩
    have := a4 v hv hlt; omega

/-- The input begins with the packed codes. -/
structure Feed (all : List (Nat × Nat)) (s : State) : Prop where
  len : (pack all).length ≤ s.ilen.toNat
  bytes : ∀ a, a < (pack all).length → Memory.read s.ibuf a = (pack all)[a]?

/-- The fetch reads the code the cursor has come to. -/
theorem Feed.fetch {before after : List (Nat × Nat)} {c w : Nat} {s : State} (hF : Feed (before ++ (c, w) :: after) s) (h : RunInv s)
    (hp : bitpos s = streamWidth before) (hw : s.cw.toNat = w) (hc : c < 2 ^ w) :
    ¬ inputExhausted s ∧ ∃ bytes, fetchWindow s = some bytes ∧ assemble bytes s.ibit.toNat s.cw.toNat = c := by
  have hl := pack_length (before ++ (c, w) :: after)
  rw [streamWidth_append, streamWidth] at hl
  have h3 : 3 ≤ s.cw.toNat := by have := h.width.1; have := h.config.1.1; omega
  have hlen := hF.len
  have hib := s.ibit.isLt
  have hfit : bitpos s + s.cw.toNat ≤ 8 * (pack (before ++ (c, w) :: after)).length := by omega
  refine ⟨by unfold inputExhausted; omega, ?_⟩
  have hsome : (fetchWindow s).isSome := by
    rw [fetchWindow, Memory.readList_isSome]
    intro j hj
    unfold windowLen at hj; unfold bitpos at hfit
    have : s.iptr.toNat + j < (pack (before ++ (c, w) :: after)).length := by omega
    rw [hF.bytes _ this]; simp; exact this
  obtain ⟨bytes, hb⟩ := Option.isSome_iff_exists.mp hsome
  refine ⟨bytes, hb, ?_⟩
  obtain ⟨hbl, hj⟩ := (Memory.readList_eq_some _ _ _ _).mp hb
  have := assemble_pack before after c w
  rw [Nat.mod_eq_of_lt hc, ← hp, ← hw] at this
  rw [← this, hw]
  subst hw
  apply assemble_congr
  intro i hi
  unfold windowLen at hbl hj
  unfold bitpos at hfit ⊢
  unfold streamBit
  rw [show (8 * s.iptr.toNat + s.ibit.toNat + i) / 8 = s.iptr.toNat + (s.ibit.toNat + i) / 8 by omega,
    show (8 * s.iptr.toNat + s.ibit.toNat + i) % 8 = (s.ibit.toNat + i) % 8 by omega]
  rw [List.getD_eq_getElem?_getD, List.getD_eq_getElem?_getD, ← hj _ (by omega), hF.bytes _ (by omega)]

/-- A run that has executed the codes `before` holds what the encoder held when it wrote the next one. -/
structure Sim (all before : List (Nat × Nat)) (prev : Option ByteStr) (learned : List ByteStr) (s : State) : Prop where
  inv : RunInv s
  run : s.state = .run
  silent : hostSilent s
  feed : Feed all s
  pos : bitpos s = streamWidth before
  next : s.next.toNat = 2 ^ s.mcs.toNat + 2 + learned.length
  width : IsCodeWidth s.mcs s.next.toNat s.cw.toNat
  prevNone : prev = none → s.first = true
  prevSome : ∀ p, prev = some p → s.first = false ∧ lookup s.prev.toNat s = some p
  learned : ∀ i, learned[i]? = lookup (2 ^ s.mcs.toNat + 2 + i) s

/-- The next step executes the next code. -/
theorem Sim.step {before after : List (Nat × Nat)} {c w : Nat} {prev : Option ByteStr} {learned : List ByteStr} {s : State}
    (h : Sim (before ++ (c, w) :: after) before prev learned s) (hw : IsCodeWidth s.mcs (2 ^ s.mcs.toNat + 2 + learned.length) w)
    (hc : c ≤ s.next.toNat) (hc2 : c < 4096) : s.cw.toNat = w ∧ ¬ inputExhausted s ∧ ∃ bytes, fetchWindow s = some bytes ∧ 
     assemble bytes s.ibit.toNat s.cw.toNat = c ∧ ∃ i, decode (codeCtx s) bytes s.ibit.toNat = .ok i ∧ step s = exec i s ∧ ∃ t, exec i s = .next t := by
  have e : s.cw.toNat = w := width_unique h.width (h.next ▸ hw)
  have hlt : c < 2 ^ w := by
    rcases hw.2.2.1 with h1 | h1
    · rw [h.next] at hc; omega
    · rw [h1]; omega
  obtain ⟨he, bytes, hb, hv⟩ := h.feed.fetch h.inv h.pos e hlt
  obtain ⟨i, hd⟩ := decode_some h.inv hb
  exact ⟨e, he, bytes, hb, hv, i, hd, by rw [step_of_silent h.silent]; exact engineTurn_run h.run he hb hd, exec_next h.inv hd⟩

/-- What a step must leave for the run to follow the stream further. -/
theorem Sim.emit {all before : List (Nat × Nat)} {prev : Option ByteStr} {learned learned' : List ByteStr} {s t : State} {str : ByteStr} {c : Code} {w : Nat}
    (h : Sim all before prev learned s) (hcw : s.cw.toNat = w) (he : ¬ inputExhausted s) (hinv : RunInv t) (hr : t.state = .run)
    (hhost : t.host = s.host) (hib : t.ibuf = s.ibuf) (hil : t.ilen = s.ilen) (hm : t.mcs = s.mcs)
    (hi : t.iptr = (advance s.cw.toNat s).iptr) (hi2 : t.ibit = (advance s.cw.toNat s).ibit)
    (hf : t.first = false) (hp : lookup t.prev.toNat t = some str)
    (hl : (learned' = learned ∧ t.dict = s.dict ∧ t.next = s.next ∧ t.cw = s.cw) ∨
      ∃ e, s.next.toNat < 4096 ∧ learned' = learned ++ [e] ∧ Learned e s t) :
    Sim all (before ++ [(c.toNat, w)]) (some str) learned' t := by
  have hpos : bitpos t = bitpos s + s.cw.toNat := by
    rw [← bitpos_advance_available he]; unfold bitpos; rw [hi, hi2]
  refine ⟨hinv, hr, by unfold hostSilent; rw [hhost]; exact h.silent, ⟨by rw [hil]; exact h.feed.len, by rw [hib]; exact h.feed.bytes⟩, ?_, ?_, ?_, (fun hn => by cases hn), ?_, ?_⟩
  · rw [streamWidth_snoc, hpos, h.pos, hcw]
  · rcases hl with ⟨rfl, -, e, -⟩ | ⟨e, -, rfl, hL⟩
    · rw [e, hm]; exact h.next
    · rw [hL.1, hm, h.next]; simp; omega
  · rcases hl with ⟨rfl, -, e, e2⟩ | ⟨e, hroom, rfl, hL⟩
    · rw [e, hm, e2]; exact h.width
    · rw [hm, hL.1, hL.2.2]
      refine width_grow h.width ?_
      rcases h.width.2.2.1 with h1 | h1
      · exact h1
      · rw [h1]; omega
  · intro p hps; cases hps; exact ⟨hf, hp⟩
  · intro i
    rcases hl with ⟨rfl, e, -, -⟩ | ⟨e, -, rfl, hL⟩
    · rw [h.learned, hm]; exact lookup_congr e.symm _
    · rw [hL.2.1, hm, h.next]
      have hi := h.learned i
      by_cases h1 : i = learned.length
      · subst h1; simp
      · rw [if_neg (by omega), ← hi]
        rw [List.getElem?_append]
        split
        · rfl
        · rw [List.getElem?_eq_none (by simp; omega), List.getElem?_eq_none (by omega)]

end Sys2Proof.Machine
end

