-- ==== Sys2Proof/Laws/PerInstr.lean ====
section
/-! SUPPORT. One fact of every instruction as syntax: the code of a well-formed instruction fits the width it is written in
(`30_encoding.md` R92, `c < 2^w <= 4096`). -/

namespace Sys2Proof.Laws.CodeFitsItsWidth

open Sys2Proof.Machine

/-- Wherever an instruction is well formed and is a code, the code is written in CW bits, fits them, and is below 4096. -/
def Statement (i : Instr) : Prop :=
  ∀ (x : CodeCtx) (c w : Nat), i.wf x = true → encode x i = .code c w →
    w = x.cw.toNat ∧ c < 2 ^ w ∧ 2 ^ w ≤ dictSize

theorem width_le {x : CodeCtx} (h : x.legal) : 2 ^ x.cw.toNat ≤ dictSize :=
  Nat.pow_le_pow_right (n := 2) (by omega) h.2.2

/-- Both control codes fit every legal width (`41_dictionary.md` R140). -/
theorem control_fits {x : CodeCtx} (h : x.legal) : clearCode x.mcs + 1 < 2 ^ x.cw.toNat := by
  have h1 := clearCode_lt_width h.1
  have h2 : 2 ^ (x.mcs.toNat + 1) ≤ 2 ^ x.cw.toNat := Nat.pow_le_pow_right (by omega) h.2.1
  omega

theorem clr : Statement .clr := by
  intro x c w hw he
  have hx : x.legal := of_decide_eq_true hw
  obtain ⟨rfl, rfl⟩ : 2 ^ x.mcs.toNat = c ∧ x.cw.toNat = w := by simpa [encode] using he
  have hfit : 2 ^ x.mcs.toNat + 1 < 2 ^ x.cw.toNat := control_fits hx
  exact ⟨rfl, by omega, width_le hx⟩

theorem eoi : Statement .eoi := by
  intro x c w hw he
  have hx : x.legal := of_decide_eq_true hw
  obtain ⟨rfl, rfl⟩ : 2 ^ x.mcs.toNat + 1 = c ∧ x.cw.toNat = w := by simpa [encode] using he
  exact ⟨rfl, control_fits hx, width_le hx⟩

theorem lit (k : Code) : Statement (.lit k) := by
  intro x c w hw he
  obtain ⟨hx, hc, -⟩ : x.legal ∧ k.toNat < 2 ^ x.cw.toNat ∧ _ := of_decide_eq_true hw
  obtain ⟨rfl, rfl⟩ : k.toNat = c ∧ x.cw.toNat = w := by simpa [encode] using he
  exact ⟨rfl, hc, width_le hx⟩

theorem ref (k : Code) : Statement (.ref k) := by
  intro x c w hw he
  obtain ⟨hx, hc, -⟩ : x.legal ∧ k.toNat < 2 ^ x.cw.toNat ∧ _ := of_decide_eq_true hw
  obtain ⟨rfl, rfl⟩ : k.toNat = c ∧ x.cw.toNat = w := by simpa [encode] using he
  exact ⟨rfl, hc, width_le hx⟩

theorem kwk (k : Code) : Statement (.kwk k) := by
  intro x c w hw he
  obtain ⟨hx, hc, -⟩ : x.legal ∧ k.toNat < 2 ^ x.cw.toNat ∧ _ := of_decide_eq_true hw
  obtain ⟨rfl, rfl⟩ : k.toNat = c ∧ x.cw.toNat = w := by simpa [encode] using he
  exact ⟨rfl, hc, width_le hx⟩

theorem bad (k : Code) : Statement (.bad k) := by
  intro x c w hw he
  obtain ⟨hx, hc, -⟩ : x.legal ∧ k.toNat < 2 ^ x.cw.toNat ∧ _ := of_decide_eq_true hw
  obtain ⟨rfl, rfl⟩ : k.toNat = c ∧ x.cw.toNat = w := by simpa [encode] using he
  exact ⟨rfl, hc, width_le hx⟩

theorem start : Statement .start := by
  intro x c w _ he
  cases he

theorem reset : Statement .reset := by
  intro x c w _ he
  cases he

end Sys2Proof.Laws.CodeFitsItsWidth
end

