-- ==== Sys2Proof/Tests/Slice0.lean ====
section
/-! SUPPORT. The model's own tests. Every expected value is the spec's: the vectors T<n> and the programs P<n> of
`95_test_vectors.md`, or a table of the rule named. A test is one decoding, one operation or one step. After them, for every
statement with hypotheses, a theorem `witness_…` that meets them all. -/

namespace Sys2Proof.Tests

set_option autoImplicit false

open Sys2Proof Sys2Proof.Machine

/-! ### States -/

/-- What a field of the next state is, nothing where there is no next state. -/
def after {α : Type} (f : State → α) : Result → Option α
  | .next t => some (f t)
  | _ => none

/-- The numbers a line of the vectors gives: OLEN, BITPOS, CW, NEXT, PREV. -/
def line (t : State) : List Nat := [t.olen.toNat, bitpos t, t.cw.toNat, t.next.toNat, t.prev.toNat]

/-- Reset with `IBUF_SIZE = OBUF_SIZE = 65536`, as in the vectors T70 to T85. -/
def box : State := { State.reset with cfg := { ibufSize := 65536, obufSize := 65536 } }

/-- The machine with one move for the host to make. -/
def told (m : HostMove) (s : State) : State := { s with host := { s.host with script := [m] } }

/-- A run with MCS = 2: the input, the cursor, the width, what was learned and what was emitted. -/
def runAt (first : Bool) (cw : BitVec 4) (prev : Code) (iptr : Word) (ibit : BitVec 3) (input output : List Byte)
    (learned : List ByteStr) (cap : Word := 16) : State :=
  { box with
    state := .run, first := first, mcs := 2
    ilen := BitVec.ofNat 32 input.length, ocap := cap, olen := BitVec.ofNat 32 output.length
    iptr := iptr, ibit := ibit, cw := cw, next := BitVec.ofNat 13 (6 + learned.length), prev := prev
    ibuf := Memory.writeList [] 0 input, obuf := Memory.writeList [] 0 output
    dict := Memory.writeList (literalTable 4) 6 learned }

/-- P1 before its steps 1 to 6: CLR, LIT in first position, LIT, LIT, LIT, EOI. -/
def p1 : Nat → State
  | 1 => runAt true 3 0 0 0 [0x44, 0x34, 0x05] [] []
  | 2 => runAt true 3 0 0 3 [0x44, 0x34, 0x05] [] []
  | 3 => runAt false 3 0 0 6 [0x44, 0x34, 0x05] [0] []
  | 4 => runAt false 3 1 1 1 [0x44, 0x34, 0x05] [0, 1] [⟨0, [1]⟩]
  | 5 => runAt false 4 2 1 4 [0x44, 0x34, 0x05] [0, 1, 2] [⟨0, [1]⟩, ⟨1, [2]⟩]
  | _ => runAt false 4 3 2 0 [0x44, 0x34, 0x05] [0, 1, 2, 3] [⟨0, [1]⟩, ⟨1, [2]⟩, ⟨2, [3]⟩]

/-- P2 before step 4: REF 6. -/
def p2ref : State := runAt false 3 1 1 1 [0x44, 0x8C, 0x05] [0, 1] [⟨0, [1]⟩]

/-- P2 before step 5: KWK 8. -/
def p2kwk : State := runAt false 4 6 1 4 [0x44, 0x8C, 0x05] [0, 1, 0, 1] [⟨0, [1]⟩, ⟨1, [0]⟩]

/-- P3 before step 5: CLR read at the grown width 4. -/
def p3clr : State := runAt false 4 6 1 4 [0x44, 0x4C, 0x72, 0x01] [0, 1, 0, 1] [⟨0, [1]⟩, ⟨1, [0]⟩]

/-- T63 before its last step: KWK 8 with room for two bytes of its three. -/
def t63 : State := runAt false 4 6 1 4 [0x44, 0x8C, 0x05] [0, 1, 0, 1] [⟨0, [1]⟩, ⟨1, [0]⟩] 6

/-- P5 before step 5: the BAD code 10. -/
def p5bad : State := runAt false 4 2 1 4 [0x44, 0xA4, 0x05] [0, 1, 2] [⟨0, [1]⟩, ⟨1, [2]⟩]

/-- T55: BAD in first position at the start of the stream. -/
def t55 : State := runAt true 3 0 0 0 [0x06] [] []

/-- T12 at its end: two bits left, three needed. -/
def t12 : State := runAt false 3 0 0 6 [0x44] [0] []

/-- 4090 entries, each as short as can be. -/
def entries : List ByteStr := List.replicate 4090 ⟨0, [0]⟩

/-- A full table, with a REF of its last slot (as P4 step 4093) at the cursor. -/
def full : State := runAt false 12 0 0 0 [0xFF, 0x0F] [0] entries

/-- A host that has programmed MCS = 2, ILEN = 3, OCAP = 4 (T77). -/
def ready : State :=
  { box with mcs := 2, ilen := 3, ocap := 4, ibuf := Memory.writeList [] 0 [0x44, 0x34, 0x05] }

/-! ### Well-formedness: an ill-formed term for each check -/

theorem test_wf_accepts : (Instr.lit 3).wf ⟨2, 3, 6, true⟩ = true ∧ (Instr.ref 6).wf ⟨2, 3, 7, false⟩ = true ∧
    (Instr.kwk 7).wf ⟨2, 3, 7, false⟩ = true ∧ (Instr.bad 6).wf ⟨2, 3, 6, true⟩ = true := by decide

theorem test_wf_mcs : Instr.clr.wf ⟨1, 3, 6, true⟩ = false ∧ Instr.clr.wf ⟨9, 12, 6, true⟩ = false := by decide

theorem test_wf_width : Instr.eoi.wf ⟨3, 3, 10, true⟩ = false ∧ Instr.eoi.wf ⟨3, 13, 10, true⟩ = false := by decide

theorem test_wf_code_fits : (Instr.bad 8).wf ⟨2, 3, 6, true⟩ = false ∧ (Instr.ref 8).wf ⟨2, 3, 9, false⟩ = false ∧
    (Instr.kwk 8).wf ⟨2, 3, 8, false⟩ = false := by decide

theorem test_wf_lit_range : (Instr.lit 4).wf ⟨2, 3, 6, true⟩ = false := by decide

theorem test_wf_ref_range : (Instr.ref 5).wf ⟨2, 3, 7, false⟩ = false ∧ (Instr.ref 7).wf ⟨2, 3, 7, false⟩ = false := by
  decide

theorem test_wf_first_position : (Instr.ref 6).wf ⟨2, 3, 7, true⟩ = false ∧ (Instr.kwk 6).wf ⟨2, 3, 6, true⟩ = false := by
  decide

theorem test_wf_kwk_is_next : (Instr.kwk 7).wf ⟨2, 3, 6, false⟩ = false ∧ (Instr.kwk 5).wf ⟨2, 3, 5, false⟩ = false := by
  decide

theorem test_wf_bad_range : (Instr.bad 6).wf ⟨2, 3, 6, false⟩ = false ∧ (Instr.bad 5).wf ⟨2, 3, 4, false⟩ = false := by
  decide

/-! ### Decoding -/

/-- R126: the six fetches of a whole stream. -/
theorem test_decode_stream :
    decode ⟨2, 3, 6, true⟩ [0x44, 0x34, 0x05] 0 = .ok .clr ∧ decode ⟨2, 3, 6, true⟩ [0x44, 0x34, 0x05] 3 = .ok (.lit 0) ∧
    decode ⟨2, 3, 6, false⟩ [0x44, 0x34, 0x05] 6 = .ok (.lit 1) ∧ decode ⟨2, 3, 7, false⟩ [0x44, 0x34, 0x05] 9 = .ok (.lit 2) ∧
    decode ⟨2, 4, 8, false⟩ [0x44, 0x34, 0x05] 12 = .ok (.lit 3) ∧ decode ⟨2, 4, 9, false⟩ [0x44, 0x34, 0x05] 16 = .ok .eoi := by
  decide

/-- T1 to T4: a code ending at a byte boundary, one over two bytes, two over three. -/
theorem test_bit_order : assemble [0xA5] 5 3 = 5 ∧ assemble [0xA5, 0x01] 5 4 = 13 ∧ assemble [0x80, 0xFF, 0x07] 7 12 = 0xFFF ∧
    assemble [0x80, 0x00, 0x04] 7 12 = 0x801 := by decide

/-- P2 and T59: code 8 is KWK, code 6 REF; code 10 is KWK at its first place and REF at its second. -/
theorem test_decode_table_codes :
    decode ⟨2, 3, 7, false⟩ [0x44, 0x8C, 0x05] 9 = .ok (.ref 6) ∧ decode ⟨2, 4, 8, false⟩ [0x44, 0x8C, 0x05] 12 = .ok (.kwk 8) ∧
    decode ⟨3, 4, 10, false⟩ [0x78, 0x7A, 0xA0, 0x90] 8 = .ok (.kwk 10) ∧
    decode ⟨3, 4, 13, false⟩ [0x78, 0x7A, 0xA0, 0x90] 20 = .ok (.ref 10) := by decide

/-- T53, T54, T55: beyond NEXT, and equal to NEXT in first position. -/
theorem test_decode_bad : decode ⟨2, 3, 6, false⟩ [0xC4, 0x0B] 6 = .ok (.bad 7) ∧
    decode ⟨2, 4, 8, false⟩ [0x44, 0xA4, 0x05] 12 = .ok (.bad 10) ∧ decode ⟨2, 3, 6, true⟩ [0x06] 0 = .ok (.bad 6) := by decide

/-- T58: 9-bit codes across byte boundaries. -/
theorem test_decode_wide : decode ⟨8, 9, 258, true⟩ [0x00, 0x83, 0x08, 0x11, 0x18, 0x24, 0x20] 0 = .ok .clr ∧
    decode ⟨8, 9, 258, true⟩ [0x00, 0x83, 0x08, 0x11, 0x18, 0x24, 0x20] 9 = .ok (.lit 65) ∧
    decode ⟨8, 9, 260, false⟩ [0x00, 0x83, 0x08, 0x11, 0x18, 0x24, 0x20] 27 = .ok (.ref 258) ∧
    decode ⟨8, 9, 261, false⟩ [0x00, 0x83, 0x08, 0x11, 0x18, 0x24, 0x20] 45 = .ok .eoi := by decide

/-- R99, T81, T82: bit 1 wins, bits 31:2 are ignored. -/
theorem test_decode_ctrl : decodeCtrl 1 = .ok .start ∧ decodeCtrl 2 = .ok .reset ∧ decodeCtrl 3 = .ok .reset ∧
    decodeCtrl 0 = .error .noCommand ∧ decodeCtrl 4 = .error .noCommand ∧ decodeCtrl 0xFFFFFFFC = .error .noCommand ∧
    decodeCtrl 5 = .ok .start := by decide

/-- R9, R90, R120: no code outside the legal MCS and widths, none from too few bits. -/
theorem test_decode_refuses : decode ⟨1, 3, 6, true⟩ [0x44] 0 = .error .illegalMcs ∧
    decode ⟨2, 2, 6, true⟩ [0x44] 0 = .error .illegalWidth ∧ decode ⟨2, 13, 6, true⟩ [0x44, 0x34] 0 = .error .illegalWidth ∧
    decode ⟨2, 3, 6, true⟩ [0x44] 6 = .error .truncated := by decide

/-- S1, T58: a code list packed as the spec packs it. -/
theorem test_pack : pack [(4, 3), (0, 3), (1, 3), (2, 3), (3, 4), (5, 4)] = [0x44, 0x34, 0x05] ∧
    pack [(256, 9), (65, 9), (66, 9), (258, 9), (65, 9), (257, 9)] = [0x00, 0x83, 0x08, 0x11, 0x18, 0x24, 0x20] := by decide

/-- The rows of the opcode table, in the context of log 13: each word reads as its row. -/
theorem test_table_words : decodeTableWord 12 4 = some .clr ∧ decodeTableWord 12 5 = some .eoi ∧
    decodeTableWord 12 0 = some (.lit 0) ∧ decodeTableWord 12 6 = some (.ref 6) ∧ decodeTableWord 12 9 = some (.kwk 9) ∧
    decodeTableWord 12 10 = some (.bad 10) ∧ decodeTableWord 8 1 = some .start ∧ decodeTableWord 8 2 = some .reset ∧
    decodeTableWord 12 16 = none := by decide

/-! ### Shared operations -/

/-- T20, T21, T22, T23: the width grows when NEXT becomes `2^CW`, and not at 12. -/
theorem test_width_growth : grownWidth 8 3 = 4 ∧ grownWidth 7 3 = 3 ∧ grownWidth 4096 12 = 12 ∧ grownWidth 2048 11 = 12 := by
  decide

/-- T20: Append([1,2]) at NEXT = 7. -/
theorem test_append : (append ⟨1, [2]⟩ (p1 4)).next = 8 ∧ (append ⟨1, [2]⟩ (p1 4)).cw = 4 ∧
    lookup 7 (append ⟨1, [2]⟩ (p1 4)) = some ⟨1, [2]⟩ := by decide

/-- T26, T27, T28, with OCAP = 8: an emission that fits, one that fits exactly, one that does not. -/
theorem test_emit :
    (storeStr ⟨0, [1, 0]⟩ { box with olen := 2, ocap := 8 }).olen = 5 ∧
    (storeStr ⟨0, [1, 0]⟩ { box with olen := 2, ocap := 8 }).obuf = [(2, 0), (3, 1), (4, 0)] ∧
    ¬ overflows ⟨0, [1, 0]⟩ { box with olen := 5, ocap := 8 } ∧ overflows ⟨0, [1, 0]⟩ { box with olen := 6, ocap := 8 } := by
  decide

/-- T30: the table after ClearTable. -/
theorem test_clear_table : (clearTable p2kwk).dict = [(0, ⟨0, []⟩), (1, ⟨1, []⟩), (2, ⟨2, []⟩), (3, ⟨3, []⟩)] ∧
    (clearTable p2kwk).next = 6 ∧ (clearTable p2kwk).cw = 3 := by decide

/-- A write keeps addresses rising, replaces in place, and reads back. -/
theorem test_memory : Memory.write (Memory.write (Memory.write [] 3 7#8) 1 5#8) 3 9#8 = [(1, 5#8), (3, 9#8)] ∧
    Memory.read [(1, 5#8), (3, 9#8)] 3 = some 9#8 ∧ Memory.read [(1, 5#8), (3, 9#8)] 2 = none := by decide

/-! ### Instructions, one step each -/

/-- P1 step 1: a CLR in first position moves the cursor only. -/
theorem test_clr_first : after (fun t => (line t, t.first)) (step (p1 1)) = some ([0, 3, 3, 6, 0], true) := by decide

/-- P3 step 5: the CLR is read at width 4, frees 6 and 7, keeps PREV and the output. -/
theorem test_clr_frees : after (fun t => (line t, t.first, lookup 6 t)) (step p3clr) =
    some ([4, 16, 3, 6, 6], true, none) := by decide

/-- P1 step 6 and its end. -/
theorem test_eoi : after (fun t => (readReg 1 t, line t)) (step (p1 6)) = some (0x02, [4, 20, 4, 9, 3]) := by decide

/-- T43: EOI as the very first code. -/
theorem test_eoi_first : after (fun t => (readReg 1 t, line t)) (step (runAt true 3 0 0 0 [0x05] [] [])) =
    some (0x22, [0, 3, 3, 6, 0]) := by decide

/-- P1 step 2: a literal in first position teaches the table nothing. -/
theorem test_lit_first : after (fun t => (t.obuf, line t, t.first)) (step (p1 2)) = some ([(0, 0)], [1, 6, 3, 6, 0], false) := by decide

/-- P1 step 4: the append that makes NEXT = 8 and the width 4. -/
theorem test_lit : after (fun t => (t.obuf, line t, lookup 7 t)) (step (p1 4)) =
    some ([(0, 0), (1, 1), (2, 2)], [3, 12, 4, 8, 2], some ⟨1, [2]⟩) := by decide

/-- P2 step 4: the new entry is the old DICT[PREV] and the first byte of the string emitted. -/
theorem test_ref : after (fun t => (t.obuf, line t, lookup 7 t)) (step p2ref) =
    some ([(0, 0), (1, 1), (2, 0), (3, 1)], [4, 12, 4, 8, 6], some ⟨1, [0]⟩) := by decide

/-- P2 step 5: `V = P ++ [P[0]]`. -/
theorem test_kwk : after (fun t => (t.obuf.drop 4, line t, lookup 8 t)) (step p2kwk) =
    some ([(4, 0), (5, 1), (6, 0)], [7, 16, 4, 9, 8], some ⟨0, [1, 0]⟩) := by decide

/-- T63: three bytes do not fit where two do, and none is written. -/
theorem test_kwk_overflow : after (fun t => (readReg 1 t, t.errval, line t)) (step t63) =
    some (0x13, 8, [4, 12, 4, 8, 6]) := by decide

/-- P5 step 5 and T54. -/
theorem test_bad : after (fun t => (readReg 1 t, t.errval, line t)) (step p5bad) = some (0x0F, 10, [3, 12, 4, 8, 2]) := by decide

/-- T55: the code 6 = NEXT is BAD in first position. -/
theorem test_bad_first : after (fun t => (readReg 1 t, t.errval, line t)) (step t55) = some (0x2F, 6, [0, 0, 3, 6, 0]) := by decide

/-- T12: a partial code is not examined. -/
theorem test_truncated : after (fun t => (readReg 1 t, t.errval, line t)) (step t12) = some (0x0B, 0, [1, 6, 3, 6, 0]) := by decide

/-- T77: the registers after START. -/
theorem test_start : after (fun t => (List.range 12).map fun n => readReg n t) (step (told (.writeReg 0 1) ready)) =
    some [0, 0x21, 2, 3, 4, 0, 0, 0, 3, 6, 0, 0] := by decide

/-- T73: MCS = 9 is refused and nothing else changes. -/
theorem test_start_illegal : after (fun t => (List.range 12).map fun n => readReg n t) (step (told (.writeReg 0 1) { box with mcs := 9 })) =
    some [0, 0x07, 9, 0, 0, 0, 0, 0, 0, 0, 0, 0] := by decide

/-- T80, T84: every register 0, the memories kept. -/
theorem test_reset : after (fun t => ((List.range 12).map (fun n => readReg n t), t.ibuf == p5bad.ibuf, t.obuf == p5bad.obuf))
    (step (told (.writeReg 0 2) p5bad)) = some ([0, 0, 0, 0, 0, 0, 0, 0, 0, 0, 0, 0], true, true) := by decide

/-! ### Host moves -/

/-- T74: MCS keeps 8 bits; T83: a write during a run is ignored. -/
theorem test_write_mcs : after (fun t => t.mcs) (step (told (.writeReg 2 0x1FF) box)) = some 0xFF ∧
    after (fun t => t.mcs) (step (told (.writeReg 2 5) (p1 3))) = some 2 := by decide

/-- T70, R196: a read answers the register, register 12 and CTRL answer 0. -/
theorem test_read_registers : after (fun t => t.host.answers) (step (told (.readReg 9) (p1 6))) = some [.reg 9] ∧
    after (fun t => t.host.answers) (step (told (.readReg 12) (p1 6))) = some [.reg 0] ∧
    after (fun t => t.host.answers) (step (told (.readReg 0) (p1 6))) = some [.reg 0] := by decide

/-- R198: a byte written is read back; one past the size is refused. -/
theorem test_buffers : after (fun t => t.ibuf) (step (told (.writeIbuf 65535 0xA5) box)) = some [(65535, 0xA5)] ∧
    after (fun t => t.host.answers) (step (told (.readIbuf 1) ready)) = some [.byte 0x34] ∧
    after (fun t => t.ibuf) (step (told (.writeIbuf 65536 0) box)) = none := by decide

/-- R96: the static selectors of every legal MCS at the codes of the table's columns. -/
theorem test_static_selectors : ∀ m : Fin 7, classify ⟨BitVec.ofNat 8 (m.val + 2), 12, 4096, false⟩ (BitVec.ofNat 12 (2 ^ (m.val + 2))) = .clr ∧
    classify ⟨BitVec.ofNat 8 (m.val + 2), 12, 4096, false⟩ (BitVec.ofNat 12 (2 ^ (m.val + 2) + 1)) = .eoi ∧
    classify ⟨BitVec.ofNat 8 (m.val + 2), 12, 4096, false⟩ (BitVec.ofNat 12 (2 ^ (m.val + 2) - 1)) =
      .lit (BitVec.ofNat 12 (2 ^ (m.val + 2) - 1)) := by decide

/-! ### The states above meet the invariants -/

theorem lookup_runAt (first : Bool) (cw : BitVec 4) (prev : Code) (iptr : Word) (ibit : BitVec 3) (input output : List Byte)
    (learned : List ByteStr) (cap : Word) (i : Nat) :
    lookup i (runAt first cw prev iptr ibit input output learned cap) =
      if 6 ≤ i ∧ i < 6 + learned.length then learned[i - 6]?
      else if i < 4 then some (oneByte (BitVec.ofNat 8 i)) else none := by
  show Memory.read (Memory.writeList (literalTable 4) 6 learned) i = _
  rw [Memory.read_writeList, read_literalTable]

/-- A run state meets the invariants where its registers and what it learned are in their ranges. -/
theorem runAt_inv {first : Bool} {cw : BitVec 4} {prev : Code} {iptr : Word} {ibit : BitVec 3} {input output : List Byte}
    {learned : List ByteStr} {cap : Word}
    (hin : input.length ≤ 16) (hout : output.length ≤ cap.toNat) (hcap : cap.toNat ≤ 16) (hl : learned.length ≤ 4090)
    (hw : 3 ≤ cw.toNat ∧ cw.toNat ≤ 12)
    (hn : 6 + learned.length < 2 ^ cw.toNat ∨ cw.toNat = 12 ∧ learned.length = 4090)
    (hc : 8 * iptr.toNat + ibit.toNat ≤ 8 * input.length)
    (hf : first = true → learned.length = 0 ∧ cw.toNat = 3)
    (hp : first = false → prev.toNat < 6 + learned.length ∧ prev.toNat ≠ 4 ∧ prev.toNat ≠ 5)
    (ha : ∀ e ∈ learned, ∀ b ∈ strBytes e, b.toNat < 4)
    (hs : ∀ i (h : i < learned.length), 2 ≤ strLen learned[i] ∧ strLen learned[i] ≤ i + 2) :
    Inv (runAt first cw prev iptr ibit input output learned cap) := by
  have hlk := lookup_runAt first cw prev iptr ibit input output learned cap
  have hil : (BitVec.ofNat 32 input.length).toNat = input.length := by rw [BitVec.toNat_ofNat]; omega
  have hol : (BitVec.ofNat 32 output.length).toNat = output.length := by rw [BitVec.toNat_ofNat]; omega
  have hnx : (BitVec.ofNat 13 (6 + learned.length)).toNat = 6 + learned.length := by rw [BitVec.toNat_ofNat]; omega
  have hcc : clearCode 2 = 4 := rfl
  have hec : eoiCode 2 = 5 := rfl
  have hget : ∀ {i : Nat} {e : ByteStr}, learned[i]? = some e → ∃ h : i < learned.length, learned[i] = e :=
    fun h => List.getElem?_eq_some_iff.mp h
  refine ⟨⟨Memory.writeList_wf Memory.wf_nil _ _, Memory.writeList_wf Memory.wf_nil _ _,
    Memory.writeList_wf (literalTable_wf 4) _ _⟩, ?_, ?_, ?_, ⟨?_, ?_⟩, by simp [runAt, box, State.reset],
    fun _ _ => rfl, ?_, fun h => (by cases h), fun _ => ?_⟩
  · intro a h
    change (Memory.read (Memory.writeList [] 0 input) a).isSome at h
    show a < 65536
    rw [Memory.read_writeList] at h; split at h
    · omega
    · cases h
  · intro a h
    change (Memory.read (Memory.writeList [] 0 output) a).isSome at h
    show a < 65536
    rw [Memory.read_writeList] at h; split at h
    · omega
    · cases h
  · intro i h
    rw [hlk] at h; unfold dictSize
    split at h
    · omega
    · split at h
      · omega
      · cases h
  · show (BitVec.ofNat 32 output.length).toNat ≤ 65536
    omega
  · intro a h
    change a < (BitVec.ofNat 32 output.length).toNat at h
    show (Memory.read (Memory.writeList [] 0 output) a).isSome
    rw [Memory.read_writeList, if_pos (by omega)]; simp; omega
  · show (BitVec.ofNat 13 (6 + learned.length)).toNat ≤ dictSize
    unfold dictSize; omega
  · refine ⟨⟨⟨by simp [runAt], by simp [runAt]⟩, ?_, ?_⟩, ⟨hw.1, hw.2⟩, ?_, ?_, ?_, ?_, ?_, ?_, ?_⟩
    · show (BitVec.ofNat 32 input.length).toNat ≤ 65536
      omega
    · show cap.toNat ≤ 65536
      omega
    · show 6 ≤ (BitVec.ofNat 13 (6 + learned.length)).toNat
      omega
    · show (BitVec.ofNat 13 (6 + learned.length)).toNat < _ ∨ _ ∧ (BitVec.ofNat 13 (6 + learned.length)).toNat = dictSize
      unfold dictSize; rw [hnx]
      rcases hn with h | h
      · exact .inl h
      · exact .inr ⟨h.1, by omega⟩
    · show _ ≤ 8 * (BitVec.ofNat 32 input.length).toNat
      rw [hil]; exact hc
    · show (BitVec.ofNat 32 output.length).toNat ≤ cap.toNat
      omega
    · intro h
      show (BitVec.ofNat 13 (6 + learned.length)).toNat = 6 ∧ cw.toNat = 3
      have := hf h; omega
    · intro h
      obtain ⟨h1, h2, h3⟩ := hp h
      refine ⟨?_, ?_, h2, h3⟩
      · show (lookup prev.toNat _).isSome
        rw [hlk]; split
        · simp; omega
        · rw [if_pos (by omega)]; rfl
      · show prev.toNat < (BitVec.ofNat 13 (6 + learned.length)).toNat
        omega
    · constructor
      · intro i h
        change i < 4 at h
        rw [hlk, if_neg (by omega), if_pos h]
      · exact ⟨by rw [hlk]; rfl, by rw [hlk]; rfl⟩
      · intro i h1 h2
        change 6 ≤ i at h1
        change i < (BitVec.ofNat 13 (6 + learned.length)).toNat at h2
        rw [hlk, if_pos (by omega)]; simp; omega
      · intro i h
        change (BitVec.ofNat 13 (6 + learned.length)).toNat ≤ i at h
        rw [hlk, if_neg (by omega), if_neg (by omega)]
      · intro i str h
        rw [hlk] at h
        change ∀ b ∈ strBytes str, b.toNat < 4
        split at h
        · obtain ⟨h1, h2⟩ := hget h
          exact ha _ (h2 ▸ List.getElem_mem h1)
        · split at h
          · cases h
            intro b hb
            simp at hb; subst hb
            rw [BitVec.toNat_ofNat]; omega
          · cases h
      · intro i str h1 h
        change 6 ≤ i at h1
        rw [hlk] at h
        show 2 ≤ strLen str ∧ strLen str ≤ i - 4
        split at h
        · obtain ⟨h2, h3⟩ := hget h
          have := hs _ h2; rw [h3] at this; omega
        · rw [if_neg (by omega)] at h; cases h

theorem p1_inv : Inv (p1 1) ∧ Inv (p1 2) ∧ Inv (p1 4) ∧ Inv (p1 5) ∧ Inv (p1 6) := by
  refine ⟨?_, ?_, ?_, ?_, ?_⟩ <;> apply runAt_inv <;> decide

theorem p2_inv : Inv p2ref ∧ Inv p2kwk ∧ Inv t63 := by
  refine ⟨?_, ?_, ?_⟩ <;> apply runAt_inv <;> decide

theorem bad_inv : Inv p5bad ∧ Inv t55 ∧ Inv t12 := by
  refine ⟨?_, ?_, ?_⟩ <;> apply runAt_inv <;> decide

theorem entries_length : entries.length = 4090 := List.length_replicate

theorem mem_entries {e : ByteStr} (h : e ∈ entries) : e = ⟨0, [0]⟩ := List.eq_of_mem_replicate h

theorem full_inv : Inv full := by
  apply runAt_inv (by decide) (by decide) (by decide) (le_of_eq entries_length) (by decide) (.inr ⟨rfl, entries_length⟩) (by decide)
  · intro h; cases h
  · exact fun _ => ⟨by show 0 < _; omega, by decide, by decide⟩
  · intro e he b hb
    rw [mem_entries he] at hb
    have hb' : b = 0 := by simpa [strBytes] using hb
    subst hb'; decide
  · intro i h
    rw [mem_entries (List.getElem_mem h)]
    show 2 ≤ 2 ∧ 2 ≤ _; omega

/-! ### Witnesses: for every statement with hypotheses, concrete values that meet them all; where it has several clauses, for
each clause, at the ends of its range -/

theorem full_first : full.first = false := rfl

theorem full_next : full.next.toNat = 4096 := by
  show (BitVec.ofNat 13 (6 + entries.length)).toNat = 4096
  rw [entries_length]; rfl

theorem full_lookup_last : lookup 4095 full = some ⟨0, [0]⟩ := by
  rw [full, lookup_runAt, entries_length, if_pos (by omega)]
  exact List.getElem?_replicate_of_lt (by omega)

theorem full_lookup_prev : lookup full.prev.toNat full = some ⟨0, []⟩ := by
  show lookup 0 full = _
  rw [full, lookup_runAt, if_neg (by omega)]; rfl

theorem witness_DecodeEncodeRoundTrip : (∃ x i c w, Instr.wf x i = true ∧ encode x i = .code c w) ∧
    ∃ x i v, Instr.wf x i = true ∧ encode x i = .ctrlWrite v :=
  ⟨⟨⟨2, 3, 7, false⟩, .ref 6, 6, 3, by decide⟩, ⟨⟨2, 3, 7, false⟩, .start, 1, by decide⟩⟩

theorem witness_DecodedInstrIsWellFormed : ∃ x bytes p i, decode x bytes p = .ok i :=
  ⟨⟨2, 4, 8, false⟩, [0x44, 0x8C, 0x05], 12, .kwk 8, by decide⟩

/-- Both positions, and the full table of the last clause. -/
theorem witness_ClassSelection :
    (∃ x : CodeCtx, legalMcs x.mcs ∧ clearCode x.mcs + 2 ≤ x.next.toNat ∧ x.first = true ∧
      x.next.toNat = clearCode x.mcs + 2) ∧
    ∃ x : CodeCtx, legalMcs x.mcs ∧ clearCode x.mcs + 2 ≤ x.next.toNat ∧ x.first = false ∧ x.next.toNat = 4096 :=
  ⟨⟨⟨2, 3, 6, true⟩, by decide⟩, ⟨⟨8, 12, 4096, false⟩, by decide⟩⟩

theorem witness_StaticSelectors : legalMcs 2 ∧ legalMcs 8 ∧ ¬ legalMcs 1 ∧ ¬ legalMcs 9 := by decide

theorem witness_CtrlCommandSelection : ((2 : Word).toNat / 2 % 2 = 1 ∧ (3 : Word).toNat / 2 % 2 = 1) ∧
    ((1 : Word).toNat / 2 % 2 = 0 ∧ (1 : Word).toNat % 2 = 1) ∧ ((0 : Word).toNat % 4 = 0 ∧ (0xFFFFFFFC : Word).toNat % 4 = 0) := by
  decide

/-- A three-bit code in one byte, and T3: twelve bits from bit 7 on, the last input bit included. -/
theorem witness_FetchIsTheStreamSum :
    (∃ s : State, legalMcs s.mcs ∧ legalCw s.mcs s.cw ∧ ¬ inputExhausted s ∧ inputWritten s ∧ s.cw = 3) ∧
    ∃ s : State, legalMcs s.mcs ∧ legalCw s.mcs s.cw ∧ ¬ inputExhausted s ∧ inputWritten s ∧ s.cw = 12 ∧ s.ibit = 7 :=
  ⟨⟨p1 1, by decide⟩, ⟨runAt false 12 0 0 7 [0x80, 0xFF, 0x07] [] [], by decide⟩⟩

theorem witness_FetchWordForm : ∃ o w : Nat, o ≤ 7 ∧ w ≤ 12 := ⟨7, 12, by decide⟩

theorem witness_PackIsTheByteLoop : ∃ (codes before after : List (Nat × Nat)) (c w : Nat), (∀ cw ∈ codes, cw.1 < 2 ^ cw.2) ∧
    codes = before ++ (c, w) :: after :=
  ⟨[(4, 3), (3, 4), (4095, 12)], [(4, 3)], [(4095, 12)], 3, 4, by decide, rfl⟩

theorem witness_ClrResult : ∃ s : State, s.state = .run ∧ legalMcs s.mcs ∧ ¬ inputExhausted s := ⟨p3clr, by decide⟩

theorem witness_ClrInFirstPosition : ∃ s : State, Inv s ∧ s.state = .run ∧ s.first = true ∧ ¬ inputExhausted s :=
  ⟨p1 1, p1_inv.1, by decide⟩

theorem witness_EoiResult : ∃ s : State, s.state = .run ∧ ¬ inputExhausted s := ⟨p1 6, by decide⟩

/-- The byte fits exactly, and does not fit. -/
theorem witness_LitInFirstPosition :
    (∃ (s : State) (c : Code), s.state = .run ∧ s.first = true ∧ legalMcs s.mcs ∧ c.toNat < clearCode s.mcs ∧
      ¬ inputExhausted s ∧ s.olen.toNat + 1 = s.ocap.toNat) ∧
    ∃ (s : State) (c : Code), s.state = .run ∧ s.first = true ∧ legalMcs s.mcs ∧ c.toNat < clearCode s.mcs ∧
      ¬ inputExhausted s ∧ s.ocap.toNat = s.olen.toNat :=
  ⟨⟨runAt true 3 0 0 3 [0x44, 0x34, 0x05] [] [] 1, 3, by decide⟩, ⟨runAt true 3 0 0 3 [0x44, 0x34, 0x05] [] [] 0, 0, by decide⟩⟩

/-- A table with room, and a full one. -/
theorem witness_LitResult :
    (∃ (s : State) (c : Code) (p : ByteStr), s.state = .run ∧ s.first = false ∧ legalMcs s.mcs ∧ c.toNat < clearCode s.mcs ∧
      lookup s.prev.toNat s = some p ∧ ¬ inputExhausted s ∧ s.olen.toNat + 1 ≤ s.ocap.toNat ∧ s.next.toNat < 4096) ∧
    ∃ (s : State) (c : Code) (p : ByteStr), s.state = .run ∧ s.first = false ∧ legalMcs s.mcs ∧ c.toNat < clearCode s.mcs ∧
      lookup s.prev.toNat s = some p ∧ ¬ inputExhausted s ∧ s.olen.toNat + 1 ≤ s.ocap.toNat ∧ s.next.toNat = 4096 :=
  ⟨⟨p1 4, 2, ⟨1, []⟩, by decide⟩,
   ⟨full, 3, ⟨0, []⟩, rfl, rfl, by decide, by decide, full_lookup_prev, by decide, by decide, full_next⟩⟩

/-- A table with room, and a full one with its last slot named. -/
theorem witness_RefResult :
    (∃ (s : State) (c : Code) (str p : ByteStr), s.state = .run ∧ s.first = false ∧ clearCode s.mcs + 2 ≤ c.toNat ∧
      c.toNat < s.next.toNat ∧ lookup c.toNat s = some str ∧ lookup s.prev.toNat s = some p ∧ ¬ inputExhausted s ∧
      s.olen.toNat + strLen str ≤ s.ocap.toNat ∧ s.next.toNat < 4096) ∧
    (∃ (s : State) (c : Code) (str : ByteStr), Inv s ∧ s.state = .run ∧ clearCode s.mcs + 2 = c.toNat ∧
      lookup c.toNat s = some str) ∧
    ∃ (s : State) (c : Code) (str p : ByteStr), s.state = .run ∧ s.first = false ∧ clearCode s.mcs + 2 ≤ c.toNat ∧
      c.toNat < s.next.toNat ∧ lookup c.toNat s = some str ∧ lookup s.prev.toNat s = some p ∧ ¬ inputExhausted s ∧
      s.olen.toNat + strLen str ≤ s.ocap.toNat ∧ s.next.toNat = 4096 :=
  ⟨⟨p2ref, 6, ⟨0, [1]⟩, ⟨1, []⟩, by decide⟩, ⟨p2ref, 6, ⟨0, [1]⟩, p2_inv.1, by decide⟩,
   ⟨full, 4095, ⟨0, [0]⟩, ⟨0, []⟩, rfl, rfl, by decide, by rw [full_next]; decide, full_lookup_last, full_lookup_prev, by decide,
    by decide, full_next⟩⟩

theorem witness_KwkResult : ∃ (s : State) (c : Code) (p : ByteStr), s.state = .run ∧ s.first = false ∧
    c.toNat = s.next.toNat ∧ lookup s.prev.toNat s = some p ∧ ¬ inputExhausted s ∧ s.olen.toNat + (strLen p + 1) ≤ s.ocap.toNat :=
  ⟨p2kwk, 8, ⟨0, [1]⟩, by decide⟩

/-- The overflow clauses of LitResult, RefResult and KwkResult, one byte short each. -/
theorem witness_overflowClauses :
    (∃ (s : State) (c : Code) (p : ByteStr), s.state = .run ∧ s.first = false ∧ legalMcs s.mcs ∧ c.toNat < clearCode s.mcs ∧
      lookup s.prev.toNat s = some p ∧ ¬ inputExhausted s ∧ s.ocap.toNat + 1 = s.olen.toNat + 1) ∧
    (∃ (s : State) (c : Code) (str p : ByteStr), s.state = .run ∧ s.first = false ∧ clearCode s.mcs + 2 ≤ c.toNat ∧
      c.toNat < s.next.toNat ∧ lookup c.toNat s = some str ∧ lookup s.prev.toNat s = some p ∧ ¬ inputExhausted s ∧
      s.ocap.toNat + 1 = s.olen.toNat + strLen str) ∧
    ∃ (s : State) (c : Code) (p : ByteStr), s.state = .run ∧ s.first = false ∧ c.toNat = s.next.toNat ∧
      lookup s.prev.toNat s = some p ∧ ¬ inputExhausted s ∧ s.ocap.toNat + 1 = s.olen.toNat + (strLen p + 1) :=
  ⟨⟨runAt false 3 1 1 1 [0x44, 0x8C, 0x05] [0, 1] [⟨0, [1]⟩] 2, 3, ⟨1, []⟩, by decide⟩,
   ⟨runAt false 3 1 1 1 [0x44, 0x8C, 0x05] [0, 1] [⟨0, [1]⟩] 3, 6, ⟨0, [1]⟩, ⟨1, []⟩, by decide⟩, ⟨t63, 8, ⟨0, [1]⟩, by decide⟩⟩

/-- The class conditions of BAD, and of LIT, REF and KWK, at the edges of their ranges: MCS = 2, so CC = 4, with NEXT = 6, 7 and 4096. -/
theorem witness_BadResult :
    (∃ (x : CodeCtx) (c : Code), x.first = true ∧ c.toNat + 1 = clearCode x.mcs) ∧
    (∃ (x : CodeCtx) (c : Code), x.first = false ∧ c.toNat + 1 = clearCode x.mcs) ∧
    (∃ (x : CodeCtx) (c : Code), clearCode x.mcs + 2 ≤ c.toNat ∧ c.toNat + 1 = x.next.toNat ∧ x.first = false) ∧
    (∃ (x : CodeCtx) (c : Code), clearCode x.mcs + 2 = c.toNat ∧ c.toNat < x.next.toNat ∧ x.first = true) ∧
    (∃ (x : CodeCtx) (c : Code), clearCode x.mcs + 2 = c.toNat ∧ c.toNat = x.next.toNat ∧ x.first = false) ∧
    (∃ (x : CodeCtx) (c : Code), clearCode x.mcs + 2 = c.toNat ∧ c.toNat = x.next.toNat ∧ x.first = true) ∧
    (∃ (x : CodeCtx) (c : Code), clearCode x.mcs + 2 = c.toNat ∧ x.first = true) ∧
    ∃ (x : CodeCtx) (c : Code), clearCode x.mcs + 2 ≤ c.toNat ∧ x.first = false ∧ c.toNat = x.next.toNat + 1 :=
  ⟨⟨⟨2, 3, 6, true⟩, 3, by decide⟩, ⟨⟨2, 3, 6, false⟩, 3, by decide⟩, ⟨⟨2, 12, 4096, false⟩, 4095, by decide⟩,
   ⟨⟨2, 3, 7, true⟩, 6, by decide⟩, ⟨⟨2, 3, 6, false⟩, 6, by decide⟩, ⟨⟨2, 3, 6, true⟩, 6, by decide⟩,
   ⟨⟨2, 3, 6, true⟩, 6, by decide⟩, ⟨⟨2, 3, 6, false⟩, 7, by decide⟩⟩

/-- Outside first position and in it. -/
theorem witness_IllegalCodesExactly :
    (∃ (s : State) (bytes : List Byte), Inv s ∧ s.state = .run ∧ hostSilent s ∧ ¬ inputExhausted s ∧
      fetchWindow s = some bytes ∧ s.first = false ∧ s.next.toNat < assemble bytes s.ibit.toNat s.cw.toNat) ∧
    ∃ (s : State) (bytes : List Byte), Inv s ∧ s.state = .run ∧ hostSilent s ∧ ¬ inputExhausted s ∧
      fetchWindow s = some bytes ∧ s.first = true ∧ clearCode s.mcs + 2 = assemble bytes s.ibit.toNat s.cw.toNat :=
  ⟨⟨p5bad, [0xA4], bad_inv.1, by decide⟩, ⟨t55, [0x06], bad_inv.2.1, by decide⟩⟩

theorem witness_StartBeginsRun : ∃ s : State, s.state ≠ .run ∧ 2 ≤ s.mcs.toNat ∧ s.mcs.toNat ≤ 8 ∧
    s.ilen.toNat = s.cfg.ibufSize.val ∧ s.ocap.toNat = s.cfg.obufSize.val :=
  ⟨{ box with mcs := 2, ilen := 65536, ocap := 65536 }, by decide⟩

/-- T72, T73, T75, T76: each way a configuration is illegal, at its boundary. -/
theorem witness_StartRefusesBadConfig :
    (∃ s : State, s.state ≠ .run ∧ s.mcs.toNat = 1) ∧ (∃ s : State, s.state ≠ .run ∧ s.mcs.toNat = 9) ∧
    (∃ s : State, s.state ≠ .run ∧ s.cfg.ibufSize.val + 1 = s.ilen.toNat) ∧
    ∃ s : State, s.state ≠ .run ∧ s.cfg.obufSize.val + 1 = s.ocap.toNat :=
  ⟨⟨{ box with mcs := 1 }, by decide⟩, ⟨{ box with mcs := 9 }, by decide⟩, ⟨{ box with ilen := 65537 }, by decide⟩,
   ⟨{ box with ocap := 65537 }, by decide⟩⟩

theorem witness_StartIgnoredWhileRunning : ∃ s : State, s.state = .run := ⟨p1 3, rfl⟩

/-- One byte too many for each of the three codes. -/
theorem witness_EmissionOverflow :
    (∃ s : State, s.ocap.toNat + 1 = s.olen.toNat + 1) ∧
    (∃ (s : State) (c : Code) (str : ByteStr), lookup c.toNat s = some str ∧ s.ocap.toNat + 1 = s.olen.toNat + strLen str) ∧
    ∃ (s : State) (p : ByteStr), lookup s.prev.toNat s = some p ∧ s.ocap.toNat + 1 = s.olen.toNat + (strLen p + 1) :=
  ⟨⟨runAt true 3 0 0 3 [0x44] [] [] 0, rfl⟩, ⟨runAt false 3 1 1 1 [0x44, 0x8C, 0x05] [0, 1] [⟨0, [1]⟩] 3, 6, ⟨0, [1]⟩, by decide⟩,
   ⟨t63, ⟨0, [1]⟩, by decide⟩⟩

/-- T12: two bits where three are needed; and a code whose last bit is the input's last. -/
theorem witness_TruncatedInput :
    (∃ s : State, Inv s ∧ s.state = .run ∧ hostSilent s ∧ 8 * s.ilen.toNat - bitpos s + 1 = s.cw.toNat) ∧
    ∃ s t : State, Inv s ∧ s.state = .run ∧ hostSilent s ∧ s.cw.toNat = 8 * s.ilen.toNat - bitpos s ∧ step s = .next t :=
  ⟨⟨t12, bad_inv.2.2, by decide⟩,
   ⟨runAt true 3 0 0 5 [0x80] [] [], _, by apply runAt_inv <;> decide, rfl, rfl, by decide, rfl⟩⟩

/-- Each of the three faults; and in ERR a step that is no START and no reset. -/
theorem witness_FaultPriority :
    (∃ s t : State, Inv s ∧ s.state = .run ∧ hostSilent s ∧ step s = .next t ∧ t.state = .err ∧ t.errcode = .trunc) ∧
    (∃ s t : State, Inv s ∧ s.state = .run ∧ hostSilent s ∧ step s = .next t ∧ t.state = .err ∧ t.errcode = .code) ∧
    (∃ s t : State, Inv s ∧ s.state = .run ∧ hostSilent s ∧ step s = .next t ∧ t.state = .err ∧ t.errcode = .ovf) ∧
    ∃ s t : State, s.state = .err ∧ step s = .next t ∧ ¬ startNext s ∧ ¬ resetNext s ∧ t.ilen ≠ s.ilen :=
  ⟨⟨t12, _, bad_inv.2.2, rfl, rfl, rfl, rfl, rfl⟩, ⟨p5bad, _, bad_inv.1, rfl, rfl, rfl, rfl, rfl⟩,
   ⟨t63, _, p2_inv.2.2, rfl, rfl, rfl, rfl, rfl⟩,
   ⟨told (.writeReg 3 7) (raise .ovf 8 t63), _, rfl, rfl, (fun ⟨_, _, h, _⟩ => nomatch h),
    fun h => h.elim (fun ⟨_, _, h, _⟩ => nomatch h) (fun ⟨_, h⟩ => nomatch h), by decide⟩⟩

/-- With an empty script and with a wait. -/
theorem witness_FaultsArePrecise :
    (∃ s t : State, Inv s ∧ s.state = .run ∧ engineTurnNext s ∧ step s = .next t ∧ t.state = .err) ∧
    ∃ s t : State, Inv s ∧ s.state = .run ∧ engineTurnNext s ∧ ¬ hostSilent s ∧ step s = .next t ∧ t.state = .err :=
  ⟨⟨p5bad, _, bad_inv.1, rfl, .inl rfl, rfl, rfl⟩,
   ⟨told .wait p5bad, _, bad_inv.1.congrHost rfl, rfl, .inr ⟨[], rfl⟩, by decide, rfl, rfl⟩⟩

theorem witness_ControlCodeFrames : (∃ s t, exec .clr s = .next t) ∧ (∃ s t, exec .eoi s = .next t) ∧
    ∃ s t c, exec (.bad c) s = .next t :=
  ⟨⟨p3clr, _, rfl⟩, ⟨p1 6, _, rfl⟩, ⟨p5bad, _, 10, rfl⟩⟩

/-- Each of the three codes, and the literal that clears FIRST. -/
theorem witness_DataCodeFrames :
    (∃ s t c, exec (.lit c) s = .next t ∧ t.first ≠ s.first) ∧ (∃ s t c, exec (.lit c) s = .next t ∧ t.next ≠ s.next) ∧
    (∃ s t c, exec (.ref c) s = .next t) ∧ ∃ s t c, exec (.kwk c) s = .next t :=
  ⟨⟨p1 2, _, 0, rfl, by decide⟩, ⟨p1 4, _, 2, rfl, by decide⟩, ⟨p2ref, _, 6, rfl⟩, ⟨p2kwk, _, 8, rfl⟩⟩

theorem witness_CommandFrames : (∃ s t, exec .start s = .next t ∧ t.state = .run) ∧ ∃ s t, exec .reset s = .next t :=
  ⟨⟨ready, _, rfl, rfl⟩, ⟨p5bad, _, rfl⟩⟩

theorem witness_StepRunsTheDecodedCode :
    (∃ (s : State) (bytes : List Byte) (i : Instr), s.state = .run ∧ ¬ inputExhausted s ∧ fetchWindow s = some bytes ∧
      decode (codeCtx s) bytes s.ibit.toNat = .ok i ∧ s.host.script = []) ∧
    ∃ (s : State) (bytes : List Byte) (i : Instr) (rest : List HostMove), s.state = .run ∧ ¬ inputExhausted s ∧
      fetchWindow s = some bytes ∧ decode (codeCtx s) bytes s.ibit.toNat = .ok i ∧ s.host.script = .wait :: rest :=
  ⟨⟨p2kwk, [0x8C], .kwk 8, by decide⟩, ⟨told .wait p2kwk, [0x8C], .kwk 8, [], by decide⟩⟩

theorem witness_StepRunsTheCommand :
    (∃ (s : State) (v : Word) (rest : List HostMove) (i : Instr), s.host.script = .writeReg 0 v :: rest ∧ decodeCtrl v = .ok i) ∧
    ∃ (s : State) (v : Word) (rest : List HostMove), s.host.script = .writeReg 0 v :: rest ∧ v.toNat % 4 = 0 :=
  ⟨⟨told (.writeReg 0 3) box, 3, [], .reset, by decide⟩, ⟨told (.writeReg 0 4) box, 4, [], by decide⟩⟩

theorem witness_QuiescentEngine : (∃ s : State, s.state = .idle ∧ hostSilent s) ∧ (∃ s : State, s.state = .done ∧ hostSilent s) ∧
    ∃ s : State, s.state = .err ∧ hostSilent s :=
  ⟨⟨box, by decide⟩, ⟨{ p1 6 with state := .done }, by decide⟩, ⟨{ t12 with state := .err }, by decide⟩⟩

/-- A row of 8 bits, one of 32 and one of 12. -/
theorem witness_PlacedWordRuns : decodeTableWord 8 2 = some .reset ∧ decodeTableWord 32 1 = some .start ∧
    decodeTableWord 12 15 = some (.bad 15) := by decide

/-- The first and the last register, and the first number that is none. -/
theorem witness_RegisterRead : (∃ (s : State) (rest : List HostMove), s.host.script = .readReg 0 :: rest) ∧
    (∃ (s : State) (rest : List HostMove), s.host.script = .readReg 1 :: rest) ∧
    (∃ (s : State) (rest : List HostMove), s.host.script = .readReg 11 :: rest) ∧
    ∃ (s : State) (rest : List HostMove), s.host.script = .readReg 12 :: rest :=
  ⟨⟨told (.readReg 0) box, [], rfl⟩, ⟨told (.readReg 1) t12, [], rfl⟩, ⟨told (.readReg 11) t12, [], rfl⟩, ⟨told (.readReg 12) box, [], rfl⟩⟩

/-- A register that takes the write, the same one during a run, and numbers that take none. -/
theorem witness_RegisterWrite :
    (∃ (s : State) (rest : List HostMove), s.host.script = .writeReg 2 0x1FF :: rest ∧ s.state ≠ .run) ∧
    (∃ (s : State) (rest : List HostMove), s.host.script = .writeReg 3 0 :: rest ∧ s.state ≠ .run) ∧
    (∃ (s : State) (rest : List HostMove), s.host.script = .writeReg 4 0 :: rest ∧ s.state = .run) ∧
    (∃ (s : State) (rest : List HostMove), s.host.script = .writeReg 1 0 :: rest) ∧
    (∃ (s : State) (rest : List HostMove), s.host.script = .writeReg 12 0 :: rest) ∧
    (∃ (s : State) (v : Word) (rest : List HostMove), s.host.script = .writeReg 0 v :: rest ∧ v.getLsbD 1 = true) ∧
    (∃ (s : State) (v : Word) (rest : List HostMove), s.host.script = .writeReg 0 v :: rest ∧ v.getLsbD 1 = false ∧
      v.getLsbD 0 = true) ∧
    ∃ (s : State) (v : Word) (rest : List HostMove), s.host.script = .writeReg 0 v :: rest ∧ v.getLsbD 1 = false ∧
      v.getLsbD 0 = false :=
  ⟨⟨told (.writeReg 2 0x1FF) box, [], by decide⟩, ⟨told (.writeReg 3 0) box, [], by decide⟩, ⟨told (.writeReg 4 0) (p1 3), [], by decide⟩,
   ⟨told (.writeReg 1 0) box, [], rfl⟩, ⟨told (.writeReg 12 0) box, [], rfl⟩, ⟨told (.writeReg 0 3) (p1 3), 3, [], by decide⟩,
   ⟨told (.writeReg 0 0xFFFFFFFD) ready, 0xFFFFFFFD, [], by decide⟩, ⟨told (.writeReg 0 0xFFFFFFFC) box, 0xFFFFFFFC, [], by decide⟩⟩

theorem witness_ResetResult : (3 : Word).getLsbD 1 = true ∧ (2 : Word).getLsbD 1 = true := by decide

/-- The last byte of each buffer, an unwritten byte, a run, and the first byte past each buffer. -/
theorem witness_BufferAccess :
    (∃ (s : State) (rest : List HostMove), s.host.script = .writeIbuf 65535 0 :: rest ∧ s.state ≠ .run ∧ 65535 < s.cfg.ibufSize.val) ∧
    (∃ (s : State) (rest : List HostMove) (v : Byte), s.host.script = .readIbuf 2 :: rest ∧ s.state ≠ .run ∧
      2 < s.cfg.ibufSize.val ∧ Memory.read s.ibuf 2 = some v) ∧
    (∃ (s : State) (rest : List HostMove) (v : Byte), s.host.script = .readObuf 0 :: rest ∧ s.state ≠ .run ∧
      0 < s.cfg.obufSize.val ∧ Memory.read s.obuf 0 = some v) ∧
    (∃ (s : State) (rest : List HostMove), s.host.script = .readIbuf 3 :: rest ∧ s.state ≠ .run ∧ 3 < s.cfg.ibufSize.val ∧
      Memory.read s.ibuf 3 = none) ∧
    (∃ (s : State) (rest : List HostMove), s.host.script = .readObuf 65535 :: rest ∧ s.state ≠ .run ∧ 65535 < s.cfg.obufSize.val ∧
      Memory.read s.obuf 65535 = none) ∧
    (∃ (s : State) (rest : List HostMove), s.host.script = .readObuf 0 :: rest ∧ s.state = .run) ∧
    (∃ (s : State) (rest : List HostMove), s.host.script = .writeIbuf 65536 0 :: rest ∧ s.state ≠ .run ∧ s.cfg.ibufSize.val = 65536) ∧
    ∃ (s : State) (rest : List HostMove), s.host.script = .readObuf 65536 :: rest ∧ s.state ≠ .run ∧ s.cfg.obufSize.val = 65536 :=
  ⟨⟨told (.writeIbuf 65535 0) box, [], by decide⟩, ⟨told (.readIbuf 2) ready, [], 0x05, by decide⟩,
   ⟨told (.readObuf 0) { p1 6 with state := .done }, [], 0, by decide⟩, ⟨told (.readIbuf 3) ready, [], by decide⟩,
   ⟨told (.readObuf 65535) ready, [], by decide⟩, ⟨told (.readObuf 0) (p1 3), [], by decide⟩,
   ⟨told (.writeIbuf 65536 0) box, [], by decide⟩, ⟨told (.readObuf 65536) box, [], by decide⟩⟩

theorem witness_ResetValues : (∃ (s : State) (rest : List HostMove), s.host.script = .hwReset :: rest) ∧
    ∃ s t : State, exec .reset s = .next t :=
  ⟨⟨told .hwReset p5bad, [], rfl⟩, ⟨p5bad, _, rfl⟩⟩

/-- The host of scenario S1. -/
theorem witness_HostSequenceStartsRun : ∃ (s : State) (payload : List Byte) (m : BitVec 8) (cap : Word), s.state ≠ .run ∧ legalMcs m ∧
    payload.length ≤ s.cfg.ibufSize.val ∧ cap.toNat ≤ s.cfg.obufSize.val ∧
    s.host.script = payload.mapIdx (fun a b => HostMove.writeIbuf a b) ++
      [.writeReg 3 (BitVec.ofNat 32 payload.length), .writeReg 2 (m.setWidth 32), .writeReg 4 cap, .writeReg 0 1] :=
  ⟨{ box with host := { box.host with script := [.writeIbuf 0 0x44, .writeIbuf 1 0x34, .writeIbuf 2 0x05, .writeReg 3 3, .writeReg 2 2,
      .writeReg 4 4, .writeReg 0 1] } }, [0x44, 0x34, 0x05], 2, 4, by decide⟩

theorem witness_StepKeepsInvariants : ∃ s t : State, Inv s ∧ step s = .next t := ⟨p2kwk, _, p2_inv.2.1, rfl⟩

/-- Each event of R24's table, in each kind of state it is listed for. -/
theorem witness_StateTransitions :
    (∃ s t : State, step s = .next t ∧ s.state ≠ .run ∧ startNext s ∧ configOk s) ∧
    (∃ s t : State, step s = .next t ∧ s.state ≠ .run ∧ startNext s ∧ ¬ configOk s) ∧
    (∃ s t : State, step s = .next t ∧ s.state ≠ .run ∧ resetNext s) ∧
    (∃ s t : State, step s = .next t ∧ s.state ≠ .run ∧ hostSilent s ∧ ¬ startNext s ∧ ¬ resetNext s) ∧
    (∃ s t : State, step s = .next t ∧ s.state = .run ∧ resetNext s) ∧
    (∃ s t : State, step s = .next t ∧ s.state = .run ∧ startNext s) ∧
    (∃ s t : State, step s = .next t ∧ s.state = .run ∧ engineTurnNext s ∧ t.state = .run) ∧
    (∃ s t : State, step s = .next t ∧ s.state = .run ∧ engineTurnNext s ∧ t.state = .err) ∧
    (∃ s t : State, step s = .next t ∧ s.state = .run ∧ engineTurnNext s ∧ t.state = .done ∧ ¬ inputExhausted s ∧
      fetchWindow s = some [0x05] ∧ decode (codeCtx s) [0x05] s.ibit.toNat = .ok .eoi) ∧
    ∃ s t : State, step s = .next t ∧ s.state = .run ∧ ¬ resetNext s ∧ ¬ engineTurnNext s := by
  refine ⟨⟨told (.writeReg 0 1) ready, _, rfl, by decide, ⟨1, [], rfl, rfl, rfl⟩, by decide⟩,
    ⟨told (.writeReg 0 1) box, _, rfl, by decide, ⟨1, [], rfl, rfl, rfl⟩, by decide⟩,
    ⟨told .hwReset box, _, rfl, by decide, .inr ⟨[], rfl⟩⟩,
    ⟨box, _, rfl, by decide, rfl, ?_, ?_⟩,
    ⟨told (.writeReg 0 2) (p1 3), _, rfl, rfl, .inl ⟨2, [], rfl, rfl⟩⟩,
    ⟨told (.writeReg 0 1) (p1 3), _, rfl, rfl, ⟨1, [], rfl, rfl, rfl⟩⟩,
    ⟨p1 3, _, rfl, rfl, .inl rfl, rfl⟩, ⟨p5bad, _, rfl, rfl, .inl rfl, rfl⟩,
    ⟨p1 6, _, rfl, rfl, .inl rfl, rfl, by decide, by decide, by decide⟩, ⟨told (.readReg 1) (p1 3), _, rfl, rfl, ?_, ?_⟩⟩
  · rintro ⟨_, _, h, -⟩; cases h
  · rintro (⟨_, _, h, -⟩ | ⟨_, h⟩) <;> cases h
  · rintro (⟨_, _, h, -⟩ | ⟨_, h⟩) <;> cases h
  · rintro (h | ⟨_, h⟩) <;> cases h

theorem witness_ConfigurationFrozenInRun : ∃ s t : State, s.state = .run ∧ step s = .next t ∧ ¬ resetNext s := by
  refine ⟨told (.writeReg 2 5) (p1 3), _, rfl, rfl, ?_⟩
  rintro (⟨_, _, h, -⟩ | ⟨_, h⟩)
  · injection h with h; injection h with h; cases h
  · cases h

theorem witness_WritersOfTheMemories : ∃ s t : State, Inv s ∧ step s = .next t ∧ t.obuf ≠ s.obuf ∧ t.dict ≠ s.dict :=
  ⟨p2kwk, _, p2_inv.2.1, rfl, by decide, by decide⟩

/-- An engine step that completes, one that faults, and a move of the host. -/
theorem witness_CursorMovesForward :
    (∃ s t : State, Inv s ∧ step s = .next t ∧ s.state = .run ∧ engineTurnNext s ∧ t.state ≠ .err) ∧
    (∃ s t : State, Inv s ∧ step s = .next t ∧ s.state = .run ∧ engineTurnNext s ∧ t.state = .err) ∧
    ∃ s t : State, Inv s ∧ step s = .next t ∧ ¬ engineTurnNext s := by
  refine ⟨⟨p2kwk, _, p2_inv.2.1, rfl, rfl, .inl rfl, by decide⟩, ⟨p5bad, _, bad_inv.1, rfl, rfl, .inl rfl, rfl⟩,
    ⟨told (.readReg 1) p5bad, _, bad_inv.1.congrHost rfl, rfl, ?_⟩⟩
  rintro (h | ⟨_, h⟩) <;> cases h

/-- The machine of scenario S1, its first literal run. -/
theorem witness_OutputAlphabet : ∃ (s r t : State) (n a : Nat), s.state ≠ .run ∧ configOk s ∧ hostSilent s ∧ exec .start s = .next r ∧
    core.run n r = .next t ∧ a < t.olen.toNat :=
  ⟨ready, _, _, 2, 0, by decide, by decide, rfl, rfl, rfl, by decide⟩

theorem witness_EmissionIsBounded : ∃ s t : State, Inv s ∧ s.state = .run ∧ engineTurnNext s ∧ step s = .next t ∧ t.olen ≠ s.olen :=
  ⟨p2kwk, _, p2_inv.2.1, rfl, .inl rfl, rfl, by decide⟩

theorem full_decodes : decode (codeCtx full) [0xFF, 0x0F] full.ibit.toNat = .ok (.ref 4095) := by
  have h : codeCtx full = ⟨2, 12, 4096, false⟩ := by
    have : full.next = 4096 := BitVec.eq_of_toNat_eq full_next
    rw [codeCtx, this]; rfl
  rw [h]; decide

theorem witness_FullTableRegime : ∃ (s : State) (bytes : List Byte) (i : Instr), Inv s ∧ s.state = .run ∧ s.next.toNat = 4096 ∧
    ¬ inputExhausted s ∧ fetchWindow s = some bytes ∧ decode (codeCtx s) bytes s.ibit.toNat = .ok i :=
  ⟨full, [0xFF, 0x0F], .ref 4095, full_inv, rfl, full_next, by decide, by decide, full_decodes⟩

theorem witness_KwkAlwaysHasRoom : ∃ (s : State) (bytes : List Byte) (c : Code), Inv s ∧ s.state = .run ∧
    ¬ inputExhausted s ∧ fetchWindow s = some bytes ∧ decode (codeCtx s) bytes s.ibit.toNat = .ok (.kwk c) :=
  ⟨p2kwk, [0x8C], 8, p2_inv.2.1, by decide⟩

theorem witness_PrevHoldsTheEmittedString : ∃ s t : State, Inv s ∧ s.state = .run ∧ hostSilent s ∧ step s = .next t ∧
    t.olen ≠ s.olen :=
  ⟨p2kwk, _, p2_inv.2.1, rfl, rfl, rfl, by decide⟩

theorem witness_AppendGrowsTheWidth : ∃ s : State, Inv s ∧ s.state = .run ∧ s.next.toNat < 4096 := ⟨p2ref, p2_inv.1, by decide⟩

theorem witness_CanonicalMemoriesAreEqual : ∃ m n : Memory Byte, m.wf ∧ n.wf ∧ ∀ a, Memory.read m a = Memory.read n a :=
  ⟨[(1, 5), (3, 9)], [(1, 5), (3, 9)], by decide, by decide, fun _ => rfl⟩

theorem witness_EngineNeverStops : ∃ s : State, Inv s ∧ s.state = .run ∧ hostSilent s ∧ inputWritten s :=
  ⟨p2kwk, p2_inv.2.1, by decide⟩

/-- A running state for the first two clauses, a state to start from for the third. -/
theorem witness_EveryRunEnds : (∃ s t : State, Inv s ∧ s.state = .run ∧ hostSilent s ∧ inputWritten s ∧ step s = .next t) ∧
    ∃ s r : State, Inv s ∧ s.state ≠ .run ∧ configOk s ∧ hostSilent s ∧ inputWritten s ∧ exec .start s = .next r :=
  ⟨⟨p1 1, _, p1_inv.1, by decide, rfl, by decide, rfl⟩,
   ⟨{ State.reset with mcs := 2 }, _,
    ⟨by decide, by simp [State.reset], by simp [State.reset], by simp [State.reset, lookup], ⟨by decide, by simp [State.reset]⟩,
      by decide, fun _ _ => rfl, by decide, fun _ => by decide, fun h => (by cases h)⟩,
    by decide, by decide, rfl, by decide, rfl⟩⟩

/-- Two runs that differ in the buffer sizes and in what lies above ILEN and OLEN. -/
theorem witness_UnreadDataDoesNotMatter : ∃ s t : State, Inv s ∧ s.state = .run ∧ Agree s t ∧ hostSilent s ∧ hostSilent t ∧
    s.cfg ≠ t.cfg ∧ s.ibuf ≠ t.ibuf ∧ s.obuf ≠ t.obuf := by
  refine ⟨p2kwk, { p2kwk with cfg := Config.largest, ibuf := Memory.write p2kwk.ibuf 3 1, obuf := Memory.write p2kwk.obuf 4 9 },
    p2_inv.2.1, rfl, ?_, rfl, rfl, by decide, by decide, by decide⟩
  refine ⟨rfl, rfl, rfl, rfl, rfl, rfl, rfl, ⟨rfl, rfl⟩, rfl, rfl, fun _ => rfl, rfl, fun _ => rfl, fun a ha => ?_, fun a ha => ?_⟩
  · have ha : a < 3 := ha
    exact (Memory.read_write_other _ _ (show 3 ≠ a by omega)).symm
  · have ha : a < 4 := ha
    exact (Memory.read_write_other _ _ (show 4 ≠ a by omega)).symm

/-- The machine of scenario S1 from reset, and the same one after a failed run. -/
theorem witness_RunDeterminedByInputs : ∃ s t : State, s.state ≠ .run ∧ t.state ≠ .run ∧ configOk s ∧ configOk t ∧
    s.mcs = t.mcs ∧ s.ilen = t.ilen ∧ s.ocap = t.ocap ∧
    (∀ a, a < s.ilen.toNat → Memory.read s.ibuf a = Memory.read t.ibuf a) ∧ hostSilent s ∧ hostSilent t ∧ s ≠ t :=
  ⟨ready, { p1 5 with state := .err, errcode := .ovf, errval := 3, ocap := 4 }, by decide, by decide, by decide, by decide, by decide,
   by decide, by decide, by decide, rfl, rfl, by decide⟩

/-- The literals 0 and 1 without a Clear Code, three bits each; and the machine that has them in IBUF. -/
theorem witness_RoundTrip : ∃ (s : State) (buffer : List Byte) (codes : List (Nat × Nat)), legalMcs s.mcs ∧
    (∀ b ∈ buffer, b.toNat < 2 ^ s.mcs.toNat) ∧ s.state ≠ .run ∧ configOk s ∧ hostSilent s ∧
    EncodedAs s.mcs none [] buffer codes ∧ (pack codes).length ≤ s.ilen.toNat ∧
    (∀ a, a < (pack codes).length → Memory.read s.ibuf a = (pack codes)[a]?) ∧ buffer.length ≤ s.ocap.toNat := by
  refine ⟨{ ready with ibuf := [(0, 0x48), (1, 0x01)], ilen := 2 }, [0, 1], [(0, 3), (1, 3), (5, 3)], by decide, by decide, by decide,
    by decide, rfl, ?_, by decide, by decide, by decide⟩
  have width : ∀ n, n < 8 → IsCodeWidth 2 n 3 := fun n hn => ⟨by decide, by decide, .inl hn, fun v h1 h2 => by
    have : 3 ≤ v := h1
    omega⟩
  have h3 : EncodedAs 2 (some ⟨1, []⟩) [⟨0, [1]⟩] [] [(5, 3)] := .stop (width _ (by decide))
  have h2 : EncodedAs 2 (some ⟨0, []⟩) [] ([1] ++ []) [(1, 3), (5, 3)] :=
    .string (str := ⟨1, []⟩) (width _ (by decide)) (.inl ⟨by decide, rfl, rfl⟩) h3
  exact .string (str := ⟨0, []⟩) (width _ (by decide)) (.inl ⟨by decide, rfl, rfl⟩) h2

end Sys2Proof.Tests
end

section
/-! PROOFS. A run is a deterministic function of MCS, ILEN, OCAP and IBUF[0 .. ILEN-1] (`00_scope.md` R13). The relation
`Agree` is a bisimulation: every operation an engine step is made of keeps it, and a step reads nothing it leaves open. -/

namespace Sys2Proof.Machine

/-! ### The operations of a step keep agreement -/

section
variable {s t : State} (h : Agree s t)
include h

theorem agree_raise (e : ErrCode) (v : Code) : Agree (raise e v s) (raise e v t) :=
  { h with state := rfl, errcode := rfl, errval := rfl }

theorem agree_advance (w : Nat) : Agree (advance w s) (advance w t) :=
  { h with cursor := by simp [h.cursor] }

/-- A CLR's table and FIRST; back in first position PREV is left open. -/
theorem agree_clearTable_first :
    Agree { clearTable s with first := true } { clearTable t with first := true } :=
  { h with
    first := rfl
    prev := fun hf => nomatch hf
    cw := by simp [h.mcs]
    next := by simp [h.mcs]
    table := fun i => by
      change lookup i (clearTable s) = lookup i (clearTable t)
      rw [lookup_clearTable, lookup_clearTable, h.mcs, h.table] }

theorem agree_append (entry : ByteStr) : Agree (append entry s) (append entry t) :=
  { h with
    cw := by simp [h.next, h.cw]
    next := by simp [h.next]
    table := fun i => by rw [lookup_append, lookup_append, h.next, h.table] }

theorem hasRoom_iff_of_agree : hasRoom s ↔ hasRoom t := by rw [hasRoom, hasRoom, h.next]

theorem agree_appendIfRoom (entry : ByteStr) : Agree (appendIfRoom entry s) (appendIfRoom entry t) := by
  by_cases hr : hasRoom s
  · rw [appendIfRoom_of_room _ hr, appendIfRoom_of_room _ ((hasRoom_iff_of_agree h).mp hr)]
    exact agree_append h entry
  · rw [appendIfRoom_of_full _ hr, appendIfRoom_of_full _ (mt (hasRoom_iff_of_agree h).mpr hr)]
    exact h

/-- An emission that fits writes the same bytes at the same OLEN; a wrapped OLEN would uncover bytes that differ. -/
theorem agree_storeStr {str : ByteStr} (ho : ¬ overflows str s) : Agree (storeStr str s) (storeStr str t) :=
  { h with
    olen := by simp [h.olen]
    output := fun a ha => by
      rw [storeStr_olen_toNat ho] at ha
      rw [read_storeStr, read_storeStr, ← h.olen]
      split
      · rfl
      · exact h.output a (by omega) }

/-- `PREV <- c` closes the one register agreement leaves open in first position, so FIRST may be cleared with it. -/
theorem agree_finishCode_first (c : Code) (w : Nat) (f : Bool) :
    Agree (finishCode c w { s with first := f }) (finishCode c w { t with first := f }) :=
  { h with first := rfl, cursor := by simp [h.cursor], prev := fun _ => rfl }

theorem agree_finishCode (c : Code) (w : Nat) : Agree (finishCode c w s) (finishCode c w t) := by
  have hf := agree_finishCode_first h c w s.first
  rwa [show { t with first := s.first } = t by rw [h.first]] at hf

theorem overflows_iff_of_agree (str : ByteStr) : overflows str s ↔ overflows str t := by
  rw [overflows, overflows, h.ocap, h.olen]

/-- Emissions from states that agree fault alike, or go on from states that agree. -/
theorem agree_emitThen {str : ByteStr} {c : Code} {rest rest' : State → Result}
    (hrest : Agree (storeStr str s) (storeStr str t) →
      Result.agree (rest (storeStr str s)) (rest' (storeStr str t))) :
    Result.agree (emitThen str c rest s) (emitThen str c rest' t) := by
  by_cases ho : overflows str s
  · rw [emitThen, emitThen, if_pos ho, if_pos ((overflows_iff_of_agree h str).mp ho)]
    exact agree_raise h .ovf c
  · rw [emitThen, emitThen, if_neg ho, if_neg (mt (overflows_iff_of_agree h str).mpr ho)]
    exact hrest (agree_storeStr h ho)

/-! ### The meanings keep agreement: PREV is read outside first position only (`93_implementation_defined.md` U10) -/

/-- Outside first position the two machines have the same `DICT[PREV]`. -/
theorem lookup_prev_of_agree (hf : s.first = false) : lookup s.prev.toNat s = lookup t.prev.toNat t := by
  rw [h.prev hf, h.table]

theorem agree_execKnown (hf : s.first = false) (str : ByteStr) (c : Code) :
    Result.agree (execKnown str c s) (execKnown str c t) := by
  refine agree_emitThen h fun hs => ?_
  rw [← h.cw]
  by_cases hr : hasRoom (storeStr str s)
  · rw [if_pos hr, if_pos ((hasRoom_iff_of_agree hs).mp hr), ← lookup_prev_of_agree hs hf]
    cases lookup (storeStr str s).prev.toNat (storeStr str s) with
    | none => rfl
    | some p => exact agree_finishCode (agree_append hs _) c _
  · rw [if_neg hr, if_neg (mt (hasRoom_iff_of_agree hs).mpr hr)]
    exact agree_finishCode hs c _

theorem agree_execClr : Result.agree (execClr s) (execClr t) := by
  rw [execClr, execClr, ← h.cw]
  exact agree_advance (agree_clearTable_first h) _

theorem agree_execEoi : Result.agree (execEoi s) (execEoi t) := by
  have hdone : Agree { s with state := .done } { t with state := .done } := { h with state := rfl }
  rw [execEoi, execEoi, ← show s.cw.toNat = t.cw.toNat by rw [h.cw]]
  exact agree_advance hdone _

theorem agree_execLit (c : Code) : Result.agree (execLit c s) (execLit c t) := by
  cases hf : s.first with
  | false =>
    rw [execLit_known hf, execLit_known (h.first ▸ hf)]
    exact agree_execKnown h hf _ c
  | true =>
    rw [execLit, execLit, if_pos hf, if_pos (h.first ▸ hf)]
    refine agree_emitThen h fun hs => ?_
    rw [← h.cw]
    exact agree_finishCode_first hs c _ false

theorem agree_execRef (hf : s.first = false) (c : Code) : Result.agree (execRef c s) (execRef c t) := by
  rw [execRef, execRef, ← h.table]
  cases lookup c.toNat s with
  | none => rfl
  | some str => exact agree_execKnown h hf str c

theorem agree_execKwk (hf : s.first = false) (c : Code) : Result.agree (execKwk c s) (execKwk c t) := by
  rw [execKwk, execKwk, ← lookup_prev_of_agree h hf, ← h.cw]
  cases lookup s.prev.toNat s with
  | none => rfl
  | some p => exact agree_emitThen h fun hs => agree_finishCode (agree_appendIfRoom hs _) c _

/-- A decoded code runs alike: only LIT can be a data code in first position, and there it does not read PREV. -/
theorem agree_exec_decoded {bytes : List Byte} {i : Instr}
    (hd : decode (codeCtx s) bytes s.ibit.toNat = .ok i) : Result.agree (exec i s) (exec i t) := by
  obtain ⟨c, -, -, ⟨rfl, -⟩ | ⟨rfl, -⟩ | ⟨rfl, -⟩ | ⟨rfl, -⟩ | ⟨rfl, hf, -⟩ | ⟨rfl, hf, -⟩⟩ := decode_ok_cases hd
  · exact agree_execClr h
  · exact agree_execEoi h
  · exact agree_execLit h c
  · exact agree_raise h .code c
  · exact agree_execRef h hf c
  · exact agree_execKwk h hf c

/-! ### A step keeps agreement -/

theorem codeCtx_eq_of_agree : codeCtx s = codeCtx t := by
  rw [codeCtx, codeCtx, h.mcs, h.cw, h.next, h.first]

theorem inputExhausted_iff_of_agree : inputExhausted s ↔ inputExhausted t := by
  rw [inputExhausted, inputExhausted, bitpos, bitpos, h.ilen, h.cursor.1, h.cursor.2, h.cw]

/-- The window of an available code lies below ILEN (`20_memory.md` R69), where the two inputs are the same. -/
theorem fetchWindow_eq_of_agree (he : ¬ inputExhausted s) : fetchWindow s = fetchWindow t := by
  rw [fetchWindow, fetchWindow, windowLen, windowLen, ← h.cursor.1, ← h.cursor.2, ← h.cw]
  refine Memory.readList_congr _ _ _ _ fun j hj => h.input _ ?_
  unfold inputExhausted bitpos at he
  omega

theorem agree_fetchAndExec : Result.agree (fetchAndExec s) (fetchAndExec t) := by
  by_cases he : inputExhausted s
  · rw [fetchAndExec, fetchAndExec, if_pos he, if_pos ((inputExhausted_iff_of_agree h).mp he)]
    exact agree_raise h .trunc 0
  · rw [fetchAndExec, fetchAndExec, if_neg he, if_neg (mt (inputExhausted_iff_of_agree h).mpr he),
      ← fetchWindow_eq_of_agree h he, ← codeCtx_eq_of_agree h, ← h.cursor.2]
    cases fetchWindow s with
    | none => rfl
    | some bytes =>
      cases hd : decode (codeCtx s) bytes s.ibit.toNat with
      | error e => simp [hd, Result.agree]
      | ok i => simpa [hd] using agree_exec_decoded h hd

theorem agree_engineTurn : Result.agree (engineTurn s) (engineTurn t) := by
  by_cases hr : s.state = .run
  · rw [engineTurn, engineTurn, if_pos hr, if_pos (h.state ▸ hr)]
    exact agree_fetchAndExec h
  · rw [engineTurn, engineTurn, if_neg hr, if_neg (h.state ▸ hr)]
    exact h

theorem agree_step (hs : hostSilent s) (ht : hostSilent t) : Result.agree (step s) (step t) := by
  rw [step_of_silent hs, step_of_silent ht]
  exact agree_engineTurn h

end

/-! ### Runs -/

/-- The engine's turn leaves the outside world alone. -/
theorem engineTurn_host {s t : State} (ht : engineTurn s = .next t) : t.host = s.host := by
  rcases engineTurn_cases ht with ⟨-, rfl⟩ | ⟨-, -, rfl⟩ | ⟨-, -, bytes, i, -, hd, hx⟩
  · rfl
  · rfl
  · have data : ∀ {c : Code}, (i = .lit c ∨ i = .ref c ∨ i = .kwk c) → t.host = s.host := fun hi => by
      obtain ⟨str, -, ⟨-, rfl⟩ | ⟨-, -, -, -, -, -, -, -, hhost, -⟩⟩ := exec_data_cases hi hx
      · rfl
      · exact hhost
    obtain ⟨c, -, -, ⟨rfl, -⟩ | ⟨rfl, -⟩ | ⟨rfl, -⟩ | ⟨rfl, -⟩ | ⟨rfl, -⟩ | ⟨rfl, -⟩⟩ := decode_ok_cases hd
    · injection hx with hx; rw [← hx]; rfl
    · injection hx with hx; rw [← hx]; rfl
    · exact data (.inl rfl)
    · injection hx with hx; rw [← hx]; rfl
    · exact data (.inr (.inl rfl))
    · exact data (.inr (.inr rfl))

/-- A machine whose script is empty still has an empty one after a step. -/
theorem hostSilent_step {s t : State} (hs : hostSilent s) (ht : step s = .next t) : hostSilent t := by
  rw [step_of_silent hs] at ht
  rw [hostSilent, engineTurn_host ht]
  exact hs

/-- Outcomes that agree are both next states that agree, or the same stop. -/
theorem agree_cases {r r' : Result} (h : Result.agree r r') :
    (∃ s t, r = .next s ∧ r' = .next t ∧ Agree s t) ∨
    (∃ e, r = .fault e ∧ r' = .fault e) ∨ ∃ e, r = .refused e ∧ r' = .refused e := by
  cases r <;> cases r'
  case next.next s t => exact .inl ⟨s, t, rfl, rfl, h⟩
  case fault.fault e f => exact .inr (.inl ⟨e, rfl, congrArg _ h.symm⟩)
  case refused.refused e f => exact .inr (.inr ⟨e, rfl, congrArg _ h.symm⟩)
  all_goals exact h.elim

/-- A run stops at its first fault. -/
theorem run_succ_of_fault (n : Nat) {s : State} {e : Fault} (h : step s = .fault e) :
    core.run (n + 1) s = .fault e := by
  have h' : core.step s = .fault e := h
  simp only [Host.Core.run, h']

/-- A run stops at its first refusal. -/
theorem run_succ_of_refused (n : Nat) {s : State} {e : Refusal} (h : step s = .refused e) :
    core.run (n + 1) s = .refused e := by
  have h' : core.step s = .refused e := h
  simp only [Host.Core.run, h']

/-- Silent machines that agree still agree after every number of steps, or have stopped for the same reason. -/
theorem agree_run (n : Nat) {s t : State} (h : Agree s t) (hs : hostSilent s) (ht : hostSilent t) :
    Result.agree (core.run n s) (core.run n t) := by
  induction n generalizing s t with
  | zero => exact h
  | succ n ih =>
    rcases agree_cases (agree_step h hs ht) with ⟨s', t', hs', ht', h'⟩ | ⟨e, hs', ht'⟩ | ⟨e, hs', ht'⟩
    · rw [run_succ n s s' hs', run_succ n t t' ht']
      exact ih h' (hostSilent_step hs hs') (hostSilent_step ht ht')
    · rw [run_succ_of_fault n hs', run_succ_of_fault n ht']
      rfl
    · rw [run_succ_of_refused n hs', run_succ_of_refused n ht']
      rfl

/-- The state a run starts in, from a machine with the configuration of `s` (`44_host_commands.md` R190). -/
def startedRun (s : State) : State := { initRun s with errcode := .none, errval := 0, state := .run }

theorem exec_start_of_configOk {s : State} (hr : s.state ≠ .run) (hc : configOk s) :
    exec .start s = .next (startedRun s) := by
  rw [exec, execStart, if_neg hr, if_neg (not_not.mpr hc), startedRun]

/-- START writes every register and the whole table from MCS, ILEN and OCAP alone, and empties the output. -/
theorem agree_startedRun {s t : State} (hm : s.mcs = t.mcs) (hl : s.ilen = t.ilen) (hc : s.ocap = t.ocap)
    (hi : ∀ a, a < s.ilen.toNat → Memory.read s.ibuf a = Memory.read t.ibuf a) :
    Agree (startedRun s) (startedRun t) where
  state := rfl
  errcode := rfl
  first := rfl
  mcs := hm
  ilen := hl
  ocap := hc
  olen := rfl
  cursor := ⟨rfl, rfl⟩
  cw := by simp [startedRun, hm]
  next := by simp [startedRun, hm]
  prev := fun _ => rfl
  errval := rfl
  table := fun i => lookup_congr (by simp [startedRun, hm]) i
  input := hi
  output := fun _ ha => absurd ha (Nat.not_lt_zero _)

/-- Settles O55: START makes the two machines agree, and agreement is kept by every step of silent machines. -/
theorem runDeterminedByInputs : Obligations.RunDeterminedByInputs := by
  unfold Obligations.RunDeterminedByInputs
  intro s t hrs hrt hcs hct hm hl hc hi hs ht
  exact ⟨startedRun s, startedRun t, exec_start_of_configOk hrs hcs, exec_start_of_configOk hrt hct,
    fun n => agree_run n (agree_startedRun hm hl hc hi) hs ht⟩

end Sys2Proof.Machine
end

section
/-! PROOFS. The transitions of STATE (`10_state.md` R24): what the next step is for each event of the table (START, a
reset, the engine's turn), and that every other move of the host leaves STATE as it is. -/

namespace Sys2Proof.Machine

/-! ### The commands of CTRL (`30_encoding.md` R99) -/

theorem decodeCtrl_eq_reset_iff {v : Word} : decodeCtrl v = .ok .reset ↔ v.getLsbD 1 = true := by
  unfold decodeCtrl
  split
  · next h1 => exact iff_of_true rfl h1
  · next h1 => split <;> exact iff_of_false nofun h1

theorem decodeCtrl_eq_start_iff {v : Word} :
    decodeCtrl v = .ok .start ↔ v.getLsbD 1 = false ∧ v.getLsbD 0 = true := by
  unfold decodeCtrl
  split
  · next h1 => exact iff_of_false nofun fun h => absurd (h1.symm.trans h.1) nofun
  · next h1 =>
    split
    · next h0 => exact iff_of_true rfl ⟨Bool.eq_false_of_not_eq_true h1, h0⟩
    · next h0 => exact iff_of_false nofun fun h => h0 h.2

/-! ### The step of each event -/

theorem step_of_script {s : State} {m : HostMove} {rest : List HostMove} (h : s.host.script = m :: rest) :
    step s = hostMove m (popMove s) := by
  rw [step, takeTurn, h]

theorem hostMove_writeCtrl {v : Word} {i : Instr} (h : decodeCtrl v = .ok i) (s : State) :
    hostMove (.writeReg 0 v) s = exec i s := by
  rw [hostMove, if_pos rfl, writeCtrl, h]

/-- A START command is executed by the machine that has taken it off the script (`44_host_commands.md` R190). -/
theorem step_of_startNext {s : State} (h : startNext s) : step s = execStart (popMove s) := by
  obtain ⟨v, rest, hs, h1, h0⟩ := h
  rw [step_of_script hs, hostMove_writeCtrl (decodeCtrl_eq_start_iff.mpr ⟨h1, h0⟩), exec]

/-- Both kinds of reset, by command and by the platform, answer a next state from every state
(`70_reset_and_hazards.md` R240). -/
theorem step_of_resetNext {s : State} (h : resetNext s) :
    step s = .next (resetRegisters (popMove s)) ∨ step s = .next (hardwareReset (popMove s)) := by
  obtain ⟨v, rest, hs, h1⟩ | ⟨rest, hs⟩ := h
  · left
    rw [step_of_script hs, hostMove_writeCtrl (decodeCtrl_eq_reset_iff.mpr h1), exec, execReset]
  · right
    rw [step_of_script hs, hostMove]

/-- `step_engineTurn` with the machine of the turn named. -/
theorem engineTurn_of_step {s t : State} (h : engineTurnNext s) (ht : step s = .next t) :
    engineTurn (popMove s) = .next t := by
  obtain ⟨s', rfl, ht⟩ := step_engineTurn h ht
  exact ht

/-! ### What each event does to STATE -/

/-- START leaves a run running, starts one where the configuration is legal, and faults where it is not
(`44_host_commands.md` R190, R192). -/
theorem start_step_state {s t : State} (h : startNext s) (ht : step s = .next t) :
    (s.state = .run → t.state = .run) ∧ (configOk s → t.state = .run) ∧
    (s.state ≠ .run → ¬ configOk s → t.state = .err ∧ t.errcode = .cfg) := by
  rw [step_of_startNext h] at ht
  obtain ⟨hr, rfl⟩ | ⟨hr, hc, rfl⟩ | ⟨hr, hc, rfl⟩ := execStart_cases ht
  · exact ⟨id, fun _ => hr, fun hn => absurd hr hn⟩
  · exact ⟨fun h => absurd h hr, fun h => absurd h hc, fun _ _ => ⟨rfl, rfl⟩⟩
  · exact ⟨fun _ => rfl, fun _ => rfl, fun _ hn => absurd hc hn⟩

theorem reset_step_state {s t : State} (h : resetNext s) (ht : step s = .next t) : t.state = .idle := by
  obtain hs | hs := step_of_resetNext h <;>
  · rw [hs] at ht
    injection ht with ht
    rw [← ht]
    rfl

/-- EOI is the one code that ends a run well; any other goes on with it or faults (`42_control_codes.md` R163). -/
theorem exec_decoded_state {s t : State} {bytes : List Byte} {i : Instr}
    (hd : decode (codeCtx s) bytes s.ibit.toNat = .ok i) (hx : exec i s = .next t) :
    (i = .eoi ∧ t.state = .done) ∨ (i ≠ .eoi ∧ (t.state = s.state ∨ t.state = .err)) := by
  have data : ∀ {c : Code}, (i = .lit c ∨ i = .ref c ∨ i = .kwk c) → t.state = s.state ∨ t.state = .err := fun hi => by
    obtain ⟨str, -, ⟨-, rfl⟩ | ⟨-, hstate, -⟩⟩ := exec_data_cases hi hx
    · exact .inr rfl
    · exact .inl hstate
  obtain ⟨c, -, -, ⟨rfl, -⟩ | ⟨rfl, -⟩ | ⟨rfl, -⟩ | ⟨rfl, -⟩ | ⟨rfl, -⟩ | ⟨rfl, -⟩⟩ := decode_ok_cases hd
  · injection hx with hx
    exact .inr ⟨nofun, .inl (by rw [← hx]; rfl)⟩
  · injection hx with hx
    exact .inl ⟨rfl, by rw [← hx]; rfl⟩
  · exact .inr ⟨nofun, data (.inl rfl)⟩
  · injection hx with hx
    exact .inr ⟨nofun, .inr (by rw [← hx]; rfl)⟩
  · exact .inr ⟨nofun, data (.inr (.inl rfl))⟩
  · exact .inr ⟨nofun, data (.inr (.inr rfl))⟩

theorem engineTurn_state {s t : State} (hr : s.state = .run) (ht : engineTurn s = .next t) :
    t.state = .run ∨ t.state = .err ∨ (t.state = .done ∧ ∃ bytes, fetchWindow s = some bytes ∧
      decode (codeCtx s) bytes s.ibit.toNat = .ok .eoi) := by
  obtain ⟨-, rfl⟩ | ⟨-, bytes, i, hw, hd, hx⟩ := engineTurn_run_cases hr ht
  · exact .inr (.inl rfl)
  · obtain ⟨rfl, hdone⟩ | ⟨-, hrun | herr⟩ := exec_decoded_state hd hx
    · exact .inr (.inr ⟨hdone, bytes, hw, hd⟩)
    · exact .inl (hrun.trans hr)
    · exact .inr (.inl herr)

theorem engineTurn_eoi_state {s t : State} {bytes : List Byte} (hr : s.state = .run) (he : ¬ inputExhausted s)
    (hw : fetchWindow s = some bytes) (hd : decode (codeCtx s) bytes s.ibit.toNat = .ok .eoi)
    (ht : engineTurn s = .next t) : t.state = .done := by
  rw [engineTurn_run hr he hw hd] at ht
  obtain ⟨-, hdone⟩ | ⟨hne, -⟩ := exec_decoded_state hd ht
  · exact hdone
  · exact absurd rfl hne

/-- A move of the host that is neither a command nor a reset nor the wait for the engine leaves STATE as it is. -/
theorem other_step_state {s t : State} (hstart : ¬ startNext s) (hreset : ¬ resetNext s) (hengine : ¬ engineTurnNext s)
    (ht : step s = .next t) : t.state = s.state := by
  obtain ⟨hs, -⟩ | ⟨m, rest, hs, hm⟩ := step_cases s
  · exact absurd (.inl hs) hengine
  · rw [hm] at ht
    obtain ⟨v, rfl, hv⟩ | ⟨n, v, -, -, rfl⟩ | ⟨n, -, rfl⟩ | ⟨a, b, -, -, -, rfl⟩ | ⟨a, b, -, -, rfl⟩ | ⟨rfl, -⟩ |
      ⟨rfl, -⟩ := hostMove_cases ht
    · obtain ⟨hd, -⟩ | ⟨hd, -⟩ | ⟨-, hw⟩ := writeCtrl_cases v (popMove s)
      · exact absurd (.inl ⟨v, rest, hs, decodeCtrl_eq_reset_iff.mp hd⟩) hreset
      · exact absurd ⟨v, rest, hs, decodeCtrl_eq_start_iff.mp hd⟩ hstart
      · rw [hw] at hv
        injection hv with hv
        rw [← hv, popMove_state]
    · exact (writeReg_frame n v (popMove s)).1
    · rfl
    · rfl
    · rfl
    · exact absurd (.inr ⟨rest, hs⟩) hreset
    · exact absurd (.inr ⟨rest, hs⟩) hengine

/-- Outside RUN, STATE changes by START and by a reset only; the engine's turn does nothing there
(`70_reset_and_hazards.md` R242). -/
theorem quiescent_step_state {s t : State} (hr : s.state ≠ .run) (hstart : ¬ startNext s) (hreset : ¬ resetNext s)
    (ht : step s = .next t) : t.state = s.state := by
  by_cases hengine : engineTurnNext s
  · rw [engineTurn_idle (s := popMove s) hr (engineTurn_of_step hengine ht), popMove_state]
  · exact other_step_state hstart hreset hengine ht

/-- In RUN every move of the host but a reset leaves the run running; START is ignored (`44_host_commands.md` R192). -/
theorem running_step_state {s t : State} (hr : s.state = .run) (hreset : ¬ resetNext s) (hengine : ¬ engineTurnNext s)
    (ht : step s = .next t) : t.state = .run := by
  by_cases hstart : startNext s
  · obtain ⟨ignored, -, -⟩ := start_step_state hstart ht
    exact ignored hr
  · exact (other_step_state hstart hreset hengine ht).trans hr

/-- Settles O41: each clause is the transition of its event. -/
theorem stateTransitions : Obligations.StateTransitions := by
  unfold Obligations.StateTransitions
  refine ⟨rfl, fun s t ht => ⟨fun hr => ⟨?_, ?_, ?_, ?_⟩, fun hr => ⟨?_, ?_, ?_, ?_, ?_⟩⟩⟩
  · intro hstart hc
    obtain ⟨-, legal, -⟩ := start_step_state hstart ht
    exact legal hc
  · intro hstart hc
    obtain ⟨-, -, illegal⟩ := start_step_state hstart ht
    exact illegal hr hc
  · exact fun hreset => reset_step_state hreset ht
  · exact fun hstart hreset => quiescent_step_state hr hstart hreset ht
  · exact fun hreset => reset_step_state hreset ht
  · intro hstart
    obtain ⟨ignored, -, -⟩ := start_step_state hstart ht
    exact ignored hr
  · exact fun hreset hengine => running_step_state hr hreset hengine ht
  · exact fun hengine => engineTurn_state (s := popMove s) hr (engineTurn_of_step hengine ht)
  · exact fun hengine _ he hw hd =>
      engineTurn_eoi_state (s := popMove s) hr he hw hd (engineTurn_of_step hengine ht)

end Sys2Proof.Machine
end

section
/-! PROOFS. What a reset leaves (`10_state.md` R45): blank registers, which read 0, and after hardware reset memories in
which no cell holds a value, so that a read of one is a fault of the model. -/

namespace Sys2Proof.Machine

/-! ### Blank registers -/

theorem registersBlank_resetRegisters (s : State) : RegistersBlank (resetRegisters s) :=
  ⟨rfl, rfl, rfl, rfl, rfl, rfl, rfl, ⟨rfl, rfl⟩, rfl, rfl, rfl, rfl⟩

theorem registersBlank_hardwareReset (s : State) : RegistersBlank (hardwareReset s) :=
  { registersBlank_resetRegisters s with }

theorem registersBlank_reset : RegistersBlank State.reset :=
  ⟨rfl, rfl, rfl, rfl, rfl, rfl, rfl, ⟨rfl, rfl⟩, rfl, rfl, rfl, rfl⟩

/-- STATUS reads 0 in IDLE without an error, FIRST or FULL (`10_state.md` R23). -/
theorem statusReg_of_blank {s : State} (h : RegistersBlank s) : statusReg s = 0 := by
  rw [statusReg, fullFlag, h.next, h.first, h.errcode, h.state]
  decide

theorem readReg_of_blank {s : State} (h : RegistersBlank s) (n : Nat) : readReg n s = 0 := by
  unfold readReg
  split
  · rw [statusReg_of_blank h]; rfl
  · rw [h.mcs]; rfl
  · exact h.ilen
  · exact h.ocap
  · exact h.olen
  · exact h.cursor.1
  · rw [h.cursor.2]; rfl
  · rw [h.cw]; rfl
  · rw [h.next]; rfl
  · rw [h.prev]; rfl
  · rw [h.errval]; rfl
  · rfl

/-! ### Host reads of a byte nothing has written -/

theorem bufferAccess_of_lt {a size : Nat} {s : State} (hr : s.state ≠ .run) (ha : a < size) (go : Result) :
    bufferAccess a size s go = go := by
  rw [bufferAccess, if_neg hr, if_neg (Nat.not_le.mpr ha)]

theorem hostMove_readIbuf_unwritten {a : Nat} {s : State} (hr : s.state ≠ .run) (ha : a < s.cfg.ibufSize.val)
    (hb : Memory.read s.ibuf a = none) : hostMove (.readIbuf a) s = .fault .unwrittenByte := by
  rw [hostMove, bufferAccess_of_lt hr ha, hb, answerByte]

theorem hostMove_readObuf_unwritten {a : Nat} {s : State} (hr : s.state ≠ .run) (ha : a < s.cfg.obufSize.val)
    (hb : Memory.read s.obuf a = none) : hostMove (.readObuf a) s = .fault .unwrittenByte := by
  rw [hostMove, bufferAccess_of_lt hr ha, hb, answerByte]

/-- Settles O37: both resets blank the registers, and hardware reset leaves empty memories. -/
theorem resetValues : Obligations.ResetValues := by
  unfold Obligations.ResetValues
  have idle : State.reset.state ≠ .run := nofun
  refine ⟨registersBlank_reset, readReg_of_blank registersBlank_reset, fun _ => ⟨rfl, rfl, rfl⟩,
    fun _ ha => hostMove_readIbuf_unwritten idle ha rfl, fun _ ha => hostMove_readObuf_unwritten idle ha rfl, ?_, ?_⟩
  · intro s rest hs
    refine ⟨hardwareReset (popMove s), step_of_script hs, registersBlank_hardwareReset _, fun _ => ⟨rfl, rfl, rfl⟩, rfl, ?_⟩
    rw [hardwareReset_host, popMove_host, hs, List.tail_cons]
  · intro s t ht
    injection ht with ht
    rw [← ht]
    exact ⟨registersBlank_resetRegisters s, rfl, rfl, rfl⟩

end Sys2Proof.Machine
end

section
/-! PROOFS. The encodings: the class of a code (`30_encoding.md` R94), the codes that are illegal (R98), and the command in a
value written to CTRL (R99). -/

namespace Sys2Proof.Machine

/-! ### The class of a code (`30_encoding.md` R94) -/

/-- The condition a code meets in the line of R94 of an instruction. -/
def Selects (x : CodeCtx) (c : Code) : Instr → Prop
  | .clr => c.toNat = clearCode x.mcs
  | .eoi => c.toNat = eoiCode x.mcs
  | .lit d => d = c ∧ c.toNat < clearCode x.mcs
  | .ref d => d = c ∧ x.first = false ∧ clearCode x.mcs + 2 ≤ c.toNat ∧ c.toNat < x.next.toNat
  | .kwk d => d = c ∧ x.first = false ∧ clearCode x.mcs + 2 ≤ c.toNat ∧ c.toNat = x.next.toNat
  | .bad d => d = c ∧ clearCode x.mcs + 2 ≤ c.toNat ∧ (x.first = true ∨ x.next.toNat < c.toNat)
  | .start => False
  | .reset => False

theorem selects_classify (x : CodeCtx) (c : Code) : Selects x c (classify x c) := by
  obtain ⟨e, h⟩ | ⟨e, h⟩ | ⟨e, h⟩ | ⟨e, hf, hlo⟩ | ⟨e, h⟩ | ⟨e, h⟩ | ⟨e, -, hlo, hhi⟩ := classify_cases x c <;> rw [e]
  · exact h
  · exact h
  · exact ⟨rfl, h⟩
  · exact ⟨rfl, hlo, .inl hf⟩
  · exact ⟨rfl, h⟩
  · exact ⟨rfl, h⟩
  · exact ⟨rfl, hlo, .inr hhi⟩

/-- Neither control code nor a literal is left from CC + 2 on: the last four tests decide. -/
theorem classify_of_le {x : CodeCtx} {c : Code} (h : clearCode x.mcs + 2 ≤ c.toNat) :
    classify x c = if x.first then .bad c else if c.toNat < x.next.toNat then .ref c
      else if c.toNat = x.next.toNat then .kwk c else .bad c := by
  rw [classify, eoiCode, if_neg (by omega), if_neg (by omega), if_neg (by omega)]

theorem classify_of_selects {x : CodeCtx} {c : Code} {i : Instr} (h : Selects x c i) : classify x c = i := by
  cases i with
  | clr => exact if_pos h
  | eoi =>
    have hc : c.toNat = clearCode x.mcs + 1 := h
    rw [classify, eoiCode, if_neg (by omega), if_pos hc]
  | lit d =>
    obtain ⟨rfl, hc⟩ := h
    rw [classify, eoiCode, if_neg (by omega), if_neg (by omega), if_pos hc]
  | ref d =>
    obtain ⟨rfl, hf, hlo, hc⟩ := h
    simp [classify_of_le hlo, hf, hc]
  | kwk d =>
    obtain ⟨rfl, hf, hlo, hc⟩ := h
    simp [classify_of_le hlo, hf, hc]
  | bad d =>
    obtain ⟨rfl, hlo, hf | hc⟩ := h
    · rw [classify_of_le hlo, if_pos hf]
    · rw [classify_of_le hlo, if_neg (Nat.lt_asymm hc), if_neg (Nat.ne_of_gt hc), ite_self]
  | start => exact h.elim
  | reset => exact h.elim

/-- An instruction is the class of a code exactly under its condition, so the conditions exclude one another. -/
theorem classify_eq_iff {x : CodeCtx} {c : Code} {i : Instr} : classify x c = i ↔ Selects x c i :=
  ⟨fun h => h ▸ selects_classify x c, classify_of_selects⟩

/-- The two BAD lines of R94, where NEXT has passed the control codes. -/
theorem classify_eq_bad_iff {x : CodeCtx} {c : Code} (hn : clearCode x.mcs + 2 ≤ x.next.toNat) :
    classify x c = .bad c ↔
      (x.first = true ∧ clearCode x.mcs + 2 ≤ c.toNat) ∨ (x.first = false ∧ x.next.toNat < c.toNat) := by
  rw [classify_eq_iff]
  constructor
  · rintro ⟨-, hlo, h⟩
    cases hf : x.first
    · exact .inr ⟨rfl, h.resolve_left (by simp [hf])⟩
    · exact .inl ⟨rfl, hlo⟩
  · rintro (⟨hf, hlo⟩ | ⟨-, hhi⟩)
    · exact ⟨rfl, hlo, .inl hf⟩
    · exact ⟨rfl, by omega, .inr hhi⟩

/-- The KWK line of R94, where NEXT has passed the control codes. -/
theorem classify_eq_kwk_iff {x : CodeCtx} {c : Code} (hn : clearCode x.mcs + 2 ≤ x.next.toNat) :
    classify x c = .kwk c ↔ x.first = false ∧ c.toNat = x.next.toNat := by
  rw [classify_eq_iff]
  exact ⟨fun ⟨_, hf, _, hc⟩ => ⟨hf, hc⟩, fun ⟨hf, hc⟩ => ⟨rfl, hf, by omega, hc⟩⟩

/-- Both LIT lines of R94 test the code against CC. -/
theorem classify_eq_lit_iff {x : CodeCtx} {c : Code} : classify x c = .lit c ↔ c.toNat < clearCode x.mcs :=
  classify_eq_iff.trans ⟨And.right, fun h => ⟨rfl, h⟩⟩

theorem classify_eq_ref_iff {x : CodeCtx} {c : Code} :
    classify x c = .ref c ↔ x.first = false ∧ clearCode x.mcs + 2 ≤ c.toNat ∧ c.toNat < x.next.toNat :=
  classify_eq_iff.trans ⟨And.right, fun h => ⟨rfl, h⟩⟩

theorem classify_is_a_class (x : CodeCtx) (c : Code) :
    classify x c = .clr ∨ classify x c = .eoi ∨ classify x c = .lit c ∨ classify x c = .ref c ∨
      classify x c = .kwk c ∨ classify x c = .bad c := by
  obtain ⟨e, -⟩ | ⟨e, -⟩ | ⟨e, -⟩ | ⟨e, -⟩ | ⟨e, -⟩ | ⟨e, -⟩ | ⟨e, -⟩ := classify_cases x c <;> simp [e]

/-- Settles O4: each class by the condition of its lines; a code of 12 bits is never 4096. -/
theorem classSelection : Obligations.ClassSelection := by
  unfold Obligations.ClassSelection
  intro x c _ hn _
  refine ⟨classify_eq_iff, classify_eq_iff, ?_, classify_eq_ref_iff, classify_eq_kwk_iff hn, classify_eq_bad_iff hn,
    classify_is_a_class x c, ?_⟩
  · rw [classify_eq_lit_iff]
    cases x.first <;> simp
  · intro hfull hk
    obtain ⟨-, hc⟩ := (classify_eq_kwk_iff hn).mp hk
    exact absurd (hc.trans hfull) (Nat.ne_of_lt c.isLt)

/-! ### Illegal codes (`30_encoding.md` R98) -/

/-- The codes that emit leave ERRCODE or set it to ERR_OVF (`41_dictionary.md` R151). -/
theorem exec_data_errcode {i : Instr} {c : Code} {s t : State} (hi : i = .lit c ∨ i = .ref c ∨ i = .kwk c)
    (hx : exec i s = .next t) : t.errcode = .ovf ∨ t.errcode = s.errcode := by
  obtain ⟨str, -, ⟨-, rfl⟩ | ⟨-, -, hkept, -⟩⟩ := exec_data_cases hi hx
  · exact .inl rfl
  · exact .inr hkept

/-- Of the classes of a code only BAD raises ERR_CODE (`43_data_codes.md` R180, R181). -/
theorem classify_eq_bad_of_codeFault {x : CodeCtx} {c : Code} {s t : State} (hs : s.errcode = .none)
    (hx : exec (classify x c) s = .next t) (ht : t.errcode = .code) : classify x c = .bad c := by
  have kept : t.errcode ≠ s.errcode := by simp [hs, ht]
  have data : ¬ (classify x c = .lit c ∨ classify x c = .ref c ∨ classify x c = .kwk c) := fun hi =>
    (exec_data_errcode hi hx).elim (by simp [ht]) kept
  obtain e | e | e | e | e | e := classify_is_a_class x c
  · rw [e] at hx
    injection hx with hx
    exact absurd (by rw [← hx]; rfl) kept
  · rw [e] at hx
    injection hx with hx
    exact absurd (by rw [← hx]; rfl) kept
  · exact absurd (.inl e) data
  · exact absurd (.inr (.inl e)) data
  · exact absurd (.inr (.inr e)) data
  · exact e

/-- BAD is its fault entry (`43_data_codes.md` R180). -/
theorem exec_bad (c : Code) (s : State) : exec (.bad c) s = .next (raise .code c s) := rfl

/-- The step of a silent machine in RUN whose code is there executes the class of the code. -/
theorem step_of_fetched {s : State} {bytes : List Byte} (h : RunInv s) (hr : s.state = .run) (hs : hostSilent s)
    (he : ¬ inputExhausted s) (hw : fetchWindow s = some bytes) :
    ∃ c : Code, c.toNat = assemble bytes s.ibit.toNat s.cw.toNat ∧ step s = exec (classify (codeCtx s) c) s := by
  obtain ⟨i, hd⟩ := decode_some h hw
  obtain ⟨hx, -, hi⟩ := decode_eq_ok.mp hd
  exact ⟨_, assembled_code_toNat hx bytes s.ibit.toNat, by rw [step_of_silent hs, engineTurn_run hr he hw hd, hi]⟩

/-- Settles O18: the step executes the class of the code, and only BAD raises ERR_CODE. -/
theorem illegalCodesExactly : Obligations.IllegalCodesExactly := by
  unfold Obligations.IllegalCodesExactly
  intro s bytes hinv hr hs he hw
  have hrun := hinv.running hr
  obtain ⟨c, hc, hstep⟩ := step_of_fetched hrun hr hs he hw
  have hbad := classify_eq_bad_iff (x := codeCtx s) (c := c) hrun.nextLow
  rw [hstep, ← hc]
  refine ⟨⟨?_, ?_⟩, ?_⟩
  · rintro ⟨t, hx, ht⟩
    exact (hbad.mp (classify_eq_bad_of_codeFault (hinv.errNone hr) hx ht)).symm
  · intro h
    rw [hbad.mpr h.symm]
    exact ⟨_, exec_bad c s, rfl⟩
  · intro t hx ht
    rw [classify_eq_bad_of_codeFault (hinv.errNone hr) hx ht, exec_bad] at hx
    injection hx with hx
    rw [← hx]
    exact ⟨rfl, rfl, rfl⟩

/-! ### The command in a CTRL write (`30_encoding.md` R99) -/

theorem decodeCtrl_eq_noCommand {v : Word} (h1 : v.getLsbD 1 = false) (h0 : v.getLsbD 0 = false) :
    decodeCtrl v = .error .noCommand := by
  rw [decodeCtrl, h1, h0]
  rfl

theorem hostMove_writeCtrl_noCommand {v : Word} (h : decodeCtrl v = .error .noCommand) (s : State) :
    hostMove (.writeReg 0 v) s = .next s := by
  rw [hostMove, if_pos rfl, writeCtrl, h]

/-- Settles O6: bits 1 and 0 decide, whatever is written above them. -/
theorem ctrlCommandSelection : Obligations.CtrlCommandSelection := by
  unfold Obligations.CtrlCommandSelection
  intro v
  have bit1 : v.getLsbD 1 = decide (v.toNat / 2 ^ 1 % 2 = 1) := Nat.testBit_eq_decide_div_mod_eq
  have bit0 : v.getLsbD 0 = decide (v.toNat / 2 ^ 0 % 2 = 1) := Nat.testBit_eq_decide_div_mod_eq
  refine ⟨fun h => ?_, fun h1 h0 => ?_, fun h => ?_⟩
  · exact decodeCtrl_eq_reset_iff.mpr (by simpa [h] using bit1)
  · exact decodeCtrl_eq_start_iff.mpr ⟨by simpa [h1] using bit1, by simpa [h0] using bit0⟩
  · have h1 : v.toNat / 2 % 2 = 0 := by omega
    have h0 : v.toNat % 2 = 0 := by omega
    have hno := decodeCtrl_eq_noCommand (by simpa [h1] using bit1) (by simpa [h0] using bit0)
    exact ⟨hno, hostMove_writeCtrl_noCommand hno⟩

end Sys2Proof.Machine
end

section
/-! PROOFS. The bit reader: a step with fewer than CW unread bits is the only one that takes ERR_TRUNC (`40_bitreader.md`
R120), and the cursor advances by the fetched width or stays (R122). -/

namespace Sys2Proof.Machine

@[simp] theorem bitpos_popMove (s : State) : bitpos (popMove s) = bitpos s := rfl

/-! ### How an engine step ends -/

/-- A decoded code ends in ERR_CODE or ERR_OVF with nothing else changed, or advances the cursor by the width it was fetched
with, which is the old CW whatever the code made of it (`40_bitreader.md` R122). -/
theorem exec_decoded_end {s t : State} {bytes : List Byte} {i : Instr} (hr : s.state = .run)
    (hd : decode (codeCtx s) bytes s.ibit.toNat = .ok i) (hx : exec i s = .next t) :
    (∃ e c, (e = .code ∨ e = .ovf) ∧ t = raise e c s) ∨
    (t.state ≠ .err ∧ t.errcode = s.errcode ∧ bitpos t = bitpos (advance s.cw.toNat s)) := by
  have data : ∀ {c : Code}, (i = .lit c ∨ i = .ref c ∨ i = .kwk c) →
      (∃ e c, (e = .code ∨ e = .ovf) ∧ t = raise e c s) ∨
      (t.state ≠ .err ∧ t.errcode = s.errcode ∧ bitpos t = bitpos (advance s.cw.toNat s)) := fun hi => by
    obtain ⟨str, -, ⟨-, rfl⟩ | ⟨-, hstate, herr, -, -, -, -, -, -, hiptr, hibit, -, -⟩⟩ := exec_data_cases hi hx
    · exact .inl ⟨.ovf, _, .inr rfl, rfl⟩
    · exact .inr ⟨by simp [hstate, hr], herr, by rw [bitpos, bitpos, hiptr, hibit]⟩
  obtain ⟨c, -, -, ⟨rfl, -⟩ | ⟨rfl, -⟩ | ⟨rfl, -⟩ | ⟨rfl, -⟩ | ⟨rfl, -⟩ | ⟨rfl, -⟩⟩ := decode_ok_cases hd
  · injection hx with hx
    subst hx
    exact .inr ⟨by simp [hr], rfl, rfl⟩
  · injection hx with hx
    subst hx
    exact .inr ⟨nofun, rfl, rfl⟩
  · exact data (.inl rfl)
  · injection hx with hx
    exact .inl ⟨.code, c, .inl rfl, hx.symm⟩
  · exact data (.inr (.inl rfl))
  · exact data (.inr (.inr rfl))

/-! ### Truncated input (`40_bitreader.md` R120) -/

/-- In a run the cursor is inside the input, so the subtraction of R120 is exact. -/
theorem RunInv.inputExhausted_iff {s : State} (h : RunInv s) :
    inputExhausted s ↔ 8 * s.ilen.toNat - bitpos s < s.cw.toNat := by
  have := h.cursor
  rw [inputExhausted]
  omega

theorem step_of_inputExhausted {s : State} (hr : s.state = .run) (hs : hostSilent s) (he : inputExhausted s) :
    step s = .next (raise .trunc 0 s) := by
  rw [step_of_silent hs, engineTurn, if_pos hr, fetchAndExec, if_pos he]

/-- A code that is there takes no ERR_TRUNC: its own faults are ERR_CODE and ERR_OVF. -/
theorem engineTurn_errcode_ne_trunc {s t : State} (hr : s.state = .run) (hn : s.errcode = .none)
    (he : ¬ inputExhausted s) (ht : engineTurn s = .next t) : t.errcode ≠ .trunc := by
  obtain ⟨he', -⟩ | ⟨-, bytes, i, -, hd, hx⟩ := engineTurn_run_cases hr ht
  · exact absurd he' he
  · obtain ⟨e, c, rfl | rfl, rfl⟩ | ⟨-, hkept, -⟩ := exec_decoded_end hr hd hx
    · exact nofun
    · exact nofun
    · simp [hkept, hn]

/-- Settles O24: the availability check fails exactly where R120's subtraction says so, and no other check raises
ERR_TRUNC. -/
theorem truncatedInput : Obligations.TruncatedInput := by
  unfold Obligations.TruncatedInput
  intro s hinv hr hs
  have hiff := (hinv.running hr).inputExhausted_iff
  refine ⟨fun hlt => step_of_inputExhausted hr hs (hiff.mpr hlt), fun hle t ht => ?_⟩
  rw [step_of_silent hs] at ht
  exact engineTurn_errcode_ne_trunc hr (hinv.errNone hr) (mt hiff.mp (Nat.not_lt.mpr hle)) ht

/-! ### The cursor (`40_bitreader.md` R122) -/

/-- An engine step that faults leaves BITPOS; one that does not moves it past the code. -/
theorem engineTurn_bitpos {s t : State} (hr : s.state = .run) (ht : engineTurn s = .next t) :
    (t.state = .err ∧ bitpos t = bitpos s) ∨
    (¬ inputExhausted s ∧ t.state ≠ .err ∧ bitpos t = bitpos s + s.cw.toNat) := by
  obtain ⟨-, rfl⟩ | ⟨he, bytes, i, -, hd, hx⟩ := engineTurn_run_cases hr ht
  · exact .inl ⟨rfl, rfl⟩
  · obtain ⟨e, c, -, rfl⟩ | ⟨hne, -, hpos⟩ := exec_decoded_end hr hd hx
    · exact .inl ⟨rfl, rfl⟩
    · exact .inr ⟨he, hne, hpos.trans (bitpos_advance_available he)⟩

/-- A write to CTRL leaves the cursor, or sets it to 0 by the command it holds (`44_host_commands.md` R191, R194). -/
theorem writeCtrl_bitpos {v : Word} {s t : State} (h : writeCtrl v s = .next t) :
    bitpos t = bitpos s ∨ bitpos t = 0 ∧ (decodeCtrl v = .ok .start ∨ decodeCtrl v = .ok .reset) := by
  obtain ⟨hd, hw⟩ | ⟨hd, hw⟩ | ⟨-, hw⟩ := writeCtrl_cases v s <;> rw [hw] at h
  · injection h with h
    subst h
    exact .inr ⟨rfl, .inr hd⟩
  · obtain ⟨-, rfl⟩ | ⟨-, -, rfl⟩ | ⟨-, -, rfl⟩ := execStart_cases h
    · exact .inl rfl
    · exact .inl rfl
    · exact .inr ⟨rfl, .inl hd⟩
  · injection h with h
    exact .inl (by rw [h])

/-- No move of the host but START and a reset reaches the cursor. -/
theorem host_step_bitpos {s t : State} (hengine : ¬ engineTurnNext s) (ht : step s = .next t) :
    bitpos t = bitpos s ∨ bitpos t = 0 ∧ (startNext s ∨ resetNext s) := by
  obtain ⟨hs, -⟩ | ⟨m, rest, hs, hm⟩ := step_cases s
  · exact absurd (.inl hs) hengine
  · rw [hm] at ht
    obtain ⟨v, rfl, hv⟩ | ⟨n, v, -, -, rfl⟩ | ⟨n, -, rfl⟩ | ⟨a, b, -, -, -, rfl⟩ | ⟨a, b, -, -, rfl⟩ | ⟨rfl, rfl⟩ |
      ⟨rfl, -⟩ := hostMove_cases ht
    · obtain hkept | ⟨hzero, hd | hd⟩ := writeCtrl_bitpos hv
      · exact .inl hkept
      · exact .inr ⟨hzero, .inl ⟨v, rest, hs, decodeCtrl_eq_start_iff.mp hd⟩⟩
      · exact .inr ⟨hzero, .inr (.inl ⟨v, rest, hs, decodeCtrl_eq_reset_iff.mp hd⟩)⟩
    · obtain ⟨-, -, -, -, -, hkept, -⟩ := writeReg_frame n v (popMove s)
      exact .inl hkept
    · exact .inl rfl
    · exact .inl rfl
    · exact .inl rfl
    · exact .inr ⟨rfl, .inr (.inr ⟨rest, hs⟩)⟩
    · exact absurd (.inr ⟨rest, hs⟩) hengine

/-- Settles O44: the code read was available, so the advance ends within the input. -/
theorem cursorMovesForward : Obligations.CursorMovesForward := by
  unfold Obligations.CursorMovesForward
  intro s t hinv ht
  refine ⟨fun hr hengine => ?_, fun hengine => host_step_bitpos hengine ht⟩
  have hcursor := (hinv.running hr).cursor
  obtain ⟨herr, hpos⟩ | ⟨he, hne, hpos⟩ := engineTurn_bitpos (s := popMove s) hr (engineTurn_of_step hengine ht)
  · rw [bitpos_popMove] at hpos
    exact ⟨fun hne => absurd herr hne, fun _ => hpos, hpos ▸ hcursor⟩
  · rw [bitpos_popMove, popMove_cw] at hpos
    rw [inputExhausted, bitpos_popMove, popMove_cw, popMove_ilen] at he
    exact ⟨fun _ => hpos, fun herr => absurd herr hne, by omega⟩

end Sys2Proof.Machine
end

section
/-! PROOFS. The dictionary: an append fills the free slot NEXT and grows the width at a threshold (`41_dictionary.md` R147,
R149). -/

namespace Sys2Proof.Machine

/-- The frame of an append (`41_dictionary.md` R147). -/
theorem append_frame (str : ByteStr) (s : State) :
    append str s = { s with dict := (append str s).dict, next := (append str s).next, cw := (append str s).cw } := rfl

/-- Settles O50: the table invariant leaves the slot NEXT free, and the width invariant of the run is the one an append
keeps. -/
theorem appendGrowsTheWidth : Obligations.AppendGrowsTheWidth := by
  unfold Obligations.AppendGrowsTheWidth
  intro s str hinv hr hroom
  have hrun := hinv.running hr
  have hfree : lookup s.next.toNat s = none := hrun.table.free _ le_rfl
  have hlearned : Learned str s (append str s) := learned_of_append hroom rfl rfl rfl
  obtain ⟨-, hfits⟩ := width_after_append hroom str hrun.width hrun.nextFits
  exact ⟨hfree, hlearned, append_frame str s, hfits⟩

end Sys2Proof.Machine
end

section
/-! PROOFS. The control codes: CLR clears the table from CC up and EOI ends the run, each past its own code by the width it
was fetched with (`42_control_codes.md` R160, R163). -/

namespace Sys2Proof.Machine

/-- CLR ends in this state, whatever the state it runs in (`42_control_codes.md` R160). -/
theorem exec_clr (s : State) : exec .clr s = .next (advance s.cw.toNat { clearTable s with first := true }) := rfl

/-- EOI ends in this state, whatever the state it runs in (`42_control_codes.md` R163). -/
theorem exec_eoi (s : State) : exec .eoi s = .next (advance s.cw.toNat { s with state := .done }) := rfl

/-- Settles O10: the table is that of ClearTable, and a legal MCS makes the new NEXT and CW exact. The cursor moves by the
width held before ClearTable resets CW. -/
theorem clrResult : Obligations.ClrResult := by
  unfold Obligations.ClrResult
  refine ⟨fun x c hc => classify_of_selects (i := .clr) hc, fun s _ hm he => ⟨_, exec_clr s, ?_⟩⟩
  exact ⟨lookup_clearTable s, initialNext_toNat hm, initialWidth_toNat hm, rfl, bitpos_advance_step he rfl rfl, rfl⟩

/-- Settles O12: no test but the one against CC comes before that of EOI, and the code read was available. -/
theorem eoiResult : Obligations.EoiResult := by
  unfold Obligations.EoiResult
  refine ⟨fun x c hc => classify_of_selects (i := .eoi) hc, fun s _ he => ⟨_, exec_eoi s, rfl, ?_, rfl⟩⟩
  exact bitpos_advance_step he rfl rfl

end Sys2Proof.Machine
end

section
/-! PROOFS. The data codes: LIT, REF and KWK end in ERR_OVF with nothing written or in the state that has emitted the code's
string, and outside first position has learned an entry where the table has room; BAD is its fault entry
(`43_data_codes.md`). -/

namespace Sys2Proof.Machine

/-! ### Emission (`41_dictionary.md` R150) -/

theorem emitThen_of_overflows {str : ByteStr} {s : State} (h : overflows str s) (c : Code) (rest : State → Result) :
    emitThen str c rest s = .next (raise .ovf c s) := if_pos h

theorem emitThen_of_fits {str : ByteStr} {s : State} (h : ¬ overflows str s) (c : Code) (rest : State → Result) :
    emitThen str c rest s = rest (storeStr str s) := if_neg h

/-- A state with the output of an emission that fits has emitted the string. -/
theorem emitted_of_storeStr {str : ByteStr} {s t : State} (h : ¬ overflows str s) (holen : t.olen = (storeStr str s).olen)
    (hobuf : t.obuf = (storeStr str s).obuf) : Emitted str s t :=
  ⟨by rw [holen, storeStr_olen_toNat h], fun a => by rw [hobuf, read_storeStr]⟩

/-- The byte of a literal is its code: CC is at most 256 (`30_encoding.md` R93). -/
theorem literalByte_toNat {m : BitVec 8} {c : Code} (hm : legalMcs m) (hc : c.toNat < clearCode m) :
    (c.setWidth 8).toNat = c.toNat := by
  have := (clearCode_bounds hm).2
  rw [BitVec.toNat_setWidth]
  omega

/-! ### An append where the table has room (`41_dictionary.md` R146) -/

section
variable (entry : ByteStr) (s : State)

theorem appendIfRoom_frame : appendIfRoom entry s =
    { s with
      dict := (appendIfRoom entry s).dict
      next := (appendIfRoom entry s).next
      cw := (appendIfRoom entry s).cw } := by
  by_cases h : hasRoom s
  · rw [appendIfRoom_of_room entry h]
    rfl
  · rw [appendIfRoom_of_full entry h]

@[simp] theorem appendIfRoom_olen : (appendIfRoom entry s).olen = s.olen := by rw [appendIfRoom_frame]
@[simp] theorem appendIfRoom_obuf : (appendIfRoom entry s).obuf = s.obuf := by rw [appendIfRoom_frame]
@[simp] theorem appendIfRoom_iptr : (appendIfRoom entry s).iptr = s.iptr := by rw [appendIfRoom_frame]
@[simp] theorem appendIfRoom_ibit : (appendIfRoom entry s).ibit = s.ibit := by rw [appendIfRoom_frame]

end

/-! ### The state an emitting code ends in outside first position (`43_data_codes.md` R171, R178) -/

/-- The string emitted, the entry appended where the table has room, PREV set to the code and the cursor past it. -/
def emitAndLearn (str entry : ByteStr) (c : Code) (s : State) : State :=
  finishCode c s.cw.toNat (appendIfRoom entry (storeStr str s))

section
variable {str entry : ByteStr} {c : Code} {s : State}

theorem emitAndLearn_of_room (h : hasRoom s) :
    emitAndLearn str entry c s = finishCode c s.cw.toNat (append entry (storeStr str s)) := by
  rw [emitAndLearn, appendIfRoom_of_room entry (s := storeStr str s) h]

theorem emitAndLearn_of_full (h : ¬ hasRoom s) :
    emitAndLearn str entry c s = finishCode c s.cw.toNat (storeStr str s) := by
  rw [emitAndLearn, appendIfRoom_of_full entry (s := storeStr str s) h]

/-- What a code outside first position writes, whether the table has room or not. -/
theorem emitAndLearn_frame (str entry : ByteStr) (c : Code) (s : State) :
    emitAndLearn str entry c s =
      { s with
        obuf := (emitAndLearn str entry c s).obuf
        olen := (emitAndLearn str entry c s).olen
        dict := (emitAndLearn str entry c s).dict
        next := (emitAndLearn str entry c s).next
        cw := (emitAndLearn str entry c s).cw
        prev := (emitAndLearn str entry c s).prev
        iptr := (emitAndLearn str entry c s).iptr
        ibit := (emitAndLearn str entry c s).ibit } := by
  rw [emitAndLearn, appendIfRoom_frame]
  rfl

theorem emitted_emitAndLearn (h : ¬ overflows str s) : Emitted str s (emitAndLearn str entry c s) :=
  emitted_of_storeStr h (appendIfRoom_olen entry _) (appendIfRoom_obuf entry _)

theorem learned_emitAndLearn (h : hasRoom s) : Learned entry s (emitAndLearn str entry c s) := by
  rw [emitAndLearn_of_room h]
  exact learned_of_append h rfl rfl rfl

/-- The entry learned stands in the slot that was next (`41_dictionary.md` R147). -/
theorem lookup_next_of_learned {t : State} (h : Learned entry s t) : lookup s.next.toNat t = some entry := by
  obtain ⟨-, hslot, -⟩ := h
  exact (hslot _).trans (if_pos rfl)

theorem tableKept_emitAndLearn (h : ¬ hasRoom s) : TableKept s (emitAndLearn str entry c s) := by
  rw [emitAndLearn_of_full h]
  exact ⟨rfl, rfl, rfl⟩

theorem emitAndLearn_prev : (emitAndLearn str entry c s).prev = c := rfl

/-- The cursor moves by the width held before the append grows CW. -/
theorem bitpos_emitAndLearn (h : ¬ inputExhausted s) :
    bitpos (emitAndLearn str entry c s) = bitpos s + s.cw.toNat :=
  bitpos_advance_step h (appendIfRoom_iptr entry _) (appendIfRoom_ibit entry _)

end

/-! ### What each data code answers -/

section
variable {str p : ByteStr} {c : Code} {s : State}

theorem exec_lit_first_of_overflows (hf : s.first = true) (h : overflows (literalStr c) s) :
    exec (.lit c) s = .next (raise .ovf c s) := by
  rw [exec, execLit, if_pos hf, emitThen_of_overflows h]

theorem exec_lit_first_of_fits (hf : s.first = true) (h : ¬ overflows (literalStr c) s) :
    exec (.lit c) s = .next (finishCode c s.cw.toNat { storeStr (literalStr c) s with first := false }) := by
  rw [exec, execLit, if_pos hf, emitThen_of_fits h]

theorem execKnown_of_overflows (h : overflows str s) : execKnown str c s = .next (raise .ovf c s) :=
  emitThen_of_overflows h c _

/-- ExecKnown reads DICT[PREV] only where the table has room; a full table ends in the same form without it. -/
theorem execKnown_of_fits (hp : lookup s.prev.toNat s = some p) (h : ¬ overflows str s) :
    execKnown str c s = .next (emitAndLearn str (strSnoc p (firstByte str)) c s) := by
  have hp' : lookup (storeStr str s).prev.toNat (storeStr str s) = some p := hp
  rw [execKnown, emitThen_of_fits h]
  by_cases hroom : hasRoom s
  · rw [if_pos (show hasRoom (storeStr str s) from hroom), hp', emitAndLearn_of_room hroom]
  · rw [if_neg (show ¬ hasRoom (storeStr str s) from hroom), emitAndLearn_of_full hroom]

theorem exec_kwk_of_overflows (hp : lookup s.prev.toNat s = some p) (h : overflows (kwkStr p) s) :
    exec (.kwk c) s = .next (raise .ovf c s) := by
  rw [exec, execKwk, hp]
  exact emitThen_of_overflows h c _

theorem exec_kwk_of_fits (hp : lookup s.prev.toNat s = some p) (h : ¬ overflows (kwkStr p) s) :
    exec (.kwk c) s = .next (emitAndLearn (kwkStr p) (kwkStr p) c s) := by
  rw [exec, execKwk, hp]
  exact emitThen_of_fits h c _

end

/-! ### Codes from CC + 2 on -/

/-- In first position a code from CC + 2 on is BAD, whatever NEXT is (`30_encoding.md` R94). -/
theorem classify_of_first {x : CodeCtx} {c : Code} (hlo : clearCode x.mcs + 2 ≤ c.toNat) (hf : x.first = true) :
    classify x c = .bad c := classify_of_selects ⟨rfl, hlo, .inl hf⟩

/-- The slot of a learned entry bounds its length, and CC is at least 4 (`43_data_codes.md` R174). -/
theorem Inv.entry_length {s : State} {c : Code} {str : ByteStr} (h : Inv s) (hr : s.state = .run)
    (hc : clearCode s.mcs + 2 ≤ c.toNat) (hstr : lookup c.toNat s = some str) : 2 ≤ strLen str ∧ strLen str ≤ 4091 := by
  have hrun := h.running hr
  have hcc := (clearCode_bounds hrun.config.1).1
  have hlen := hrun.table.lengths _ str hc hstr
  omega

/-! ### The statements -/

/-- Settles O13: the invariant gives the width, and the one byte fits or takes ERR_OVF. -/
theorem litInFirstPosition : Obligations.LitInFirstPosition := by
  unfold Obligations.LitInFirstPosition
  refine ⟨fun x c _ hc => classify_eq_lit_iff.mpr hc, fun s hinv hr hf => ((hinv.running hr).firstPosition hf).2, ?_⟩
  intro s c _ hf hm hc he
  refine ⟨fun hfits => ?_, exec_lit_first_of_overflows hf⟩
  have hfits : ¬ overflows (literalStr c) s := Nat.not_lt.mpr hfits
  exact ⟨_, c.setWidth 8, exec_lit_first_of_fits hf hfits, literalByte_toNat hm hc, emitted_of_storeStr hfits rfl rfl, rfl,
    rfl, bitpos_advance_step he rfl rfl, rfl⟩

/-- Settles O14: LIT is ExecKnown with the string `[c]`. -/
theorem litResult : Obligations.LitResult := by
  unfold Obligations.LitResult
  refine ⟨fun x c _ hc => classify_eq_lit_iff.mpr hc, ?_⟩
  intro s c p _ hf hm hc hp he
  rw [exec, execLit_known hf]
  refine ⟨fun hfits => ?_, execKnown_of_overflows (str := literalStr c)⟩
  have hfits : ¬ overflows (literalStr c) s := Nat.not_lt.mpr hfits
  exact ⟨_, c.setWidth 8, execKnown_of_fits hp hfits, literalByte_toNat hm hc, emitted_emitAndLearn hfits,
    learned_emitAndLearn, fun hfull => tableKept_emitAndLearn (Nat.not_lt.mpr hfull), emitAndLearn_prev,
    bitpos_emitAndLearn he, emitAndLearn_frame _ _ c s⟩

/-- Settles O15: REF is ExecKnown with the string `DICT[c]`. -/
theorem refResult : Obligations.RefResult := by
  unfold Obligations.RefResult
  refine ⟨fun x c hlo hhi => ⟨fun hf => classify_eq_ref_iff.mpr ⟨hf, hlo, hhi⟩,
    fun hf c' => (classify_of_first hlo hf).trans_ne nofun⟩, fun s c str hinv hr => hinv.entry_length hr, ?_⟩
  intro s c str p _ _ _ _ hstr hp he
  rw [exec, execRef_known hstr]
  refine ⟨fun hfits => ?_, execKnown_of_overflows⟩
  have hfits : ¬ overflows str s := Nat.not_lt.mpr hfits
  exact ⟨_, execKnown_of_fits hp hfits, emitted_emitAndLearn hfits, learned_emitAndLearn,
    fun hfull => tableKept_emitAndLearn (Nat.not_lt.mpr hfull), emitAndLearn_prev, bitpos_emitAndLearn he,
    emitAndLearn_frame _ _ c s⟩

/-- Settles O16: a code of 12 bits equal to NEXT leaves room for the entry, which then stands in the slot of the code. -/
theorem kwkResult : Obligations.KwkResult := by
  unfold Obligations.KwkResult
  refine ⟨fun x c hlo hc => ⟨fun hf => classify_of_selects ⟨rfl, hf, hlo, hc⟩,
    fun hf c' => (classify_of_first hlo hf).trans_ne nofun⟩, ?_⟩
  intro s c p _ _ hc hp he
  have hroom : hasRoom s := by
    rw [hasRoom, ← hc]
    exact c.isLt
  have hlen : strLen (kwkStr p) = strLen p + 1 := strLen_snoc p _
  rw [← hlen]
  refine ⟨fun hfits => ?_, exec_kwk_of_overflows hp⟩
  have hfits : ¬ overflows (kwkStr p) s := Nat.not_lt.mpr hfits
  have hlearned : Learned (kwkStr p) s (emitAndLearn (kwkStr p) (kwkStr p) c s) := learned_emitAndLearn hroom
  exact ⟨_, exec_kwk_of_fits hp hfits, emitted_emitAndLearn hfits, hlearned,
    hc ▸ lookup_next_of_learned hlearned, emitAndLearn_prev, bitpos_emitAndLearn he, emitAndLearn_frame _ _ c s⟩

/-- Settles O17: both BAD lines of R94 select it, and it is its fault entry. -/
theorem badResult : Obligations.BadResult := by
  unfold Obligations.BadResult
  exact ⟨fun x c hlo h => classify_of_selects ⟨rfl, hlo, h.imp_right And.right⟩, fun s c => exec_bad c s⟩

end Sys2Proof.Machine
end

section
/-! PROOFS. The host commands and the register accesses: START, ignored in a run and else the beginning of one, RESET, and
what a read and a write of each register number do (`44_host_commands.md`). -/

namespace Sys2Proof.Machine

/-! ### START and RESET -/

/-- The table of a started run: the strings `[i]` below CC and no other (`41_dictionary.md` R143). -/
theorem lookup_startedRun (s : State) (i : Nat) :
    lookup i (startedRun s) = if i < clearCode s.mcs then some (oneByte (BitVec.ofNat 8 i)) else none :=
  (lookup_congr rfl i).trans (lookup_initTable s i)

/-- Settles O19: a legal MCS makes the first NEXT and CW exact. -/
theorem startBeginsRun : Obligations.StartBeginsRun := by
  unfold Obligations.StartBeginsRun
  intro s hr hlo hhi hilen hocap
  have hm : legalMcs s.mcs := ⟨hlo, hhi⟩
  exact ⟨startedRun s, exec_start_of_configOk hr ⟨hm, hilen, hocap⟩, rfl, rfl, rfl, lookup_startedRun s,
    initialNext_toNat hm, initialWidth_toNat hm, rfl, rfl, rfl, rfl, rfl⟩

theorem exec_start_of_running {s : State} (hr : s.state = .run) : exec .start s = .next s := by
  rw [exec, execStart, if_pos hr]

/-- Settles O21: the test of STATE comes before that of the configuration. -/
theorem startIgnoredWhileRunning : Obligations.StartIgnoredWhileRunning := by
  unfold Obligations.StartIgnoredWhileRunning
  exact fun s hr => exec_start_of_running hr

/-- RESET ends in this state, whatever the state it runs in (`44_host_commands.md` R194). -/
theorem exec_reset (s : State) : exec .reset s = .next (resetRegisters s) := rfl

/-- Settles O22: the command blanks the registers and leaves every other field. -/
theorem resetResult : Obligations.ResetResult := by
  unfold Obligations.ResetResult
  exact ⟨fun v h => decodeCtrl_eq_reset_iff.mpr h, fun s => ⟨resetRegisters s, exec_reset s,
    registersBlank_resetRegisters s, resetRegisters_dict s, resetRegisters_ibuf s, resetRegisters_obuf s,
    resetRegisters_cfg s, resetRegisters_host s⟩⟩

/-! ### A write of a register (`44_host_commands.md` R197) -/

theorem popMove_of_script {s : State} {m : HostMove} {rest : List HostMove} (h : s.host.script = m :: rest) :
    popMove s = { s with host := { s.host with script := rest } } := by
  rw [popMove, h, List.tail_cons]

theorem hostMove_writeReg {n : Nat} (hn : n ≠ 0) (v : Word) (s : State) :
    hostMove (.writeReg n v) s = .next (writeReg n v s) := by
  rw [hostMove, if_neg hn]

/-- A register write field by field: each of MCS, ILEN and OCAP takes the value of its own number outside RUN, and nothing
else takes any. -/
theorem writeReg_eq (n : Nat) (v : Word) (s : State) : writeReg n v s =
    { s with mcs := if n = 2 ∧ s.state ≠ .run then v.setWidth 8 else s.mcs
             ilen := if n = 3 ∧ s.state ≠ .run then v else s.ilen
             ocap := if n = 4 ∧ s.state ≠ .run then v else s.ocap } := by
  unfold writeReg
  split
  · next hr =>
    have ignored : ∀ k, ¬ (n = k ∧ s.state ≠ .run) := fun k h => h.2 hr
    simp only [if_neg (ignored _)]
  · next hr => split <;> simp_all

/-- Settles O35: a write of a register but CTRL is field by field what it does to the machine that has taken the move off
the script, and bits 1 and 0 decide what a write of CTRL is. -/
theorem registerWrite : Obligations.RegisterWrite := by
  unfold Obligations.RegisterWrite
  refine ⟨fun s n v rest hs hn => ⟨writeReg n v (popMove s), ?_, ?_⟩, fun s v rest hs => ?_⟩
  · rw [step_of_script hs, hostMove_writeReg hn]
  · rw [writeReg_eq, popMove_of_script hs]
    refine ⟨?_, rfl, rfl, rfl⟩
    split
    · exact BitVec.toNat_setWidth 8 v
    · rfl
  · rw [step_of_script hs, popMove_of_script hs]
    exact ⟨fun h1 => hostMove_writeCtrl (decodeCtrl_eq_reset_iff.mpr h1) _,
      fun h1 h0 => hostMove_writeCtrl (decodeCtrl_eq_start_iff.mpr ⟨h1, h0⟩) _,
      fun h1 h0 => hostMove_writeCtrl_noCommand (decodeCtrl_eq_noCommand h1 h0) _⟩

/-! ### A read of a register (`44_host_commands.md` R196) -/

theorem stateBits_toNat (r : RunState) :
    (stateBits r).toNat = match r with | .idle => 0 | .run => 1 | .done => 2 | .err => 3 := by
  cases r <;> rfl

theorem errBits_toNat (e : ErrCode) :
    (errBits e).toNat = match e with | .none => 0 | .cfg => 1 | .trunc => 2 | .code => 3 | .ovf => 4 := by
  cases e <;> rfl

/-- Bits put together weigh what they weigh apart. -/
theorem toNat_append_eq_add {m n : Nat} (x : BitVec m) (y : BitVec n) : (x ++ y).toNat = 2 ^ n * x.toNat + y.toNat := by
  rw [BitVec.toNat_append, ← Nat.shiftLeft_add_eq_or_of_lt y.isLt, Nat.shiftLeft_eq, Nat.mul_comm]

/-- The fields of STATUS at their weights (`10_state.md` R23); FULL is the test of NEXT (R26). -/
theorem statusReg_toNat (s : State) : (statusReg s).toNat = (stateBits s.state).toNat + 4 * (errBits s.errcode).toNat +
    (if s.first then 32 else 0) + (if s.next.toNat = 4096 then 64 else 0) := by
  have first_weight : 32 * s.first.toNat = if s.first then 32 else 0 := by cases s.first <;> rfl
  have full_weight : 64 * (fullFlag s).toNat = if s.next.toNat = 4096 then 64 else 0 := by
    by_cases h : s.next.toNat = 4096 <;> simp [fullFlag, h]
  rw [← first_weight, ← full_weight]
  simp only [statusReg, toNat_append_eq_add, BitVec.toNat_ofBool]
  omega

/-- Settles O34: every register is at most 32 bits wide, so that its zero-extension is its value. -/
theorem registerRead : Obligations.RegisterRead := by
  unfold Obligations.RegisterRead
  intro s n rest hs
  refine ⟨readReg n s, ?_, ?_⟩
  · rw [step_of_script hs, popMove_of_script hs]
    rfl
  · match n with
    | 0 => rfl
    | 1 =>
      have hvalue : (readReg 1 s).toNat = (statusReg s).toNat := BitVec.toNat_setWidth_of_le (by decide)
      rw [hvalue, statusReg_toNat, stateBits_toNat, errBits_toNat]
      rfl
    | 2 | 7 | 8 | 9 | 10 | 11 => exact BitVec.toNat_setWidth_of_le (by decide)
    | 3 | 4 | 5 | 6 => rfl
    | n + 12 => rfl

end Sys2Proof.Machine
end

section
/-! PROOFS. The four faults: which condition each is taken under and that no other comes before it, that fault entry is all
that happens then, and that nothing but START and a reset touches the fault record (`60_exceptions.md`). -/

namespace Sys2Proof.Machine

/-! ### A configuration START refuses (`60_exceptions.md` R212) -/

theorem exec_start_of_illegal {s : State} (hr : s.state ≠ .run) (hc : ¬ configOk s) :
    exec .start s = .next (raise .cfg 0 s) := by
  rw [exec, execStart, if_neg hr, if_pos hc]

/-- Settles O20: each of the four conditions makes the configuration illegal. -/
theorem startRefusesBadConfig : Obligations.StartRefusesBadConfig := by
  unfold Obligations.StartRefusesBadConfig
  intro s hr hbad
  refine exec_start_of_illegal hr ?_
  rintro ⟨⟨hlo, hhi⟩, hilen, hocap⟩
  omega

/-! ### A string that does not fit (`60_exceptions.md` R215) -/

theorem strLen_kwkStr (p : ByteStr) : strLen (kwkStr p) = strLen p + 1 := strLen_snoc p _

section
variable {c : Code} {s : State}

/-- LIT checks its byte against OCAP first, in first position and outside it. -/
theorem exec_lit_of_overflows (h : overflows (literalStr c) s) : exec (.lit c) s = .next (raise .ovf c s) := by
  cases hf : s.first
  · exact (execLit_known hf).trans (execKnown_of_overflows h)
  · exact exec_lit_first_of_overflows hf h

theorem exec_ref_of_overflows {str : ByteStr} (hs : lookup c.toNat s = some str) (h : overflows str s) :
    exec (.ref c) s = .next (raise .ovf c s) :=
  (execRef_known hs).trans (execKnown_of_overflows h)

end

/-- Settles O23: the three capacity checks, with the lengths of `[c]` and of `P ++ [P[0]]` written out. -/
theorem emissionOverflow : Obligations.EmissionOverflow := by
  unfold Obligations.EmissionOverflow
  refine fun s c => ⟨fun h => exec_lit_of_overflows h, fun str hs h => exec_ref_of_overflows hs h, fun p hp h => ?_⟩
  rw [← strLen_kwkStr] at h
  exact exec_kwk_of_overflows hp h

/-! ### The fault of an engine step (`60_exceptions.md` R216, R221) -/

/-- The string a data code is to emit: `[c]`, the entry of the code, or `P ++ [P[0]]` (`43_data_codes.md` R172 to R178). -/
def Emits (i : Instr) (c : Code) (str : ByteStr) (s : State) : Prop :=
  (i = .lit c ∧ str = literalStr c) ∨ (i = .ref c ∧ lookup c.toNat s = some str) ∨
  (i = .kwk c ∧ ∃ p, lookup s.prev.toNat s = some p ∧ str = kwkStr p)

/-- A decoded code that ends in ERR is BAD, or a data code whose string does not fit; fault entry is all it does. -/
theorem exec_decoded_fault {s t : State} {bytes : List Byte} {i : Instr} (hr : s.state = .run)
    (hd : decode (codeCtx s) bytes s.ibit.toNat = .ok i) (hx : exec i s = .next t) (ht : t.state = .err) :
    (∃ c, i = .bad c ∧ t = raise .code c s) ∨
    (∃ c str, Emits i c str s ∧ overflows str s ∧ t = raise .ovf c s) := by
  have changed : t.state ≠ s.state := by simp [hr, ht]
  have data : ∀ {c : Code}, (i = .lit c ∨ i = .ref c ∨ i = .kwk c) →
      ∃ c str, Emits i c str s ∧ overflows str s ∧ t = raise .ovf c s := fun {c} hi => by
    obtain ⟨str, hstr, ⟨ho, rfl⟩ | ⟨-, hstate, -⟩⟩ := exec_data_cases hi hx
    · exact ⟨c, str, hstr, ho, rfl⟩
    · exact absurd hstate changed
  obtain ⟨c, -, -, ⟨rfl, -⟩ | ⟨rfl, -⟩ | ⟨rfl, -⟩ | ⟨rfl, -⟩ | ⟨rfl, -⟩ | ⟨rfl, -⟩⟩ := decode_ok_cases hd
  · injection hx with hx
    exact absurd (by rw [← hx]; rfl) changed
  · injection hx with hx
    rw [← hx] at ht
    exact absurd ht nofun
  · exact .inr (data (.inl rfl))
  · injection hx with hx
    exact .inl ⟨c, rfl, hx.symm⟩
  · exact .inr (data (.inr (.inl rfl)))
  · exact .inr (data (.inr (.inr rfl)))

/-- The faults of an engine step in their order: the bits were not there; they were and decoded to BAD; they were and decoded
to a data code whose string does not fit (`60_exceptions.md` R216). -/
theorem engineTurn_fault {s t : State} (hr : s.state = .run) (h : engineTurn s = .next t) (ht : t.state = .err) :
    (inputExhausted s ∧ t = raise .trunc 0 s) ∨
    (¬ inputExhausted s ∧ ∃ bytes i c, fetchWindow s = some bytes ∧ decode (codeCtx s) bytes s.ibit.toNat = .ok i ∧
      ((i = .bad c ∧ t = raise .code c s) ∨ ∃ str, Emits i c str s ∧ overflows str s ∧ t = raise .ovf c s)) := by
  obtain hend | ⟨he, bytes, i, hw, hd, hx⟩ := engineTurn_run_cases hr h
  · exact .inl hend
  · obtain ⟨c, hbad⟩ | ⟨c, hovf⟩ := exec_decoded_fault hr hd hx ht
    · exact .inr ⟨he, bytes, i, c, hw, hd, .inl hbad⟩
    · exact .inr ⟨he, bytes, i, c, hw, hd, .inr hovf⟩

/-- Outside RUN a step that is no START and no reset reaches the configuration, IBUF and the outside world, and no other
field (`10_state.md` R24, `44_host_commands.md` R196 to R198). -/
theorem quiescent_step_frame {s t : State} (hr : s.state ≠ .run) (hstart : ¬ startNext s) (hreset : ¬ resetNext s)
    (ht : step s = .next t) :
    t = { s with mcs := t.mcs, ilen := t.ilen, ocap := t.ocap, ibuf := t.ibuf, host := t.host } := by
  obtain ⟨-, hm⟩ | ⟨m, rest, hs, hm⟩ := step_cases s <;> rw [hm] at ht
  · rw [engineTurn_idle hr ht]
  · obtain ⟨v, rfl, hv⟩ | ⟨n, v, -, -, rfl⟩ | ⟨n, -, rfl⟩ | ⟨a, b, -, -, -, rfl⟩ | ⟨a, b, -, -, rfl⟩ | ⟨rfl, -⟩ |
      ⟨-, hturn⟩ := hostMove_cases ht
    · obtain ⟨hd, -⟩ | ⟨hd, -⟩ | ⟨-, hw⟩ := writeCtrl_cases v (popMove s)
      · exact absurd (.inl ⟨v, rest, hs, decodeCtrl_eq_reset_iff.mp hd⟩) hreset
      · exact absurd ⟨v, rest, hs, decodeCtrl_eq_start_iff.mp hd⟩ hstart
      · rw [hw] at hv
        injection hv with hv
        rw [← hv]
        rfl
    · rw [writeReg_eq]
      rfl
    · rfl
    · rfl
    · rfl
    · exact absurd (.inr ⟨rest, hs⟩) hreset
    · rw [engineTurn_idle (s := popMove s) hr hturn]
      rfl

/-- Settles O25: the three faults of the engine's turn, and in ERR the frame of a quiescent step. -/
theorem faultPriority : Obligations.FaultPriority := by
  unfold Obligations.FaultPriority
  refine ⟨fun s t _ hr hs ht herr => ?_, fun s t hr ht hstart hreset => ?_⟩
  · rw [step_of_silent hs] at ht
    obtain ⟨he, rfl⟩ | ⟨he, bytes, i, c, hw, hd, ⟨rfl, rfl⟩ | ⟨str, hstr, ho, rfl⟩⟩ := engineTurn_fault hr ht herr
    · exact .inl ⟨rfl, he⟩
    · exact .inr (.inl ⟨rfl, he, bytes, c, hw, hd, rfl⟩)
    · refine .inr (.inr ⟨rfl, he, bytes, c, str, hw, rfl, ho, ?_⟩)
      obtain ⟨rfl, rfl⟩ | ⟨rfl, hentry⟩ | ⟨rfl, p, hp, rfl⟩ := hstr
      · exact .inl ⟨hd, strLen_oneByte _⟩
      · exact .inr (.inl ⟨hd, hentry⟩)
      · exact .inr (.inr ⟨hd, p, hp, strLen_kwkStr p⟩)
  · have hframe := quiescent_step_frame (by simp [hr]) hstart hreset ht
    rw [hframe]
    exact ⟨hr, rfl, rfl⟩

/-- Settles O26: the turn is that of the machine that has taken the wait off the script, and ends in its fault entry. -/
theorem faultsArePrecise : Obligations.FaultsArePrecise := by
  unfold Obligations.FaultsArePrecise
  intro s t _ hr hengine ht herr
  obtain ⟨-, rfl⟩ | ⟨-, bytes, i, c, -, -, ⟨-, rfl⟩ | ⟨str, -, -, rfl⟩⟩ :=
    engineTurn_fault (s := popMove s) hr (engineTurn_of_step hengine ht) herr
  · exact ⟨.inl ⟨rfl, rfl⟩, rfl, rfl, rfl⟩
  · exact ⟨.inr (.inl rfl), rfl, rfl, rfl⟩
  · exact ⟨.inr (.inr rfl), rfl, rfl, rfl⟩

end Sys2Proof.Machine
end

section
/-! PROOFS. The configuration is frozen during a run (`70_reset_and_hazards.md` R250): no instruction but RESET changes MCS,
ILEN or OCAP, no code of the stream is a RESET, and in RUN a register write is ignored. -/

namespace Sys2Proof.Machine

/-- The registers that configure a run are in `t` what they are in `s` (`10_state.md` R27 to R29). -/
def ConfigKept (s t : State) : Prop := t.mcs = s.mcs ∧ t.ilen = s.ilen ∧ t.ocap = s.ocap

theorem ConfigKept.refl (s : State) : ConfigKept s s := ⟨rfl, rfl, rfl⟩

/-- A data code faults on capacity or emits and may append, and neither reaches the configuration. -/
theorem exec_data_configKept {i : Instr} {c : Code} {s t : State} (hi : i = .lit c ∨ i = .ref c ∨ i = .kwk c)
    (hx : exec i s = .next t) : ConfigKept s t := by
  obtain ⟨str, -, ⟨-, rfl⟩ | ⟨-, -, -, -, -, -, -, hmcs, -, -, -, hilen, hocap⟩⟩ := exec_data_cases hi hx
  · exact ⟨rfl, rfl, rfl⟩
  · exact ⟨hmcs, hilen, hocap⟩

/-- Every instruction but RESET keeps the configuration, in every state: START only reads it. -/
theorem exec_configKept {i : Instr} {s t : State} (hi : i ≠ .reset) (hx : exec i s = .next t) : ConfigKept s t := by
  cases i with
  | clr => injection hx with hx; subst hx; exact ⟨rfl, rfl, rfl⟩
  | eoi => injection hx with hx; subst hx; exact ⟨rfl, rfl, rfl⟩
  | lit c => exact exec_data_configKept (.inl rfl) hx
  | ref c => exact exec_data_configKept (.inr (.inl rfl)) hx
  | kwk c => exact exec_data_configKept (.inr (.inr rfl)) hx
  | bad c => injection hx with hx; subst hx; exact ⟨rfl, rfl, rfl⟩
  | start => obtain ⟨-, rfl⟩ | ⟨-, -, rfl⟩ | ⟨-, -, rfl⟩ := execStart_cases hx <;> exact ⟨rfl, rfl, rfl⟩
  | reset => exact absurd rfl hi

/-- No code of the stream is a RESET: decoding answers one of the six code classes (`30_encoding.md` R94). -/
theorem decode_ne_reset {s : State} {bytes : List Byte} {i : Instr}
    (hd : decode (codeCtx s) bytes s.ibit.toNat = .ok i) : i ≠ .reset := by
  rintro rfl
  obtain ⟨c, -, -, ⟨h, -⟩ | ⟨h, -⟩ | ⟨h, -⟩ | ⟨h, -⟩ | ⟨h, -⟩ | ⟨h, -⟩⟩ := decode_ok_cases hd <;> cases h

/-- The engine's turn keeps the configuration, in RUN and outside it. -/
theorem engineTurn_configKept {s t : State} (ht : engineTurn s = .next t) : ConfigKept s t := by
  obtain ⟨-, rfl⟩ | ⟨-, -, rfl⟩ | ⟨-, -, bytes, i, -, hd, hx⟩ := engineTurn_cases ht
  · exact .refl t
  · exact ⟨rfl, rfl, rfl⟩
  · exact exec_configKept (decode_ne_reset hd) hx

/-- A CTRL write without RESET in it keeps the configuration. -/
theorem writeCtrl_configKept {v : Word} {s t : State} (hv : decodeCtrl v ≠ .ok .reset) (ht : writeCtrl v s = .next t) :
    ConfigKept s t := by
  obtain ⟨hd, -⟩ | ⟨-, hw⟩ | ⟨-, hw⟩ := writeCtrl_cases v s
  · exact absurd hd hv
  · exact exec_configKept (i := .start) nofun (hw.symm.trans ht)
  · rw [hw] at ht
    injection ht with ht
    exact ht ▸ .refl s

/-- In RUN a write of MCS, ILEN or OCAP is ignored, and no other move but a reset reaches them
(`44_host_commands.md` R197). -/
theorem running_step_configKept {s t : State} (hr : s.state = .run) (hreset : ¬ resetNext s) (ht : step s = .next t) :
    ConfigKept s t := by
  obtain ⟨-, hturn⟩ | ⟨m, rest, hs, hm⟩ := step_cases s
  · exact engineTurn_configKept (hturn.symm.trans ht)
  · rw [hm] at ht
    show ConfigKept (popMove s) t -- taking the move off the script keeps the configuration
    obtain ⟨v, rfl, hv⟩ | ⟨n, v, -, -, rfl⟩ | ⟨n, -, rfl⟩ | ⟨a, b, -, -, -, rfl⟩ | ⟨a, b, -, -, rfl⟩ | ⟨rfl, -⟩ |
      ⟨-, hturn⟩ := hostMove_cases ht
    · exact writeCtrl_configKept (fun hd => hreset (.inl ⟨v, rest, hs, decodeCtrl_eq_reset_iff.mp hd⟩)) hv
    · obtain ⟨-, -, -, -, -, -, ignored⟩ := writeReg_frame n v (popMove s)
      rw [ignored hr]
      exact .refl _
    · exact ⟨rfl, rfl, rfl⟩
    · exact ⟨rfl, rfl, rfl⟩
    · exact ⟨rfl, rfl, rfl⟩
    · exact absurd (.inr ⟨rest, hs⟩) hreset
    · exact engineTurn_configKept hturn

/-- Settles O42: the step keeps MCS, and CC and EOI are functions of it. -/
theorem configurationFrozenInRun : Obligations.ConfigurationFrozenInRun := by
  unfold Obligations.ConfigurationFrozenInRun
  intro s t hr ht hreset
  obtain ⟨hmcs, hilen, hocap⟩ := running_step_configKept hr hreset ht
  exact ⟨hmcs, hilen, hocap, congrArg clearCode hmcs, congrArg eoiCode hmcs⟩

end Sys2Proof.Machine
end

section
/-! PROOFS. The invariant holds at reset and every step keeps it (`10_state.md` sections 3 to 5): one lemma for each thing the
engine's turn can do and for each move of the host. What a run keeps beyond it stands in `RunInv.engine`. -/

namespace Sys2Proof.Machine

/-! ### The engine's turn -/

/-- NEXT never passes the ceiling while the width is legal (`41_dictionary.md` R149). -/
theorem RunInv.next_le {s : State} (h : RunInv s) : s.next.toNat ≤ dictSize := by
  have hpow : 2 ^ s.cw.toNat ≤ 2 ^ maxCw := Nat.pow_le_pow_right (by omega) h.width.2
  obtain hlt | ⟨-, hfull⟩ := h.nextFits
  · exact hlt.le.trans hpow
  · exact hfull.le

/-- A code that emits stores below OCAP, and its entry in the slot NEXT (`41_dictionary.md` R147, R150). -/
theorem Inv.emitEnd {str : ByteStr} {c : Code} {s t : State} (h : Inv s) (hr : s.state = .run) (hend : EmitEnd str c s t)
    (hrun : t.state = .run → RunInv t) : Inv t := by
  obtain ⟨hibuf, -, hdict⟩ := h.canonical
  have hnotIdle : s.state ≠ .idle := by simp [hr]
  cases hend with
  | overflow ho => exact h.raise nofun fun _ hovf => absurd rfl hovf
  | firstCode ho hf =>
    obtain ⟨hobuf, hinside, hout⟩ := h.emitted hr ho
    exact ⟨⟨hibuf, hobuf, hdict⟩, h.ibufInside, hinside, h.dictInside, hout, h.errcode, h.errval, h.nextHigh,
      fun hidle => absurd hidle hnotIdle, hrun⟩
  | learned ho hroom entry =>
    obtain ⟨hobuf, hinside, hout⟩ := h.emitted hr ho
    obtain ⟨hdict', hslots, hnext⟩ := h.appended hroom entry
    exact ⟨⟨hibuf, hobuf, hdict'⟩, h.ibufInside, hinside, hslots, hout, h.errcode, h.errval, hnext,
      fun hidle => absurd hidle hnotIdle, hrun⟩
  | full ho hroom =>
    obtain ⟨hobuf, hinside, hout⟩ := h.emitted hr ho
    exact ⟨⟨hibuf, hobuf, hdict⟩, h.ibufInside, hinside, h.dictInside, hout, h.errcode, h.errval, h.nextHigh,
      fun hidle => absurd hidle hnotIdle, hrun⟩

/-- A CLR clears slots and fills none (`41_dictionary.md` R144). -/
theorem Inv.clr {s t : State} (h : Inv s) (hr : s.state = .run) (hx : exec .clr s = .next t) (hrun : RunInv t) : Inv t := by
  have hnext := hrun.next_le
  injection hx with hx
  subst hx
  obtain ⟨hibuf, hobuf, hdict⟩ := h.canonical
  refine ⟨⟨hibuf, hobuf, Memory.below_wf hdict _⟩, h.ibufInside, h.obufInside, fun i hi => ?_, h.output, h.errcode,
    h.errval, hnext, fun hidle => absurd (hr.symm.trans hidle) nofun, fun _ => hrun⟩
  have hi : (lookup i (clearTable s)).isSome := hi
  rw [lookup_clearTable] at hi
  split at hi
  · exact h.dictInside i hi
  · cases hi

/-- An EOI writes STATE and the cursor only (`42_control_codes.md` R163). -/
theorem Inv.eoi {s t : State} (h : Inv s) (hr : s.state = .run) (hx : exec .eoi s = .next t) : Inv t := by
  injection hx with hx
  subst hx
  exact ⟨h.canonical, h.ibufInside, h.obufInside, h.dictInside, h.output, ⟨fun _ => nofun, fun _ => h.errNone hr⟩, h.errval,
    h.nextHigh, nofun, nofun⟩

/-- The engine's turn keeps the invariant. -/
theorem Inv.engineTurn {s t : State} (h : Inv s) (ht : engineTurn s = .next t) : Inv t := by
  obtain ⟨-, rfl⟩ | ⟨-, -, rfl⟩ | ⟨hr, he, bytes, i, -, hd, hx⟩ := engineTurn_cases ht
  · exact h
  · exact h.raise nofun fun _ _ => rfl
  · have hrun : t.state = .run → RunInv t := (h.running hr).engine hr ht
    have emits : ((∃ c, i = .lit c) ∨ (∃ c, i = .ref c) ∨ ∃ c, i = .kwk c) → Inv t := fun hi => by
      obtain ⟨str, c, hend⟩ := exec_emit_end hi hx
      exact h.emitEnd hr hend hrun
    obtain ⟨c, -, -, ⟨rfl, -⟩ | ⟨rfl, -⟩ | ⟨rfl, -⟩ | ⟨rfl, -⟩ | ⟨rfl, -⟩ | ⟨rfl, -⟩⟩ := decode_ok_cases hd
    · exact h.clr hr hx ((h.running hr).clr he hx)
    · exact h.eoi hr hx
    · exact emits (.inl ⟨c, rfl⟩)
    · injection hx with hx
      exact hx ▸ h.raise nofun fun hcode => absurd rfl hcode
    · exact emits (.inr (.inl ⟨c, rfl⟩))
    · exact emits (.inr (.inr ⟨c, rfl⟩))

/-! ### The commands and resets -/

/-- A started run has the initial table, no output and no fault (`44_host_commands.md` R191). -/
theorem Inv.started {s : State} (h : Inv s) (hc : configOk s) : Inv (startedRun s) := by
  have hrun : RunInv (startedRun s) := RunInv.start hc .none 0 .run
  obtain ⟨hibuf, hobuf, -⟩ := h.canonical
  refine ⟨⟨hibuf, hobuf, literalTable_wf _⟩, h.ibufInside, h.obufInside, fun i hi => ?_, ⟨Nat.zero_le _, nofun⟩,
    ⟨fun _ => nofun, fun _ => rfl⟩, fun _ _ => rfl, hrun.next_le, nofun, fun _ => hrun⟩
  have hcc := (clearCode_bounds hc.1).2
  rw [lookup_startedRun] at hi
  split at hi
  · rw [dictSize]
    omega
  · cases hi

theorem Inv.execStart {s t : State} (h : Inv s) (ht : execStart s = .next t) : Inv t := by
  obtain ⟨-, rfl⟩ | ⟨-, -, rfl⟩ | ⟨-, hc, rfl⟩ := execStart_cases ht
  · exact h
  · exact h.raise nofun fun _ _ => rfl
  · exact h.started hc

/-- Blank registers meet every clause about them, whatever the memories hold (`10_state.md` R45). -/
theorem Inv.ofBlank {s : State} (hb : RegistersBlank s) (hcan : s.ibuf.wf ∧ s.obuf.wf ∧ s.dict.wf)
    (hibuf : ∀ a, (Memory.read s.ibuf a).isSome → a < s.cfg.ibufSize.val)
    (hobuf : ∀ a, (Memory.read s.obuf a).isSome → a < s.cfg.obufSize.val)
    (hdict : ∀ i, (lookup i s).isSome → i < dictSize) : Inv s where
  canonical := hcan
  ibufInside := hibuf
  obufInside := hobuf
  dictInside := hdict
  output := by simp [hb.olen]
  errcode := by simp [hb.errcode, hb.state]
  errval := fun _ _ => hb.errval
  nextHigh := by simp [hb.next]
  idle := fun _ => ⟨hb.first, hb.olen, hb.cursor.1, hb.cursor.2, hb.cw, hb.next, hb.prev⟩
  running := by simp [hb.state]

theorem Inv.resetRegisters {s : State} (h : Inv s) : Inv (resetRegisters s) :=
  .ofBlank (registersBlank_resetRegisters s) h.canonical h.ibufInside h.obufInside h.dictInside

theorem Inv.hardwareReset (s : State) : Inv (hardwareReset s) :=
  .ofBlank (registersBlank_hardwareReset s) ⟨Memory.wf_nil, Memory.wf_nil, Memory.wf_nil⟩ nofun nofun nofun

theorem Inv.writeCtrl {v : Word} {s t : State} (h : Inv s) (ht : writeCtrl v s = .next t) : Inv t := by
  obtain ⟨-, hw⟩ | ⟨-, hw⟩ | ⟨-, hw⟩ := writeCtrl_cases v s <;> rw [hw] at ht
  · injection ht with ht
    exact ht ▸ h.resetRegisters
  · exact h.execStart ht
  · injection ht with ht
    exact ht ▸ h

/-! ### The other moves of the host -/

/-- Outside RUN no clause of the invariant reads the configuration (`10_state.md` R27 to R29). -/
theorem Inv.configure {s : State} (h : Inv s) (hr : s.state ≠ .run) (m : BitVec 8) (l c : Word) :
    Inv { s with mcs := m, ilen := l, ocap := c } :=
  ⟨h.canonical, h.ibufInside, h.obufInside, h.dictInside, h.output, h.errcode, h.errval, h.nextHigh, h.idle,
    fun hrun => absurd hrun hr⟩

theorem Inv.writeReg {s : State} (h : Inv s) (n : Nat) (v : Word) : Inv (writeReg n v s) := by
  obtain e | ⟨hr, ⟨-, e⟩ | ⟨-, e⟩ | ⟨-, e⟩⟩ := writeReg_cases n v s <;> rw [e]
  · exact h
  · exact h.configure hr _ s.ilen s.ocap
  · exact h.configure hr s.mcs _ s.ocap
  · exact h.configure hr s.mcs s.ilen _

/-- A host write of one byte inside IBUF (`44_host_commands.md` R198). -/
theorem Inv.writeIbuf {s : State} (h : Inv s) (hr : s.state ≠ .run) {a : Nat} (ha : a < s.cfg.ibufSize.val) (b : Byte) :
    Inv { s with ibuf := Memory.write s.ibuf a b } := by
  obtain ⟨hibuf, hobuf, hdict⟩ := h.canonical
  refine ⟨⟨Memory.write_wf hibuf a b, hobuf, hdict⟩, fun k hk => ?_, h.obufInside, h.dictInside, h.output, h.errcode,
    h.errval, h.nextHigh, h.idle, fun hrun => absurd hrun hr⟩
  have hk : (Memory.read (Memory.write s.ibuf a b) k).isSome := hk
  rw [Memory.read_write] at hk
  split at hk
  · next hak => exact hak ▸ ha
  · exact h.ibufInside k hk

theorem Inv.hostMove {m : HostMove} {s t : State} (h : Inv s) (ht : hostMove m s = .next t) : Inv t := by
  obtain ⟨v, -, hv⟩ | ⟨n, v, -, -, rfl⟩ | ⟨n, -, rfl⟩ | ⟨a, b, -, hr, ha, rfl⟩ | ⟨a, b, -, -, rfl⟩ | ⟨-, rfl⟩ |
    ⟨-, hturn⟩ := hostMove_cases ht
  · exact h.writeCtrl hv
  · exact h.writeReg n v
  · exact h.congrHost rfl
  · exact h.writeIbuf hr ha b
  · exact h.congrHost rfl
  · exact .hardwareReset s
  · exact h.engineTurn hturn

/-- A step keeps the invariant: it is the engine's turn or a move of the host. -/
theorem Inv.step {s t : State} (h : Inv s) (ht : step s = .next t) : Inv t := by
  obtain ⟨-, hs⟩ | ⟨m, rest, -, hs⟩ := step_cases s <;> rw [hs] at ht
  · exact h.engineTurn ht
  · have hpop : Inv (popMove s) := h.congrHost rfl
    exact hpop.hostMove ht

/-- Settles O40: the step lemma of the invariant. -/
theorem stepKeepsInvariants : Obligations.StepKeepsInvariants := by
  unfold Obligations.StepKeepsInvariants
  exact fun _ _ h ht => h.step ht

/-- Settles O39: at reset the registers are blank and no memory cell holds a value. -/
theorem resetKeepsInvariants : Obligations.ResetKeepsInvariants := by
  unfold Obligations.ResetKeepsInvariants
  exact .ofBlank registersBlank_reset reset_memories_wf nofun nofun nofun

end Sys2Proof.Machine
end

section
/-! PROOFS. Decoder and encoder are inverse (`30_encoding.md` sections 1 to 5): an instruction is the class of one code value,
well formed exactly where that value fits the width, and the packed value reads back at its bit position. -/

namespace Sys2Proof.Machine

/-! ### The code of an instruction -/

/-- The code of a value that fits 12 bits (`30_encoding.md` R92). -/
theorem code_toNat {n : Nat} (hn : n < 4096) : (BitVec.ofNat 12 n).toNat = n := by
  rw [BitVec.toNat_ofNat]
  exact Nat.mod_eq_of_lt hn

/-- The encoding of a code class is the code that selects it (`30_encoding.md` R93, R96). -/
theorem encode_of_selects {x : CodeCtx} {c : Code} {i : Instr} (h : Selects x c i) :
    encode x i = .code c.toNat x.cw.toNat := by
  cases i with
  | clr | eoi => exact congrArg (Encoding.code · _) h.symm
  | lit d | ref d | kwk d | bad d => exact congrArg (Encoding.code ·.toNat _) h.1
  | start | reset => exact h.elim

/-- What a code of a legal width selects is well formed (`30_encoding.md` R92, R94). -/
theorem wf_of_selects {x : CodeCtx} {c : Code} {i : Instr} (hx : x.legal) (hc : c.toNat < 2 ^ x.cw.toNat)
    (h : Selects x c i) : i.wf x = true := by
  cases i with
  | clr | eoi => exact decide_eq_true hx
  | lit d | ref d | kwk d | bad d =>
    obtain ⟨rfl, h⟩ := h
    exact decide_eq_true ⟨hx, hc, h⟩
  | start | reset => exact h.elim

/-- A well-formed code class is the class of the code it is encoded as. -/
theorem selects_of_wf {x : CodeCtx} {i : Instr} {n w : Nat} (hw : i.wf x = true) (he : encode x i = .code n w) :
    x.legal ∧ ∃ c : Code, c.toNat = n ∧ Selects x c i := by
  have control : ∀ {k}, x.legal → k ≤ clearCode x.mcs + 1 → (BitVec.ofNat 12 k).toNat = k := fun hx hk => by
    have hcc := (clearCode_bounds hx.1).2
    exact code_toNat (by omega)
  cases i with
  | clr =>
    have hx : x.legal := of_decide_eq_true hw
    obtain ⟨rfl, -⟩ := Encoding.code.inj he
    exact ⟨hx, _, control hx (Nat.le_succ _), control hx (Nat.le_succ _)⟩
  | eoi =>
    have hx : x.legal := of_decide_eq_true hw
    obtain ⟨rfl, -⟩ := Encoding.code.inj he
    exact ⟨hx, _, control hx le_rfl, control hx le_rfl⟩
  | lit c | ref c | kwk c | bad c =>
    obtain ⟨hx, -, h⟩ := of_decide_eq_true hw
    exact ⟨hx, c, (Encoding.code.inj he).1, rfl, h⟩
  | start | reset => cases he

/-- A code class that is well formed is encoded in CW bits, and they hold its value (`30_encoding.md` R92). -/
theorem code_fits {x : CodeCtx} {i : Instr} {n w : Nat} (hw : i.wf x = true) (he : encode x i = .code n w) :
    w = x.cw.toNat ∧ n < 2 ^ w := by
  have fits : Laws.CodeFitsItsWidth.Statement i := by
    cases i with
    | clr => exact Laws.CodeFitsItsWidth.clr
    | eoi => exact Laws.CodeFitsItsWidth.eoi
    | lit c => exact Laws.CodeFitsItsWidth.lit c
    | ref c => exact Laws.CodeFitsItsWidth.ref c
    | kwk c => exact Laws.CodeFitsItsWidth.kwk c
    | bad c => exact Laws.CodeFitsItsWidth.bad c
    | start => exact Laws.CodeFitsItsWidth.start
    | reset => exact Laws.CodeFitsItsWidth.reset
  obtain ⟨hwidth, hlt, -⟩ := fits x n w hw he
  exact ⟨hwidth, hlt⟩

/-! ### The round trip -/

/-- The code of a well-formed instruction decodes at its place in a packed stream. -/
theorem decode_pack {x : CodeCtx} {i : Instr} {n w : Nat} (hw : i.wf x = true) (he : encode x i = .code n w)
    (before after : List (Nat × Nat)) :
    decode x (pack (before ++ (n, w) :: after)) (streamWidth before) = .ok i := by
  obtain ⟨rfl, hlt⟩ := code_fits hw he
  obtain ⟨hx, c, rfl, hsel⟩ := selects_of_wf hw he
  rw [decode_eq_ok, assemble_pack, Nat.mod_eq_of_lt hlt, BitVec.ofNat_toNat, BitVec.setWidth_eq]
  refine ⟨hx, ?_, (classify_of_selects hsel).symm⟩
  rw [pack_length, streamWidth_append, streamWidth]
  omega

/-- The value a command is written as decodes to it (`30_encoding.md` R99). -/
theorem decodeCtrl_encode {x : CodeCtx} {i : Instr} {v : Word} (he : encode x i = .ctrlWrite v) : decodeCtrl v = .ok i := by
  cases i with
  | start =>
    injection he with he
    rw [← he]
    exact decodeCtrl_eq_start_iff.mpr (by decide)
  | reset =>
    injection he with he
    rw [← he]
    exact decodeCtrl_eq_reset_iff.mpr (by decide)
  | clr | eoi | lit c | ref c | kwk c | bad c => cases he

/-- Settles O2: a code by `decode_pack`, a command by `decodeCtrl_encode`. -/
theorem decodeEncodeRoundTrip : Obligations.DecodeEncodeRoundTrip := by
  unfold Obligations.DecodeEncodeRoundTrip
  intro x i hw
  cases he : encode x i with
  | code n w => exact decode_pack hw he
  | ctrlWrite v => exact decodeCtrl_encode he

/-- Settles O3: the code read selects the instruction, and its 12 bits hold the value read. -/
theorem decodedInstrIsWellFormed : Obligations.DecodedInstrIsWellFormed := by
  unfold Obligations.DecodedInstrIsWellFormed
  intro x bytes p i hd
  obtain ⟨hx, -, rfl⟩ := decode_eq_ok.mp hd
  have hsel := selects_classify x (BitVec.ofNat 12 (assemble bytes p x.cw.toNat))
  have hvalue := assembled_code_toNat hx bytes p
  have hlt := assemble_lt bytes p x.cw.toNat
  refine ⟨wf_of_selects hx (hvalue.trans_lt hlt) hsel, ?_⟩
  rw [encode_of_selects hsel, hvalue]

/-! ### Match and mask (`30_encoding.md` R96) -/

/-- `1 << MCS` is CC: a legal MCS keeps the bit inside the code. -/
theorem shifted_one_toNat {m : BitVec 8} (hm : legalMcs m) : (1#12 <<< m.toNat).toNat = clearCode m := by
  have hcc := (clearCode_bounds hm).2
  rw [BitVec.toNat_shiftLeft, Nat.shiftLeft_eq, BitVec.toNat_ofNat, Nat.one_mod, one_mul, ← clearCode]
  exact Nat.mod_eq_of_lt (by omega)

/-- The mask of CLR and EOI is the whole code. -/
theorem and_fullMask (c : Code) : c &&& 0xFFF#12 = c := BitVec.and_allOnes

/-- Clearing the bits of a mask leaves nothing exactly where the value has bits of the mask only. -/
theorem and_not_eq_zero_iff {w : Nat} (a m : BitVec w) : a &&& ~~~m = 0#w ↔ a &&& m = a := by
  have bit : ∀ j (hj : j < w), (a &&& ~~~m)[j] = (0#w)[j] ↔ (a &&& m)[j] = a[j] := fun j hj => by
    rw [BitVec.getElem_and, BitVec.getElem_and, BitVec.getElem_not, BitVec.getElem_zero]
    cases a[j] <;> cases m[j] <;> decide
  simp only [BitVec.eq_of_getElem_eq_iff, bit]

/-- The mask of LIT takes the bits from MCS up, and they are clear exactly below CC. -/
theorem and_literalMask_eq_zero_iff {m : BitVec 8} (hm : legalMcs m) (c : Code) :
    c &&& (0xFFF#12 &&& ~~~((1#12 <<< m.toNat) - 1#12)) = 0#12 ↔ c.toNat < clearCode m := by
  have hcc := clearCode_bounds hm
  have hlow : ((1#12 <<< m.toNat) - 1#12).toNat = 2 ^ m.toNat - 1 := by
    rw [BitVec.toNat_sub, shifted_one_toNat hm, ← clearCode, BitVec.toNat_ofNat]
    omega
  have hmask : ∀ k : Code, 0xFFF#12 &&& k = k := fun k => BitVec.allOnes_and
  rw [hmask, and_not_eq_zero_iff, ← BitVec.toNat_inj, BitVec.toNat_and, hlow, Nat.and_two_pow_sub_one_eq_mod, ← clearCode]
  exact ⟨fun h => h ▸ Nat.mod_lt _ (by omega), Nat.mod_eq_of_lt⟩

/-- Settles O5: the three masked comparisons are the tests of R94, which read neither NEXT nor FIRST. -/
theorem staticSelectors : Obligations.StaticSelectors := by
  unfold Obligations.StaticSelectors
  intro x c hm
  have hcc := shifted_one_toNat hm
  have hbound := (clearCode_bounds hm).2
  have heoi : ((1#12 <<< x.mcs.toNat) + 1#12).toNat = eoiCode x.mcs := by
    rw [BitVec.toNat_add, hcc, BitVec.toNat_ofNat, eoiCode]
    omega
  rw [and_fullMask, ← BitVec.toNat_inj, ← BitVec.toNat_inj, hcc, heoi]
  exact ⟨classify_eq_iff, classify_eq_iff, classify_eq_lit_iff.trans (and_literalMask_eq_zero_iff hm c).symm⟩

/-- Settles O1: the seven codes and the three CTRL values are evaluated. -/
theorem specWordsDecode : Obligations.SpecWordsDecode := by
  unfold Obligations.SpecWordsDecode
  decide

end Sys2Proof.Machine
end

section
/-! PROOFS. The code's bits: the fetch reads the bytes its stream bits stand in (`40_bitreader.md` R121), the word form of a
code (`20_memory.md` R66), and the byte loop that packs a list of codes (`30_encoding.md` R103). -/

namespace Sys2Proof.Machine

/-! ### The fetch (`40_bitreader.md` R121) -/

/-- The window of a code of at least one bit that is there ends with the byte of its last bit, below ILEN. -/
theorem windowLen_bounds {s : State} (hcw : 1 ≤ s.cw.toNat) (he : ¬ inputExhausted s) :
    s.iptr.toNat + windowLen s = (bitpos s + s.cw.toNat - 1) / 8 + 1 ∧ s.iptr.toNat + windowLen s ≤ s.ilen.toNat := by
  rw [inputExhausted] at he
  rw [bitpos] at he ⊢
  rw [windowLen]
  omega

/-- Every byte of the window was written, where the input was. -/
theorem fetchWindow_isSome {s : State} (hcw : 1 ≤ s.cw.toNat) (he : ¬ inputExhausted s) (hin : inputWritten s) :
    (fetchWindow s).isSome := by
  obtain ⟨-, hbelow⟩ := windowLen_bounds hcw he
  rw [fetchWindow, Memory.readList_isSome]
  exact fun j hj => hin _ (by omega)

/-- A bit of the window is a stream bit of IBUF, counted from BITPOS on (`20_memory.md` R65). -/
theorem streamBit_fetchWindow {s : State} {bytes : List Byte} (hw : fetchWindow s = some bytes) {i : Nat}
    (hi : i < s.cw.toNat) : streamBit bytes (s.ibit.toNat + i) =
      (((Memory.read s.ibuf ((bitpos s + i) / 8)).getD 0).toNat >>> ((bitpos s + i) % 8)) % 2 := by
  obtain ⟨-, hcell⟩ := (Memory.readList_eq_some _ _ _ _).mp hw
  have hbyte : (bitpos s + i) / 8 = s.iptr.toNat + (s.ibit.toNat + i) / 8 := by rw [bitpos]; omega
  have hbit : (bitpos s + i) % 8 = (s.ibit.toNat + i) % 8 := by rw [bitpos]; omega
  rw [streamBit, hbyte, hbit, hcell _ (by rw [windowLen]; omega), List.getD_eq_getElem?_getD]

/-- Settles O7: the window is the bytes of the code's stream bits, and the code is their sum. -/
theorem fetchIsTheStreamSum : Obligations.FetchIsTheStreamSum := by
  unfold Obligations.FetchIsTheStreamSum
  intro s hm hcw he hin
  have hwidth : 3 ≤ s.cw.toNat ∧ s.cw.toNat ≤ 12 := ⟨(Nat.succ_le_succ hm.1).trans hcw.1, hcw.2⟩
  obtain ⟨bytes, hw⟩ := Option.isSome_iff_exists.mp (fetchWindow_isSome (by omega) he hin)
  obtain ⟨hlen, -⟩ := (Memory.readList_eq_some _ _ _ _).mp hw
  obtain ⟨hlast, hbelow⟩ := windowLen_bounds (by omega) he
  have hcount : 1 ≤ windowLen s ∧ windowLen s ≤ 3 := by rw [windowLen]; omega
  rw [← hlen] at hlast hbelow hcount
  refine ⟨bytes, hw, hcount.1, hcount.2, hlast, hbelow, ?_, assemble_lt _ _ _⟩
  rw [assemble_eq_sum]
  refine Finset.sum_congr rfl fun i hi => ?_
  rw [streamBit_fetchWindow hw (Finset.mem_range.mp hi), Nat.and_one_is_mod, Nat.shiftLeft_eq]

/-! ### The word form (`20_memory.md` R66) -/

/-- A byte has no bit from 8 on. -/
theorem testBit_byte {i : Nat} (hi : 8 ≤ i) (b : Byte) : b.toNat.testBit i = false :=
  Nat.testBit_lt_two_pow (b.isLt.trans_le (Nat.pow_le_pow_right (by omega) hi))

/-- A bit of the 24-bit word is a bit of its byte. -/
theorem testBit_word (bytes : List Byte) {k : Nat} (hk : k < 24) :
    ((bytes.getD 0 0).toNat ||| (bytes.getD 1 0).toNat <<< 8 ||| (bytes.getD 2 0).toNat <<< 16).testBit k =
      (bytes.getD (k / 8) 0).toNat.testBit (k % 8) := by
  simp only [Nat.testBit_or, Nat.testBit_shiftLeft]
  obtain h | h | h : k / 8 = 0 ∨ k / 8 = 1 ∨ k / 8 = 2 := by omega
  · simp [h, show ¬ 8 ≤ k by omega, show ¬ 16 ≤ k by omega, show k % 8 = k by omega]
  · simp [h, show 8 ≤ k by omega, show ¬ 16 ≤ k by omega, show k % 8 = k - 8 by omega, testBit_byte (i := k) (by omega)]
  · simp [h, show 16 ≤ k by omega, show k % 8 = k - 16 by omega, testBit_byte (i := k) (by omega),
      testBit_byte (i := k - 8) (by omega)]

/-- Settles O8: bit by bit; the last bit of the code is below bit 24 of the word. -/
theorem fetchWordForm : Obligations.FetchWordForm := by
  unfold Obligations.FetchWordForm
  intro bytes o w ho hw
  refine Nat.eq_of_testBit_eq fun i => ?_
  rw [testBit_assemble, decide_streamBit, Nat.testBit_and, Nat.testBit_shiftRight,
    show 1 <<< w - 1 = 2 ^ w - 1 by rw [Nat.one_shiftLeft], Nat.testBit_two_pow_sub_one, Bool.and_comm]
  by_cases hi : i < w
  · rw [testBit_word bytes (by omega)]
  · simp [hi]

/-! ### The byte loop (`30_encoding.md` R103) -/

/-- The low bytes of a number do not see what is added above them. -/
theorem bytesOf_add_mul (v n k : Nat) : bytesOf (v + 2 ^ (8 * n) * k) n = bytesOf v n := by
  rw [← bytesOf_mod, Nat.add_mul_mod_self_left, bytesOf_mod]

/-- The accumulator with one more code: the bits held are below it. -/
theorem or_shiftLeft_eq_add {acc n : Nat} (hacc : acc < 2 ^ n) (c : Nat) : acc ||| c <<< n = acc + 2 ^ n * c := by
  rw [Nat.or_comm, ← Nat.shiftLeft_add_eq_or_of_lt hacc, Nat.shiftLeft_eq, Nat.add_comm, Nat.mul_comm]

/-- The loop from any accumulator: its bits, and those of the codes above them, in whole bytes. -/
theorem packLoop_eq_bytesOf {codes : List (Nat × Nat)} (hfit : ∀ cw ∈ codes, cw.1 < 2 ^ cw.2) {acc n : Nat}
    (hacc : acc < 2 ^ n) (hn : n < 8) :
    packLoop codes acc n = bytesOf (acc + 2 ^ n * streamValue codes) ((n + streamWidth codes + 7) / 8) := by
  induction codes generalizing acc n with
  | nil =>
    rw [packLoop, streamValue, streamWidth]
    split
    · rw [show (n + 0 + 7) / 8 = 1 by omega]
      exact congrArg (fun v => [BitVec.ofNat 8 v]) (Nat.and_two_pow_sub_one_eq_mod acc 8)
    · rw [show (n + 0 + 7) / 8 = 0 by omega, bytesOf]
  | cons code rest ih =>
    obtain ⟨c, w⟩ := code
    obtain ⟨hc, hrest⟩ := List.forall_mem_cons.mp hfit
    obtain ⟨q, hq⟩ : ∃ q, (n + w) / 8 = q := ⟨_, rfl⟩
    obtain ⟨r, hr⟩ : ∃ r, (n + w) % 8 = r := ⟨_, rfl⟩
    have hnw : n + w = 8 * q + r := by omega
    have hheld : acc + 2 ^ n * c < 2 ^ (8 * q) * 2 ^ r := by
      have hmul : 2 ^ n * (c + 1) ≤ 2 ^ n * 2 ^ w := Nat.mul_le_mul_left _ hc
      rw [← pow_add, hnw, pow_add, mul_add, mul_one] at hmul
      omega
    have hvalue : acc + 2 ^ n * streamValue ((c, w) :: rest) =
        acc + 2 ^ n * c + 2 ^ (8 * q) * (2 ^ r * streamValue rest) := by
      rw [streamValue, Nat.mod_eq_of_lt hc, mul_add, ← mul_assoc, ← pow_add, hnw, pow_add, mul_assoc, add_assoc]
    have hbytes : (n + streamWidth ((c, w) :: rest) + 7) / 8 = q + (r + streamWidth rest + 7) / 8 := by
      rw [streamWidth]
      omega
    rw [packLoop, packFlush_eq _ _ _ le_rfl, hq, hr, or_shiftLeft_eq_add hacc,
      ih hrest (Nat.div_lt_of_lt_mul hheld) (by omega), hvalue, hbytes, bytesOf_append, bytesOf_add_mul,
      Nat.add_mul_div_left _ _ (by positivity)]

/-- Settles O9: the loop from an empty accumulator, and each code at its place in the packed number. -/
theorem packIsTheByteLoop : Obligations.PackIsTheByteLoop := by
  unfold Obligations.PackIsTheByteLoop
  intro codes hfit
  refine ⟨?_, ?_⟩
  · rw [packLoop_eq_bytesOf hfit (by decide) (by decide), pack, pow_zero, one_mul, zero_add, zero_add]
  · rintro before c w after rfl
    have hc : c < 2 ^ w := hfit (c, w) (by simp)
    rw [assemble_pack, Nat.mod_eq_of_lt hc]

end Sys2Proof.Machine
end

section
/-! PROOFS. Memories in canonical form are determined by what they read; a CLR finds nothing to clear in first position
(`42_control_codes.md` R161); and the frames of the codes and the commands. -/

namespace Sys2Proof.Machine

/-! ### Canonical memories -/

/-- The first cell answers a read of its address. -/
theorem Memory.read_head {α : Type} (k : Nat) (u : α) (m : Memory α) : Memory.read ((k, u) :: m) k = some u := if_pos rfl

/-- Below its first address a memory holds nothing. -/
theorem Memory.read_eq_none_of_lt {α : Type} {m : Memory α} {a : Nat} (h : ∀ cell ∈ m, a < cell.1) :
    Memory.read m a = none := by
  induction m with
  | nil => rfl
  | cons cell m ih =>
    obtain ⟨hhead, htail⟩ := List.forall_mem_cons.mp h
    rw [Memory.read_cons, if_neg (Nat.ne_of_gt hhead), ih htail]

/-- The first address of a canonical memory is the least that reads a value. -/
theorem Memory.head_le_of_read {α : Type} {k a : Nat} {u v : α} {m : Memory α} (hm : Memory.wf ((k, u) :: m))
    (h : Memory.read ((k, u) :: m) a = some v) : k ≤ a := by
  obtain ⟨hrest, -⟩ := (Memory.wf_cons k u m).mp hm
  by_contra hlt
  rw [Memory.read_eq_none_of_lt (List.forall_mem_cons.mpr ⟨by omega, fun cell hc => by have := hrest cell hc; omega⟩)] at h
  cases h

theorem Memory.ext_of_wf {α : Type} {m n : Memory α} (hm : m.wf) (hn : n.wf)
    (h : ∀ a, Memory.read m a = Memory.read n a) : m = n := by
  induction m generalizing n with
  | nil =>
    cases n with
    | nil => rfl
    | cons cell n => exact nomatch (h cell.1).trans (Memory.read_head cell.1 cell.2 n)
  | cons cell m ih =>
    obtain ⟨k, u⟩ := cell
    cases n with
    | nil => exact nomatch (h k).symm.trans (Memory.read_head k u m)
    | cons cell n =>
      obtain ⟨l, v⟩ := cell
      obtain ⟨hmk, hmwf⟩ := (Memory.wf_cons k u m).mp hm
      obtain ⟨hnl, hnwf⟩ := (Memory.wf_cons l v n).mp hn
      have readk := Memory.read_head k u m
      have readl := Memory.read_head l v n
      obtain rfl : k = l := le_antisymm (Memory.head_le_of_read hm ((h l).trans readl))
        (Memory.head_le_of_read hn ((h k).symm.trans readk))
      obtain rfl : u = v := Option.some.inj ((readk.symm.trans (h k)).trans readl)
      rw [ih hmwf hnwf fun a => ?_]
      by_cases ha : k = a
      · rw [← ha, Memory.read_eq_none_of_lt hmk, Memory.read_eq_none_of_lt hnl]
      · have hrest := h a
        rwa [Memory.read_cons, Memory.read_cons, if_neg ha, if_neg ha] at hrest

/-- Settles O51: the least addresses agree, then what stands there, then the rests. -/
theorem canonicalMemoriesAreEqual : Obligations.CanonicalMemoriesAreEqual := by
  unfold Obligations.CanonicalMemoriesAreEqual
  exact fun _ _ _ hm hn h => Memory.ext_of_wf hm hn h

/-! ### CLR in first position (`42_control_codes.md` R161) -/

/-- Where NEXT is the initial one the table holds nothing from CC up. -/
theorem TableInv.lookup_of_initial {s : State} (h : TableInv s) (hn : s.next.toNat = clearCode s.mcs + 2) {i : Nat}
    (hi : clearCode s.mcs ≤ i) : lookup i s = none := by
  obtain ⟨hclr, heoi⟩ := h.controlSlots
  obtain rfl | rfl | hfree : i = clearCode s.mcs ∨ i = eoiCode s.mcs ∨ s.next.toNat ≤ i := by rw [eoiCode]; omega
  · exact hclr
  · exact heoi
  · exact h.free i hfree

/-- In first position ClearTable finds the initial table, NEXT and width (`10_state.md` R35). -/
theorem Inv.clearTable_eq_self {s : State} (h : Inv s) (hr : s.state = .run) (hf : s.first = true) : clearTable s = s := by
  have hrun := h.running hr
  obtain ⟨hnext, hcw⟩ := hrun.firstPosition hf
  obtain ⟨-, -, hdict⟩ := h.canonical
  have hd : Memory.below s.dict (clearCode s.mcs) = s.dict := by
    refine Memory.ext_of_wf (Memory.below_wf hdict _) hdict fun i => ?_
    rw [Memory.read_below]
    split
    · rfl
    · exact (hrun.table.lookup_of_initial hnext (by omega)).symm
  have hn : BitVec.ofNat 13 (clearCode s.mcs + 2) = s.next := by rw [← hnext, BitVec.ofNat_toNat, BitVec.setWidth_eq]
  have hw : BitVec.ofNat 4 (s.mcs.toNat + 1) = s.cw := by rw [← hcw, BitVec.ofNat_toNat, BitVec.setWidth_eq]
  rw [clearTable, hd, hn, hw]

/-- Settles O11: ClearTable and FIRST are as they were, and the cursor advances by the initial width. -/
theorem clrInFirstPosition : Obligations.ClrInFirstPosition := by
  unfold Obligations.ClrInFirstPosition
  intro s hinv hr hf he
  obtain ⟨-, hcw⟩ := (hinv.running hr).firstPosition hf
  refine ⟨hcw, advance s.cw.toNat s, ?_, bitpos_advance_available he, rfl⟩
  rw [exec_clr, hinv.clearTable_eq_self hr hf, ← hf]

/-! ### Frames -/

section
variable {str : ByteStr} {c : Code} {s t : State}

/-- Of the fields an emitting code may write, which it may. -/
theorem EmitEnd.frame (h : EmitEnd str c s t) :
    t = { s with state := t.state, errcode := t.errcode, errval := t.errval, first := t.first, obuf := t.obuf,
                 olen := t.olen, dict := t.dict, next := t.next, cw := t.cw, prev := t.prev,
                 iptr := t.iptr, ibit := t.ibit } := by
  cases h <;> rfl

/-- An emitting code leaves the output alone, or emits its string below OCAP (`41_dictionary.md` R150). -/
theorem EmitEnd.output (h : EmitEnd str c s t) :
    (t.olen = s.olen ∧ t.obuf = s.obuf) ∨ (¬ overflows str s ∧ Emitted str s t) := by
  cases h with
  | overflow => exact .inl ⟨rfl, rfl⟩
  | firstCode ho | learned ho | full ho => exact .inr ⟨ho, emitted_of_storeStr ho rfl rfl⟩

/-- Outside the bytes of the string OBUF reads as before. -/
theorem Emitted.read_other (h : Emitted str s t) {a : Nat} (ha : a < s.olen.toNat ∨ t.olen.toNat ≤ a) :
    Memory.read t.obuf a = Memory.read s.obuf a := by
  obtain ⟨holen, hread⟩ := h
  rw [hread, if_neg (by omega)]

/-- Outside the bytes OLEN passes over OBUF reads as before. -/
theorem EmitEnd.read_obuf_other (h : EmitEnd str c s t) {a : Nat} (ha : a < s.olen.toNat ∨ t.olen.toNat ≤ a) :
    Memory.read t.obuf a = Memory.read s.obuf a := by
  obtain ⟨-, hobuf⟩ | ⟨-, hem⟩ := h.output
  · rw [hobuf]
  · exact hem.read_other ha

theorem EmitEnd.olen_le (h : EmitEnd str c s t) : s.olen.toNat ≤ t.olen.toNat := by
  obtain ⟨holen, -⟩ | ⟨-, holen, -⟩ := h.output <;> rw [holen]
  exact Nat.le_add_right _ _

/-- An append reaches the slot NEXT only (`41_dictionary.md` R147). -/
theorem EmitEnd.lookup_other (h : EmitEnd str c s t) {j : Nat} (hj : j ≠ s.next.toNat) : lookup j t = lookup j s := by
  cases h with
  | overflow | firstCode | full => rfl
  | learned ho hroom entry =>
    have hslot : lookup j (append entry s) = lookup j s := by rw [lookup_append, if_neg hj.symm]
    exact hslot

theorem execKnown_first (h : execKnown str c s = .next t) : t.first = s.first := by
  obtain ⟨-, rfl⟩ | ⟨-, -, p, -, rfl⟩ | ⟨-, -, rfl⟩ := execKnown_cases h <;> rfl

/-- Of the codes that emit only a LIT in first position writes FIRST (`43_data_codes.md` R172). -/
theorem exec_data_first {i : Instr} (hi : i = .lit c ∨ i = .ref c ∨ i = .kwk c) (hx : exec i s = .next t) :
    t.first = s.first ∨ (i = .lit c ∧ s.first = true ∧ t.first = false) := by
  obtain rfl | rfl | rfl := hi
  · cases hf : s.first
    · rw [exec, execLit_known hf] at hx
      exact .inl ((execKnown_first hx).trans hf)
    · obtain ⟨-, rfl⟩ | ⟨-, rfl⟩ := execLit_first_cases hf hx
      · exact .inl hf
      · exact .inr ⟨rfl, rfl, rfl⟩
  · obtain ⟨str, -, hk⟩ := execRef_cases hx
    exact .inl (execKnown_first hk)
  · obtain ⟨p, -, ⟨-, rfl⟩ | ⟨-, rfl⟩⟩ := execKwk_cases hx
    · exact .inl rfl
    · exact .inl (by rw [appendIfRoom_frame]; rfl)

theorem exec_data_emitEnd {i : Instr} (hi : i = .lit c ∨ i = .ref c ∨ i = .kwk c) (hx : exec i s = .next t) :
    ∃ str c, EmitEnd str c s t :=
  exec_emit_end (hi.imp (⟨c, ·⟩) (Or.imp (⟨c, ·⟩) (⟨c, ·⟩))) hx

end

/-- Settles O28: the frame of each of the four states an emitting code can end in. -/
theorem dataCodeFrames : Obligations.DataCodeFrames := by
  unfold Obligations.DataCodeFrames
  intro s t i c hi hx
  obtain ⟨str, c', hend⟩ := exec_data_emitEnd hi hx
  have hibuf : t.ibuf = s.ibuf := by rw [hend.frame]
  exact ⟨hend.frame, (exec_data_first hi hx).resolve_left, hend.olen_le, fun _ => hend.read_obuf_other,
    fun _ => hend.lookup_other, fun _ => by rw [hibuf]⟩

/-- Settles O27: the states CLR, EOI and BAD end in keep every field that is not named. -/
theorem controlCodeFrames : Obligations.ControlCodeFrames := by
  unfold Obligations.ControlCodeFrames
  intro s t
  refine ⟨fun hx => ?_, fun hx => ?_, fun c hx => ?_⟩
  · rw [exec_clr] at hx
    injection hx with hx
    subst hx
    exact ⟨rfl, fun _ => ⟨rfl, rfl⟩⟩
  · rw [exec_eoi] at hx
    injection hx with hx
    subst hx
    exact ⟨rfl, fun _ => ⟨rfl, rfl, rfl⟩⟩
  · rw [exec_bad] at hx
    injection hx with hx
    subst hx
    exact ⟨rfl, fun _ => ⟨rfl, rfl, rfl⟩⟩

/-- Settles O29: START ends in one of three states, RESET in one. -/
theorem commandFrames : Obligations.CommandFrames := by
  unfold Obligations.CommandFrames
  intro s t
  refine ⟨fun hx => ?_, fun hx => ?_⟩
  · obtain ⟨-, rfl⟩ | ⟨-, -, rfl⟩ | ⟨-, -, rfl⟩ := execStart_cases hx <;> exact ⟨rfl, fun _ => ⟨rfl, rfl⟩⟩
  · rw [exec_reset] at hx
    injection hx with hx
    subst hx
    exact ⟨registersBlank_resetRegisters s, rfl, rfl, fun _ => ⟨rfl, rfl, rfl⟩⟩

end Sys2Proof.Machine
end

section
/-! PROOFS. Which instruction a step runs (`43_data_codes.md` R170, `10_state.md` R22), that the engine always has its step in a
run whose input was written, and that a step reads nothing a run cannot read. -/

namespace Sys2Proof.Machine

/-- Settles O30: the engine's turn is that of the machine itself, or of the machine that has taken the wait off the
script. -/
theorem stepRunsTheDecodedCode : Obligations.StepRunsTheDecodedCode := by
  unfold Obligations.StepRunsTheDecodedCode
  intro s bytes i hr he hw hd
  refine ⟨fun hs => ?_, fun rest hs => ?_⟩
  · rw [step_of_silent hs, engineTurn_run hr he hw hd]
  · rw [step_of_script hs, ← popMove_of_script hs]
    exact engineTurn_run (s := popMove s) hr he hw hd

/-- Settles O31: the command is that of the machine that has taken the move off the script. -/
theorem stepRunsTheCommand : Obligations.StepRunsTheCommand := by
  unfold Obligations.StepRunsTheCommand
  intro s v rest hs
  rw [step_of_script hs, ← popMove_of_script hs]
  refine ⟨fun i hd => hostMove_writeCtrl hd (popMove s), fun hv => ?_⟩
  obtain ⟨-, -, noCommand⟩ := ctrlCommandSelection v
  obtain ⟨-, hnext⟩ := noCommand hv
  exact hnext (popMove s)

/-- A silent machine outside RUN has no engine step (`70_reset_and_hazards.md` R242). -/
theorem step_of_stopped {s : State} (hs : hostSilent s) (hr : s.state ≠ .run) : step s = .next s := by
  rw [step_of_silent hs, engineTurn, if_neg hr]

/-- Settles O32: the three states are not RUN. -/
theorem quiescentEngine : Obligations.QuiescentEngine := by
  unfold Obligations.QuiescentEngine
  intro s h hs
  refine step_of_stopped hs fun hr => ?_
  simp [hr] at h

/-! ### A word of the opcode table (log 13) -/

theorem toOption_eq_some {ε α : Type} {r : Except ε α} {a : α} (h : r.toOption = some a) : r = .ok a := by
  cases r with
  | error e => cases h
  | ok b => exact congrArg _ (Option.some.inj h)

/-- The placed CTRL write is the next move, and taking it off the script gives the machine back. -/
theorem step_placeCtrl {w : Nat} {i : Instr} (hd : decodeCtrl (BitVec.ofNat 32 w) = .ok i) (s : State) :
    step (placeCtrl w s) = exec i s := by
  rw [step_of_script (s := placeCtrl w s) rfl]
  exact hostMove_writeCtrl hd s

/-- The code of the table's context, four bits from bit 0 on, lies in the first byte. -/
theorem decode_firstByte {w : Nat} {i : Instr} (hd : decode tableCtx (bytesOf w 2) 0 = .ok i) :
    decode tableCtx (bytesOf w 1) 0 = .ok i := by
  obtain ⟨hx, -, hi⟩ := decode_eq_ok.mp hd
  have hcw : tableCtx.cw.toNat = 4 := rfl
  refine decode_eq_ok.mpr ⟨hx, by rw [bytesOf_length, hcw]; decide, hi.trans ?_⟩
  rw [hcw, assemble_bytesOf _ _ _ _ (by decide), assemble_bytesOf _ _ _ _ (by decide)]

/-- The placed code word is the next code of the run. -/
theorem step_placeCode {w : Nat} {i : Instr} (hd : decode tableCtx (bytesOf w 2) 0 = .ok i) (s : State) :
    step (placeCode w s) = exec i (placeCode w s) := by
  have he : ¬ inputExhausted (placeCode w s) := by
    have hwidth : 8 * (placeCode w s).ilen.toNat = 32 ∧ bitpos (placeCode w s) + (placeCode w s).cw.toNat = 20 := ⟨rfl, rfl⟩
    rw [inputExhausted]
    omega
  have hw : fetchWindow (placeCode w s) = some (bytesOf w 1) := by
    obtain ⟨hibit, hcw⟩ : (placeCode w s).ibit.toNat = 0 ∧ (placeCode w s).cw.toNat = 4 := ⟨rfl, rfl⟩
    rw [fetchWindow, windowLen, hibit, hcw]
    simp [placeCode, bytesOf, Memory.readList, Memory.writeList, Memory.write, Memory.read]
  rw [step_of_silent (s := placeCode w s) rfl]
  exact engineTurn_run rfl he hw (decode_firstByte hd)

/-- Settles O33: a word of 8 or 32 bits is a CTRL write, any other that decodes is a code. -/
theorem placedWordRuns : Obligations.PlacedWordRuns := by
  unfold Obligations.PlacedWordRuns
  intro s nbits w i hword
  rw [decodeTableWord] at hword
  by_cases hctrl : nbits = 8 ∨ nbits = 32
  · rw [if_pos hctrl] at hword
    rw [State.withFetchWord, if_pos hctrl, if_pos hctrl]
    exact step_placeCtrl (toOption_eq_some hword) s
  · rw [if_neg hctrl] at hword
    rw [State.withFetchWord, if_neg hctrl, if_neg hctrl]
    split at hword
    · exact step_placeCode (toOption_eq_some hword) s
    · cases hword

/-! ### Progress and what a step reads -/

/-- Settles O52: the engine's turn of a run completes. -/
theorem engineNeverStops : Obligations.EngineNeverStops := by
  unfold Obligations.EngineNeverStops
  intro s hinv hr hs hw
  rw [step_of_silent hs]
  exact engineTurn_next (hinv.running hr) hr hw

/-- Settles O54: agreement is kept by every step of silent machines. -/
theorem unreadDataDoesNotMatter : Obligations.UnreadDataDoesNotMatter := by
  unfold Obligations.UnreadDataDoesNotMatter
  exact fun _ _ _ _ h hs ht => agree_step h hs ht

end Sys2Proof.Machine
end

section
/-! PROOFS. The host's buffer accesses (`44_host_commands.md` R198) and the sequence of moves that starts a run (R199). -/

namespace Sys2Proof.Machine

/-! ### Buffer accesses -/

theorem bufferAccess_of_running {s : State} (hr : s.state = .run) (a size : Nat) (go : Result) :
    bufferAccess a size s go = .refused .bufferDuringRun := if_pos hr

theorem bufferAccess_of_le {a size : Nat} {s : State} (hr : s.state ≠ .run) (ha : size ≤ a) (go : Result) :
    bufferAccess a size s go = .refused .bufferOutOfRange := by
  rw [bufferAccess, if_neg hr, if_pos ha]

theorem hostMove_writeIbuf {a : Nat} {s : State} (hr : s.state ≠ .run) (ha : a < s.cfg.ibufSize.val) (b : Byte) :
    hostMove (.writeIbuf a b) s = .next { s with ibuf := Memory.write s.ibuf a b } := bufferAccess_of_lt hr ha _

theorem hostMove_readIbuf {a : Nat} {v : Byte} {s : State} (hr : s.state ≠ .run) (ha : a < s.cfg.ibufSize.val)
    (hv : Memory.read s.ibuf a = some v) : hostMove (.readIbuf a) s = .next (answer (.byte v) s) := by
  rw [hostMove, bufferAccess_of_lt hr ha, hv, answerByte]

theorem hostMove_readObuf {a : Nat} {v : Byte} {s : State} (hr : s.state ≠ .run) (ha : a < s.cfg.obufSize.val)
    (hv : Memory.read s.obuf a = some v) : hostMove (.readObuf a) s = .next (answer (.byte v) s) := by
  rw [hostMove, bufferAccess_of_lt hr ha, hv, answerByte]

/-- Settles O36: each access is checked against STATE, then against the size of its buffer, and then made. (The name
`bufferAccess` is the model's own.) -/
theorem hostBufferAccess : Obligations.BufferAccess := by
  unfold Obligations.BufferAccess
  intro s m rest a hs
  rw [step_of_script hs, popMove_of_script hs]
  refine ⟨?_, ?_, ?_, ?_, ?_, ?_⟩
  · rintro b rfl hr ha
    refine ⟨_, hostMove_writeIbuf (s := { s with host := { s.host with script := rest } }) hr ha b, rfl, fun k => ?_⟩
    rw [Memory.read_write]
    simp only [eq_comm]
  · rintro v rfl hr ha hv
    exact hostMove_readIbuf hr ha hv
  · rintro v rfl hr ha hv
    exact hostMove_readObuf hr ha hv
  · rintro (⟨rfl, ha, hv⟩ | ⟨rfl, ha, hv⟩) hr
    · exact hostMove_readIbuf_unwritten hr ha hv
    · exact hostMove_readObuf_unwritten hr ha hv
  · rintro (⟨b, rfl⟩ | rfl | rfl) hr <;> exact bufferAccess_of_running hr _ _ _
  · rintro (⟨⟨b, rfl⟩ | rfl, ha⟩ | ⟨rfl, ha⟩) hr <;> exact bufferAccess_of_le hr ha _

/-! ### The host sequence -/

/-- The machine in which the host has still to make the moves of a script. -/
def withScript (script : List HostMove) (s : State) : State := { s with host := { s.host with script := script } }

/-- A machine with a given script has exactly its own moves to make. -/
theorem withScript_of_script {s : State} {script : List HostMove} (h : s.host.script = script) : withScript script s = s := by
  rw [withScript, ← h]

/-- One step of a run takes the first move off the script and makes it. -/
theorem run_withScript_cons {m : HostMove} {s t : State} (script : List HostMove) (n : Nat)
    (h : hostMove m (withScript script s) = .next t) : core.run (n + 1) (withScript (m :: script) s) = core.run n t :=
  run_succ n _ t ((step_of_script (s := withScript (m :: script) s) rfl).trans h)

/-- The machine whose IBUF holds the bytes of a payload from an address upward. -/
def withPayload (a : Nat) (payload : List Byte) (s : State) : State := { s with ibuf := Memory.writeList s.ibuf a payload }

/-- Writing a payload takes one step a byte and leaves the rest of the script. -/
theorem run_writePayload {payload : List Byte} {s : State} {a : Nat} (script : List HostMove) (n : Nat)
    (hr : s.state ≠ .run) (hfit : a + payload.length ≤ s.cfg.ibufSize.val) :
    core.run (payload.length + n) (withScript (payload.mapIdx (fun k b => HostMove.writeIbuf (a + k) b) ++ script) s) =
      core.run n (withScript script (withPayload a payload s)) := by
  induction payload generalizing a s with
  | nil => rw [List.length_nil, Nat.zero_add, List.mapIdx_nil, List.nil_append]; rfl
  | cons b payload ih =>
    rw [List.length_cons] at hfit
    have hshift : (fun k c => HostMove.writeIbuf (a + (k + 1)) c) = fun k c => HostMove.writeIbuf (a + 1 + k) c := by
      funext k c
      rw [Nat.add_right_comm, Nat.add_assoc]
    have hmove : ∀ moves, hostMove (.writeIbuf a b) (withScript moves s) =
        .next (withScript moves { s with ibuf := Memory.write s.ibuf a b }) := fun moves =>
      hostMove_writeIbuf (s := withScript moves s) hr (by show a < s.cfg.ibufSize.val; omega) b
    rw [List.mapIdx_cons, List.cons_append, List.length_cons, Nat.add_right_comm, hshift]
    refine (run_withScript_cons (m := .writeIbuf a b) _ _ (hmove _)).trans ?_
    exact ih (s := { s with ibuf := Memory.write s.ibuf a b }) hr (by show _ ≤ s.cfg.ibufSize.val; omega)

/-- The machine of a configuration, its registers written outside a run (`10_state.md` R27 to R29). -/
def withConfig (m : BitVec 8) (l c : Word) (s : State) : State := { s with mcs := m, ilen := l, ocap := c }

/-- The three register writes and the START that end the host sequence. -/
theorem run_configureAndStart {s : State} {m : BitVec 8} {l c : Word} (hr : s.state ≠ .run)
    (hc : configOk (withConfig m l c s)) :
    core.run 4 (withScript [.writeReg 3 l, .writeReg 2 (m.setWidth 32), .writeReg 4 c, .writeReg 0 1] s) =
      .next (startedRun (withConfig m l c (withScript [] s))) := by
  have write : ∀ {n : Nat} (v : Word) (script : List HostMove) (t : State), n ≠ 0 →
      hostMove (.writeReg n v) (withScript script t) = .next (withScript script (writeReg n v t)) := fun v script t hn => by
    rw [hostMove_writeReg hn, writeReg_eq, writeReg_eq]
    rfl
  have hmcs : BitVec.setWidth 8 (m.setWidth 32) = m := by
    rw [BitVec.setWidth_setWidth_of_le _ (by decide), BitVec.setWidth_eq]
  have hconfig : writeReg 4 c (writeReg 2 (m.setWidth 32) (writeReg 3 l s)) = withConfig m l c s := by
    simp [writeReg, hr, hmcs, withConfig]
  have hstart : hostMove (.writeReg 0 1) (withScript [] (withConfig m l c s)) =
      .next (startedRun (withConfig m l c (withScript [] s))) :=
    (hostMove_writeCtrl (i := .start) rfl _).trans (exec_start_of_configOk hr hc)
  refine (run_withScript_cons _ 3 (write l _ _ (by decide))).trans ?_
  refine (run_withScript_cons _ 2 (write _ _ _ (by decide))).trans ?_
  refine (run_withScript_cons _ 1 (write c _ _ (by decide))).trans ?_
  rw [hconfig]
  exact run_withScript_cons _ 0 hstart

/-- Settles O38: the payload, then the configuration and START; the memory written reads the payload. -/
theorem hostSequenceStartsRun : Obligations.HostSequenceStartsRun := by
  unfold Obligations.HostSequenceStartsRun
  intro s payload m cap hr hm hlen hcap hs
  have hsize := s.cfg.ibufSize.isLt
  have hilen : (BitVec.ofNat 32 payload.length).toNat = payload.length := by
    rw [BitVec.toNat_ofNat]
    omega
  have hc : configOk (withConfig m (BitVec.ofNat 32 payload.length) cap (withPayload 0 payload s)) :=
    ⟨hm, hilen.trans_le hlen, hcap⟩
  have hread : ∀ a, a < payload.length → Memory.read (Memory.writeList s.ibuf 0 payload) a = payload[a]? := fun a ha => by
    rw [Memory.read_writeList, if_pos ⟨Nat.zero_le a, by omega⟩, Nat.sub_zero]
  have hwrites : payload.mapIdx (fun a b => HostMove.writeIbuf a b) =
      payload.mapIdx (fun k b => HostMove.writeIbuf (0 + k) b) := by simp only [Nat.zero_add]
  rw [hwrites] at hs
  refine ⟨startedRun (withConfig m (BitVec.ofNat 32 payload.length) cap (withScript [] (withPayload 0 payload s))),
    ?_, rfl, rfl, fun a ha => ?_, rfl, rfl, rfl, rfl, hilen, hread⟩
  · rw [← withScript_of_script hs, run_writePayload _ 4 hr (by omega)]
    exact run_configureAndStart hr hc
  · have ha : a < payload.length := hilen ▸ ha
    have hcell : (Memory.read (Memory.writeList s.ibuf 0 payload) a).isSome := by simp [hread a ha, ha]
    exact hcell

end Sys2Proof.Machine
end

section
/-! PROOFS. The strings a run emits: every emitting code ends in one of three ways, its string is over `0 .. CC - 1` and at
most 4091 bytes long, and it stands in DICT[PREV] afterwards (`43_data_codes.md`, `10_state.md` R36). -/

namespace Sys2Proof.Machine

/-! ### How a code ends that emits a string -/

section
variable {i : Instr} {c : Code} {str : ByteStr} {s t : State}

theorem exec_emits_of_overflows (hstr : Emits i c str s) (ho : overflows str s) : exec i s = .next (raise .ovf c s) := by
  obtain ⟨rfl, rfl⟩ | ⟨rfl, hentry⟩ | ⟨rfl, p, hp, rfl⟩ := hstr
  · exact exec_lit_of_overflows ho
  · exact exec_ref_of_overflows hentry ho
  · exact exec_kwk_of_overflows hp ho

/-- Outside first position the entry learned is the string before with the first byte of the string emitted; for KWK that is
the string emitted itself (`43_data_codes.md` R171, R178). -/
theorem exec_emits_of_fits {p : ByteStr} (hf : s.first = false) (hp : lookup s.prev.toNat s = some p)
    (hstr : Emits i c str s) (ho : ¬ overflows str s) :
    exec i s = .next (emitAndLearn str (strSnoc p (firstByte str)) c s) := by
  obtain ⟨rfl, rfl⟩ | ⟨rfl, hentry⟩ | ⟨rfl, q, hq, rfl⟩ := hstr
  · exact (execLit_known hf).trans (execKnown_of_fits hp ho)
  · exact (execRef_known hentry).trans (execKnown_of_fits hp ho)
  · obtain rfl : q = p := Option.some.inj (hq.symm.trans hp)
    exact exec_kwk_of_fits hp ho

/-- Where a code of 12 bits equals NEXT the table has room (`43_data_codes.md` R179). -/
theorem hasRoom_of_code (hc : c.toNat = s.next.toNat) : hasRoom s := by
  rw [hasRoom, ← hc]
  exact c.isLt

/-- An instruction that emits is a data code. -/
theorem Emits.data (h : Emits i c str s) : i = .lit c ∨ i = .ref c ∨ i = .kwk c :=
  h.imp And.left (Or.imp And.left And.left)

/-- A code answers with OBUF and OLEN as they were, or it is a data code that emitted a string that fits. -/
theorem exec_decoded_output {bytes : List Byte} (hd : decode (codeCtx s) bytes s.ibit.toNat = .ok i)
    (hx : exec i s = .next t) :
    (t.olen = s.olen ∧ t.obuf = s.obuf) ∨
    ∃ c str, Emits i c str s ∧ ¬ overflows str s ∧ Emitted str s t ∧ t.state = s.state := by
  have data : ∀ {c : Code}, (i = .lit c ∨ i = .ref c ∨ i = .kwk c) → (t.olen = s.olen ∧ t.obuf = s.obuf) ∨
      ∃ c str, Emits i c str s ∧ ¬ overflows str s ∧ Emitted str s t ∧ t.state = s.state := fun {c} hi => by
    obtain ⟨str, hstr, ⟨-, rfl⟩ | ⟨ho, hstate, -, -, -, holen, hobuf, -⟩⟩ := exec_data_cases hi hx
    · exact .inl ⟨rfl, rfl⟩
    · exact .inr ⟨c, str, hstr, ho, emitted_of_storeStr ho holen hobuf, hstate⟩
  obtain ⟨c, -, -, ⟨rfl, -⟩ | ⟨rfl, -⟩ | ⟨rfl, -⟩ | ⟨rfl, -⟩ | ⟨rfl, -⟩ | ⟨rfl, -⟩⟩ := decode_ok_cases hd
  · injection hx with hx
    exact .inl (hx ▸ ⟨rfl, rfl⟩)
  · injection hx with hx
    exact .inl (hx ▸ ⟨rfl, rfl⟩)
  · exact data (.inl rfl)
  · injection hx with hx
    exact .inl (hx ▸ ⟨rfl, rfl⟩)
  · exact data (.inr (.inl rfl))
  · exact data (.inr (.inr rfl))

/-- A decoded code is selected by its condition in R94, whatever the code read. -/
theorem decode_selects {bytes : List Byte} (hd : decode (codeCtx s) bytes s.ibit.toNat = .ok i) :
    ∃ c, c.toNat = assemble bytes s.ibit.toNat s.cw.toNat ∧ Selects (codeCtx s) c i := by
  obtain ⟨hx, -, rfl⟩ := decode_eq_ok.mp hd
  exact ⟨_, assembled_code_toNat hx bytes s.ibit.toNat, selects_classify _ _⟩

/-! ### The string of a decoded code -/

/-- In a run the string of a decoded code is over the alphabet, and no slot holds one of more than 4091 bytes
(`10_state.md` R40). -/
theorem RunInv.emits_bounds (h : RunInv s) (hsel : Selects (codeCtx s) c i) (hstr : Emits i c str s) :
    (∀ b ∈ strBytes str, b.toNat < clearCode s.mcs) ∧ strLen str ≤ 4091 := by
  have hcc := (clearCode_bounds h.config.1).1
  have hcode := c.isLt
  obtain ⟨rfl, rfl⟩ | ⟨rfl, hentry⟩ | ⟨rfl, p, hp, rfl⟩ := hstr
  · obtain ⟨-, hc⟩ := hsel
    exact ⟨literalStr_alphabet h.config.1 hc, by rw [literalStr, strLen_oneByte]; omega⟩
  · obtain ⟨-, -, hlo, -⟩ := hsel
    have hlen := h.table.lengths _ _ hlo hentry
    exact ⟨h.table.alphabet _ _ hentry, by omega⟩
  · obtain ⟨-, hf, -, hc⟩ := hsel
    have hc : c.toNat = s.next.toNat := hc
    obtain ⟨hbytes, -, hlen⟩ := h.entry hf hp (h.table.alphabet _ _ hp _ (firstByte_mem p))
    exact ⟨hbytes, by rw [kwkStr]; omega⟩

/-- The step that appends keeps every entry: the slot NEXT was free (`10_state.md` R40). -/
theorem TableInv.lookup_emitAndLearn {entry e : ByteStr} (h : TableInv s) {j : Nat} (hj : lookup j s = some e) :
    lookup j (emitAndLearn str entry c s) = some e := by
  by_cases hroom : hasRoom s
  · obtain ⟨-, hslots, -⟩ := learned_emitAndLearn (str := str) (entry := entry) (c := c) hroom
    have hused : j ≠ s.next.toNat := fun hfree => by
      rw [h.free j hfree.ge] at hj
      cases hj
    rw [hslots, if_neg hused, hj]
  · obtain ⟨hdict, -, -⟩ := tableKept_emitAndLearn (str := str) (entry := entry) (c := c) hroom
    rw [lookup_congr hdict, hj]

/-- The state a string that fits leaves in a run: FIRST is clear, DICT[PREV] is the string, and every entry is kept. -/
theorem RunInv.exec_emits (h : RunInv s) (hsel : Selects (codeCtx s) c i) (hstr : Emits i c str s)
    (ho : ¬ overflows str s) (hx : exec i s = .next t) :
    t.first = false ∧ t.prev = c ∧ lookup c.toNat t = some str ∧ ∀ j e, lookup j s = some e → lookup j t = some e := by
  have literal : i = .lit c → lookup c.toNat s = some (literalStr c) := by
    rintro rfl
    obtain ⟨-, hc⟩ := hsel
    rw [h.table.literals _ hc, BitVec.ofNat_toNat, literalStr]
  cases hf : s.first with
  | true =>
    obtain ⟨rfl, rfl⟩ | ⟨rfl, -⟩ | ⟨rfl, -⟩ := hstr
    · rw [exec_lit_first_of_fits hf ho] at hx
      injection hx with hx
      subst hx
      exact ⟨rfl, rfl, literal rfl, fun _ _ => id⟩
    · obtain ⟨-, hf', -⟩ := hsel
      exact absurd (hf.symm.trans hf') nofun
    · obtain ⟨-, hf', -⟩ := hsel
      exact absurd (hf.symm.trans hf') nofun
  | false =>
    obtain ⟨hprev, -⟩ := h.previous hf
    obtain ⟨p, hp⟩ := Option.isSome_iff_exists.mp hprev
    rw [exec_emits_of_fits hf hp hstr ho] at hx
    injection hx with hx
    subst hx
    refine ⟨by rw [emitAndLearn_frame]; exact hf, emitAndLearn_prev, ?_, fun _ _ => h.table.lookup_emitAndLearn⟩
    obtain ⟨rfl, rfl⟩ | ⟨rfl, hentry⟩ | ⟨rfl, q, hq, rfl⟩ := hstr
    · exact h.table.lookup_emitAndLearn (literal rfl)
    · exact h.table.lookup_emitAndLearn hentry
    · obtain rfl : q = p := Option.some.inj (hq.symm.trans hp)
      obtain ⟨-, -, -, hc⟩ := hsel
      have hc : c.toNat = s.next.toNat := hc
      rw [hc]
      exact lookup_next_of_learned (learned_emitAndLearn (hasRoom_of_code hc))

end

/-! ### The output of an engine step -/

/-- The engine's turn in a run leaves the output alone, or emits the string of its code below OCAP. -/
theorem engineTurn_output {s t : State} (hr : s.state = .run) (ht : engineTurn s = .next t) :
    (t.olen = s.olen ∧ t.obuf = s.obuf) ∨
    ∃ i c str, Selects (codeCtx s) c i ∧ Emits i c str s ∧ ¬ overflows str s ∧ Emitted str s t ∧ exec i s = .next t ∧
      t.state = .run := by
  obtain ⟨-, rfl⟩ | ⟨-, bytes, i, -, hd, hx⟩ := engineTurn_run_cases hr ht
  · exact .inl ⟨rfl, rfl⟩
  · obtain hkept | ⟨c, str, hstr, ho, hem, hstate⟩ := exec_decoded_output hd hx
    · exact .inl hkept
    · obtain ⟨c', -, hsel⟩ := decode_selects hd
      obtain rfl : c = c' := by obtain rfl | rfl | rfl := hstr.data <;> exact hsel.1
      exact .inr ⟨i, c, str, hsel, hstr, ho, hem, hx, hstate.trans hr⟩

/-- Settles O46: at most the one string of the code is emitted. -/
theorem emissionIsBounded : Obligations.EmissionIsBounded := by
  unfold Obligations.EmissionIsBounded
  intro s t hinv hr hengine ht
  have hrun : RunInv (popMove s) := (hinv.running hr).congrHost rfl
  obtain ⟨holen, -⟩ | ⟨i, c, str, hsel, hstr, -, ⟨holen, -⟩, -⟩ :=
    engineTurn_output (s := popMove s) hr (engineTurn_of_step hengine ht)
  · rw [holen, popMove_olen]
    exact Nat.le_add_right _ _
  · obtain ⟨-, hlen⟩ := hrun.emits_bounds hsel hstr
    rw [holen, popMove_olen]
    exact Nat.add_le_add_left hlen _

/-- Settles O49: OLEN changes by an emission only, and the invariant after the step says the rest of PREV. -/
theorem prevHoldsTheEmittedString : Obligations.PrevHoldsTheEmittedString := by
  unfold Obligations.PrevHoldsTheEmittedString
  intro s t hinv hr hs ht hchanged
  have hrun := hinv.running hr
  rw [step_of_silent hs] at ht
  obtain ⟨holen, -⟩ | ⟨i, c, str, hsel, hstr, ho, hem, hx, hstate⟩ := engineTurn_output hr ht
  · exact absurd holen hchanged
  · obtain ⟨hfirst, hprev, hentry, hkept⟩ := hrun.exec_emits hsel hstr ho hx
    obtain ⟨-, hbelow, hcc, heoi⟩ := (hrun.engine hr ht hstate).previous hfirst
    exact ⟨hfirst, ⟨str, by rw [hprev, hentry], hem⟩, hbelow, hcc, heoi, hkept⟩

/-! ### The full table, and KWK -/

/-- With a full table the width is 12, and the run is past first position (`41_dictionary.md` R146, R149). -/
theorem RunInv.full {s : State} (h : RunInv s) (hfull : s.next.toNat = 4096) : s.cw.toNat = 12 ∧ s.first = false := by
  have hcc := (clearCode_bounds h.config.1).2
  have hmax : s.cw.toNat ≤ 12 := h.width.2
  refine ⟨?_, Bool.eq_false_iff.mpr fun hf => ?_⟩
  · obtain hlt | ⟨hcw, -⟩ := h.nextFits
    · rw [hfull] at hlt
      have hpow : s.cw.toNat < 12 → 2 ^ s.cw.toNat ≤ 2 ^ 11 := fun hcw => Nat.pow_le_pow_right (by decide) (by omega)
      omega
    · exact hcw
  · obtain ⟨hnext, -⟩ := h.firstPosition hf
    omega

/-- A string emitted with a full table leaves the table, or takes ERR_OVF. -/
theorem exec_emits_of_full {i : Instr} {c : Code} {str p : ByteStr} {s : State} (hf : s.first = false)
    (hp : lookup s.prev.toNat s = some p) (hfull : ¬ hasRoom s) (hstr : Emits i c str s) :
    ∃ t, exec i s = .next t ∧ TableKept s t ∧ (t.state = .run → t.prev = c) := by
  by_cases ho : overflows str s
  · exact ⟨_, exec_emits_of_overflows hstr ho, ⟨rfl, rfl, rfl⟩, nofun⟩
  · exact ⟨_, exec_emits_of_fits hf hp hstr ho, tableKept_emitAndLearn hfull, fun _ => emitAndLearn_prev⟩

/-- Settles O47: a code of 12 bits is below 4096, so neither KWK nor BAD is read, and LIT and REF find no room. -/
theorem fullTableRegime : Obligations.FullTableRegime := by
  unfold Obligations.FullTableRegime
  intro s bytes i hinv hr hfull _ _ hd
  have hrun := hinv.running hr
  obtain ⟨hcw, hf⟩ := hrun.full hfull
  have hroom : ¬ hasRoom s := by
    rw [hasRoom, hfull]
    exact lt_irrefl _
  obtain ⟨hprev, -⟩ := hrun.previous hf
  obtain ⟨p, hp⟩ := Option.isSome_iff_exists.mp hprev
  refine ⟨hcw, ?_⟩
  obtain ⟨c, -, -, ⟨rfl, -⟩ | ⟨rfl, -⟩ | ⟨rfl, -⟩ | ⟨rfl, -, hbad⟩ | ⟨rfl, -, hlo, hhi⟩ | ⟨rfl, -, -, hc⟩⟩ :=
    decode_ok_cases hd
  · exact .inl rfl
  · exact .inr (.inl rfl)
  · exact .inr (.inr ⟨c, .inl rfl, exec_emits_of_full hf hp hroom (.inl ⟨rfl, rfl⟩)⟩)
  · have hcode := c.isLt
    simp only [hf, Bool.false_eq_true, true_and, false_or] at hbad
    omega
  · obtain ⟨str, hentry⟩ := Option.isSome_iff_exists.mp (hrun.table.learned _ hlo hhi)
    exact .inr (.inr ⟨c, .inr rfl, exec_emits_of_full hf hp hroom (.inr (.inl ⟨rfl, hentry⟩))⟩)
  · exact absurd (hasRoom_of_code hc) hroom

/-- Settles O48: the code is NEXT and has 12 bits, so the slot NEXT exists, and the string emitted is appended there. -/
theorem kwkAlwaysHasRoom : Obligations.KwkAlwaysHasRoom := by
  unfold Obligations.KwkAlwaysHasRoom
  intro s bytes c hinv hr _ _ hd
  have hrun := hinv.running hr
  obtain ⟨c', -, hsel⟩ := decode_selects hd
  obtain ⟨rfl, hf, -, hc⟩ := hsel
  have hc : c.toNat = s.next.toNat := hc
  have hroom := hasRoom_of_code hc
  obtain ⟨hprev, -⟩ := hrun.previous hf
  obtain ⟨p, hp⟩ := Option.isSome_iff_exists.mp hprev
  refine ⟨hroom, p, ?_⟩
  by_cases ho : overflows (kwkStr p) s
  · exact ⟨_, hp, exec_kwk_of_overflows hp ho, nofun⟩
  · have hlearned : Learned (kwkStr p) s (emitAndLearn (kwkStr p) (kwkStr p) c s) := learned_emitAndLearn hroom
    refine ⟨_, hp, exec_kwk_of_fits hp ho, fun _ => ⟨hlearned, ?_⟩⟩
    rw [emitAndLearn_prev, hc]
    exact lookup_next_of_learned hlearned

end Sys2Proof.Machine
end

section
/-! PROOFS. Who writes each memory (`20_memory.md` R60, R63, R71): the engine OBUF and DICT in a run, the host IBUF outside one,
START the table. -/

namespace Sys2Proof.Machine

/-- The sizes and the three memories are in `t` what they are in `s`. -/
def MemoriesKept (s t : State) : Prop := t.cfg = s.cfg ∧ t.ibuf = s.ibuf ∧ t.obuf = s.obuf ∧ t.dict = s.dict

/-- The engine writes no size and no byte of IBUF (conflict C9). -/
theorem engineTurn_input {s t : State} (ht : engineTurn s = .next t) : t.cfg = s.cfg ∧ t.ibuf = s.ibuf := by
  obtain ⟨-, rfl⟩ | ⟨-, -, rfl⟩ | ⟨-, -, bytes, i, -, hd, hx⟩ := engineTurn_cases ht
  · exact ⟨rfl, rfl⟩
  · exact ⟨rfl, rfl⟩
  · have data : ∀ {c : Code}, (i = .lit c ∨ i = .ref c ∨ i = .kwk c) → t.cfg = s.cfg ∧ t.ibuf = s.ibuf := fun hi => by
      obtain ⟨str, c, hend⟩ := exec_data_emitEnd hi hx
      rw [hend.frame]
      exact ⟨rfl, rfl⟩
    obtain ⟨c, -, -, ⟨rfl, -⟩ | ⟨rfl, -⟩ | ⟨rfl, -⟩ | ⟨rfl, -⟩ | ⟨rfl, -⟩ | ⟨rfl, -⟩⟩ := decode_ok_cases hd
    · injection hx with hx
      exact hx ▸ ⟨rfl, rfl⟩
    · injection hx with hx
      exact hx ▸ ⟨rfl, rfl⟩
    · exact data (.inl rfl)
    · injection hx with hx
      exact hx ▸ ⟨rfl, rfl⟩
    · exact data (.inr (.inl rfl))
    · exact data (.inr (.inr rfl))

/-- A string has at least one byte, so an emission moves OLEN, and one that fits keeps it within OCAP. -/
theorem Emitted.olen_bounds {str : ByteStr} {s t : State} (h : Emitted str s t) (ho : ¬ overflows str s) :
    s.olen.toNat < t.olen.toNat ∧ t.olen.toNat ≤ s.ocap.toNat := by
  obtain ⟨holen, -⟩ := h
  rw [overflows] at ho
  have hlen : 1 ≤ strLen str := Nat.succ_pos _
  omega

/-- A write to CTRL reaches no memory but DICT, and that by a START outside RUN. -/
theorem writeCtrl_memories {v : Word} {s t : State} (ht : writeCtrl v s = .next t) :
    MemoriesKept s t ∨
    (s.state ≠ .run ∧ decodeCtrl v = .ok .start ∧ t.cfg = s.cfg ∧ t.ibuf = s.ibuf ∧ t.obuf = s.obuf) := by
  obtain ⟨-, hw⟩ | ⟨hd, hw⟩ | ⟨-, hw⟩ := writeCtrl_cases v s <;> rw [hw] at ht
  · injection ht with ht
    exact .inl (ht ▸ ⟨rfl, rfl, rfl, rfl⟩)
  · obtain ⟨-, rfl⟩ | ⟨-, -, rfl⟩ | ⟨hr, -, rfl⟩ := execStart_cases ht
    · exact .inl ⟨rfl, rfl, rfl, rfl⟩
    · exact .inl ⟨rfl, rfl, rfl, rfl⟩
    · exact .inr ⟨hr, hd, rfl, rfl, rfl⟩
  · injection ht with ht
    exact .inl (ht ▸ ⟨rfl, rfl, rfl, rfl⟩)

/-- Of the host's moves START writes the table, one write reaches one byte of IBUF, hardware reset everything, and no other
reaches a memory. -/
theorem host_step_memories {s t : State} (hengine : ¬ engineTurnNext s) (ht : step s = .next t) :
    MemoriesKept s t ∨
    (s.state ≠ .run ∧ startNext s ∧ t.cfg = s.cfg ∧ t.ibuf = s.ibuf ∧ t.obuf = s.obuf) ∨
    (∃ a b rest, s.state ≠ .run ∧ s.host.script = .writeIbuf a b :: rest ∧
      t = { popMove s with ibuf := Memory.write s.ibuf a b }) ∨
    (∃ rest, s.host.script = .hwReset :: rest) ∧ t.cfg = s.cfg := by
  obtain ⟨hs, -⟩ | ⟨m, rest, hs, hm⟩ := step_cases s
  · exact absurd (.inl hs) hengine
  · rw [hm] at ht
    obtain ⟨v, rfl, hv⟩ | ⟨n, v, -, -, rfl⟩ | ⟨n, -, rfl⟩ | ⟨a, b, rfl, hr, -, rfl⟩ | ⟨a, b, -, -, rfl⟩ | ⟨rfl, rfl⟩ |
      ⟨rfl, -⟩ := hostMove_cases ht
    · obtain hkept | ⟨hr, hd, hrest⟩ := writeCtrl_memories hv
      · exact .inl hkept
      · exact .inr (.inl ⟨hr, ⟨v, rest, hs, decodeCtrl_eq_start_iff.mp hd⟩, hrest⟩)
    · obtain ⟨-, hcfg, hibuf, hobuf, hdict, -, -⟩ := writeReg_frame n v (popMove s)
      exact .inl ⟨hcfg, hibuf, hobuf, hdict⟩
    · exact .inl ⟨rfl, rfl, rfl, rfl⟩
    · exact .inr (.inr (.inl ⟨a, b, rest, hr, hs, rfl⟩))
    · exact .inl ⟨rfl, rfl, rfl, rfl⟩
    · exact .inr (.inr (.inr ⟨⟨rest, hs⟩, rfl⟩))
    · exact absurd (.inr ⟨rest, hs⟩) hengine

/-- Settles O43: the engine's turn by what it emits, the host's moves one by one. -/
theorem writersOfTheMemories : Obligations.WritersOfTheMemories := by
  unfold Obligations.WritersOfTheMemories
  intro s t _ ht
  by_cases hengine : engineTurnNext s
  · have hturn := engineTurn_of_step hengine ht
    by_cases hr : s.state = .run
    · obtain ⟨hcfg, hibuf⟩ := engineTurn_input hturn
      refine ⟨hcfg, .inr ⟨.inl fun a => by rw [hibuf, popMove_ibuf], ?_, .inr (.inl ⟨hr, hengine⟩)⟩⟩
      obtain ⟨-, hobuf⟩ | ⟨i, c, str, -, -, ho, hem, -⟩ := engineTurn_output (s := popMove s) hr hturn
      · exact .inl fun a => by rw [hobuf, popMove_obuf]
      · obtain ⟨hlt, hle⟩ := hem.olen_bounds ho
        exact .inr ⟨hr, hengine, hlt, hle, fun a => hem.read_other⟩
    · rw [engineTurn_idle (s := popMove s) hr hturn]
      exact ⟨rfl, .inr ⟨.inl fun _ => rfl, .inl fun _ => rfl, .inl fun _ => rfl⟩⟩
  · obtain ⟨hcfg, hibuf, hobuf, hdict⟩ | ⟨hr, hstart, hcfg, hibuf, hobuf⟩ | ⟨a, b, rest, hr, hs, rfl⟩ | ⟨hreset, hcfg⟩ :=
      host_step_memories hengine ht
    · exact ⟨hcfg, .inr ⟨.inl fun a => by rw [hibuf], .inl fun a => by rw [hobuf], .inl (lookup_congr hdict)⟩⟩
    · exact ⟨hcfg, .inr ⟨.inl fun a => by rw [hibuf], .inl fun a => by rw [hobuf], .inr (.inr ⟨hr, hstart⟩)⟩⟩
    · refine ⟨rfl, .inr ⟨.inr ⟨hr, a, b, rest, hs, fun k hk => ?_⟩, .inl fun _ => rfl, .inl fun _ => rfl⟩⟩
      exact Memory.read_write_other s.ibuf b hk.symm
    · exact ⟨hcfg, .inl hreset⟩

end Sys2Proof.Machine
end

section
/-! PROOFS. Runs of many steps: what every step keeps holds at the end, the output is over the alphabet (`43_data_codes.md`
R183), and every run ends (`00_scope.md` R14). -/

namespace Sys2Proof.Machine

/-! ### The output's alphabet -/

/-- What every step keeps holds after any number of steps. -/
theorem run_invariant {P : State → Prop} (hstep : ∀ {s t}, P s → step s = .next t → P t) {n : Nat} {s t : State}
    (h : P s) (ht : core.run n s = .next t) : P t := by
  induction n generalizing s with
  | zero =>
    injection ht with ht
    exact ht ▸ h
  | succ n ih =>
    cases hs : step s with
    | next u =>
      rw [run_succ n s u hs] at ht
      exact ih (hstep h hs) ht
    | fault e =>
      rw [run_succ_of_fault n hs] at ht
      cases ht
    | refused e =>
      rw [run_succ_of_refused n hs] at ht
      cases ht

/-- Every byte of the output is there and below `2^MCS`; with it what a silent run keeps. -/
structure OutputInv (m : BitVec 8) (s : State) : Prop where
  silent : hostSilent s
  mcs : s.mcs = m
  running : s.state = .run → RunInv s
  output : ∀ a, a < s.olen.toNat → ∃ b, Memory.read s.obuf a = some b ∧ b.toNat < 2 ^ m.toNat

/-- An emission over the alphabet keeps the output over it. -/
theorem Emitted.alphabet {str : ByteStr} {s t : State} {k : Nat} (h : Emitted str s t)
    (hbytes : ∀ b ∈ strBytes str, b.toNat < k)
    (hout : ∀ a, a < s.olen.toNat → ∃ b, Memory.read s.obuf a = some b ∧ b.toNat < k) :
    ∀ a, a < t.olen.toNat → ∃ b, Memory.read t.obuf a = some b ∧ b.toNat < k := by
  obtain ⟨holen, hread⟩ := h
  intro a ha
  rw [hread]
  split
  · have hin : a - s.olen.toNat < (strBytes str).length := by rw [strBytes_length]; omega
    exact ⟨_, List.getElem?_eq_getElem hin, hbytes _ (List.getElem_mem hin)⟩
  · exact hout a (by omega)

theorem OutputInv.step {m : BitVec 8} {s t : State} (h : OutputInv m s) (ht : step s = .next t) : OutputInv m t := by
  have hsilent := hostSilent_step h.silent ht
  rw [step_of_silent h.silent] at ht
  by_cases hr : s.state = .run
  · have hrun := h.running hr
    obtain ⟨hmcs, -⟩ := engineTurn_configKept ht
    refine ⟨hsilent, hmcs.trans h.mcs, hrun.engine hr ht, ?_⟩
    obtain ⟨holen, hobuf⟩ | ⟨i, c, str, hsel, hstr, -, hem, -⟩ := engineTurn_output hr ht
    · rw [holen, hobuf]
      exact h.output
    · obtain ⟨hbytes, -⟩ := hrun.emits_bounds hsel hstr
      rw [clearCode, h.mcs] at hbytes
      exact hem.alphabet hbytes h.output
  · rw [engineTurn_idle hr ht]
    exact h

/-- Settles O45: START empties the output, and every step of the silent machine keeps it over the alphabet. -/
theorem outputAlphabet : Obligations.OutputAlphabet := by
  unfold Obligations.OutputAlphabet
  intro s r t n hr hc hs hx hn
  rw [exec_start_of_configOk hr hc] at hx
  injection hx with hx
  subst hx
  have hstart : OutputInv s.mcs (startedRun s) := ⟨hs, rfl, fun _ => RunInv.start hc .none 0 .run, nofun⟩
  exact (run_invariant OutputInv.step hstart hn).output

/-! ### The end of a run -/

/-- Each engine step of a run ends it, or moves the cursor by at least 3 within the input (`00_scope.md` R14). -/
theorem RunInv.engineTurn_progress {s t : State} (h : RunInv s) (hr : s.state = .run) (ht : engineTurn s = .next t) :
    t.state = .done ∨ t.state = .err ∨ (t.state = .run ∧ bitpos s + 3 ≤ bitpos t ∧ bitpos t ≤ 8 * s.ilen.toNat) := by
  have hcw : 3 ≤ s.cw.toNat := (Nat.succ_le_succ h.config.1.1).trans h.width.1
  obtain hrun | herr | ⟨hdone, -⟩ := engineTurn_state hr ht
  · obtain ⟨herr, -⟩ | ⟨he, -, hpos⟩ := engineTurn_bitpos hr ht
    · exact .inr (.inl herr)
    · rw [inputExhausted] at he
      exact .inr (.inr ⟨hrun, by omega, by omega⟩)
  · exact .inr (.inl herr)
  · exact .inl hdone

/-- The engine's turn leaves the input as the host wrote it. -/
theorem engineTurn_inputWritten {s t : State} (hin : inputWritten s) (ht : engineTurn s = .next t) : inputWritten t := by
  obtain ⟨-, hibuf⟩ := engineTurn_input ht
  obtain ⟨-, hilen, -⟩ := engineTurn_configKept ht
  rw [inputWritten, hibuf, hilen]
  exact hin

/-- A run ends once three bits a step make more than what is unread. -/
theorem run_ends {n : Nat} {s : State} (h : RunInv s) (hr : s.state = .run) (hs : hostSilent s) (hin : inputWritten s)
    (hn : 8 * s.ilen.toNat < bitpos s + 3 * n) :
    ∃ t, core.run n s = .next t ∧ (t.state = .done ∨ t.state = .err) := by
  induction n generalizing s with
  | zero => exact absurd h.cursor (by omega)
  | succ n ih =>
    obtain ⟨t, ht⟩ := engineTurn_next h hr hin
    have hstep : step s = .next t := (step_of_silent hs).trans ht
    have hsilent : hostSilent t := hostSilent_step hs hstep
    have stopped : t.state = .done ∨ t.state = .err → core.run n t = .next t := fun hend =>
      run_stopped n hsilent fun hrun => by simp [hrun] at hend
    rw [run_succ n s t hstep]
    obtain hdone | herr | ⟨hrun, hpos, -⟩ := h.engineTurn_progress hr ht
    · exact ⟨t, stopped (.inl hdone), .inl hdone⟩
    · exact ⟨t, stopped (.inr herr), .inr herr⟩
    · obtain ⟨-, hilen, -⟩ := engineTurn_configKept ht
      exact ih (h.engine hr ht hrun) hrun hsilent (engineTurn_inputWritten hin ht) (by rw [hilen]; omega)

/-- Settles O53: the bound of `run_ends`, from any state of a run and from its start. -/
theorem everyRunEnds : Obligations.EveryRunEnds := by
  unfold Obligations.EveryRunEnds
  refine ⟨fun s t hinv hr hs ht => ?_, fun s hinv hr hs hin => ?_, fun s r _ hr hc hs hin hx => ?_⟩
  · rw [step_of_silent hs] at ht
    exact (hinv.running hr).engineTurn_progress hr ht
  · exact run_ends (hinv.running hr) hr hs hin (by omega)
  · rw [exec_start_of_configOk hr hc] at hx
    injection hx with hx
    subst hx
    have hpos : bitpos (startedRun s) = 0 := rfl
    have hilen : (startedRun s).ilen = s.ilen := rfl
    exact run_ends (RunInv.start hc .none 0 .run) rfl hs hin (by rw [hpos, hilen]; omega)

end Sys2Proof.Machine
end

section
/-! PROOFS. The round trip (`43_data_codes.md` R184): the run follows the encoder's stream code by code, one table entry behind
it, and delivers the strings in their order. -/

namespace Sys2Proof.Machine

/-! ### What a stretch of a run delivers -/

/-- From `s` to `t` the bytes were appended to the output: `Emitted` for the strings of several codes. -/
def Delivered (bytes : List Byte) (s t : State) : Prop :=
  t.olen.toNat = s.olen.toNat + bytes.length ∧
  ∀ a, Memory.read t.obuf a =
    if s.olen.toNat ≤ a ∧ a < s.olen.toNat + bytes.length then bytes[a - s.olen.toNat]? else Memory.read s.obuf a

theorem Delivered.nil {s t : State} (holen : t.olen = s.olen) (hobuf : t.obuf = s.obuf) : Delivered [] s t := by
  refine ⟨by rw [holen]; rfl, fun a => ?_⟩
  rw [hobuf, if_neg (by rw [List.length_nil]; omega)]

theorem Emitted.delivered {str : ByteStr} {s t : State} (h : Emitted str s t) : Delivered (strBytes str) s t := by
  rw [Delivered, strBytes_length]
  exact h

theorem Delivered.append {xs ys : List Byte} {s t u : State} (hx : Delivered xs s t) (hy : Delivered ys t u) :
    Delivered (xs ++ ys) s u := by
  obtain ⟨hxl, hxr⟩ := hx
  obtain ⟨hyl, hyr⟩ := hy
  rw [Delivered, List.length_append]
  refine ⟨by omega, fun a => ?_⟩
  rw [hyr, hxr, List.getElem?_append, hxl]
  by_cases h1 : a < s.olen.toNat
  · rw [if_neg (by omega), if_neg (by omega), if_neg (by omega)]
  · by_cases h2 : a < s.olen.toNat + xs.length
    · rw [if_neg (by omega), if_pos (by omega), if_pos (by omega), if_pos (by omega)]
    · rw [if_neg (c := s.olen.toNat ≤ a ∧ a < s.olen.toNat + xs.length) (by omega),
        if_neg (c := a - s.olen.toNat < xs.length) (by omega), Nat.sub_add_eq]
      by_cases h3 : a < s.olen.toNat + xs.length + ys.length
      · rw [if_pos (by omega), if_pos (by omega)]
      · rw [if_neg (by omega), if_neg (by omega)]

/-! ### The encoder's codes, read by the run -/

/-- The encoder's first width is the decoder's (`30_encoding.md` R102). -/
theorem isCodeWidth_initial {m : BitVec 8} (hm : legalMcs m) : IsCodeWidth m (clearCode m + 2) (m.toNat + 1) :=
  ⟨le_rfl, by have := hm.2; omega, .inl (clearCode_lt_width hm), fun v hlo hhi => by omega⟩

section
variable {all before : List (Nat × Nat)} {prev : Option ByteStr} {learned : List ByteStr} {s : State}

/-- A run in first position stands where an encoder stands that has just cleared its table. -/
theorem Sim.initial (h : RunInv s) (hr : s.state = .run) (hs : hostSilent s) (hfeed : Feed all s)
    (hpos : bitpos s = streamWidth before) (hf : s.first = true) : Sim all before none [] s := by
  obtain ⟨hnext, hcw⟩ := h.firstPosition hf
  refine ⟨h, hr, hs, hfeed, hpos, hnext, ?_, fun _ => hf, nofun, fun i => ?_⟩
  · rw [hnext, hcw]
    exact isCodeWidth_initial h.config.1
  · have hslot : lookup (2 ^ s.mcs.toNat + 2 + i) s = none :=
      h.table.free _ (hnext.trans_le (Nat.le_add_right _ i))
    rw [hslot, List.getElem?_nil]

/-- In first position the encoder has learned nothing. -/
theorem Sim.learned_eq_nil (h : Sim all before none learned s) : learned = [] := by
  obtain ⟨hnext, -⟩ := h.inv.firstPosition (h.prevNone rfl)
  have hlen := h.next
  rw [clearCode] at hnext
  exact List.length_eq_zero_iff.mp (by omega)

/-- The code of one byte is the literal. -/
theorem literalStr_eq {str : ByteStr} {c : Code} (hhead : str.head.toNat = c.toNat) (htail : str.tail = []) :
    literalStr c = str := by
  have hbyte : c.setWidth 8 = str.head := by
    rw [← BitVec.toNat_inj, BitVec.toNat_setWidth, ← hhead]
    exact Nat.mod_eq_of_lt str.head.isLt
  rw [literalStr, hbyte, oneByte, ← htail]

/-- An entry of the encoder's table was there before, or is the one it learns with the current string. -/
theorem encoderLearns_getElem? {m : BitVec 8} {p str e : ByteStr} {j : Nat}
    (h : (encoderLearns m (some p) learned str)[j]? = some e) :
    learned[j]? = some e ∨
    (j = learned.length ∧ clearCode m + 2 + j < 4096 ∧ e = strSnoc p (firstByte str)) := by
  rw [encoderLearns] at h
  split at h
  · next hroom =>
    obtain hold | rfl | hbeyond := Nat.lt_trichotomy j learned.length
    · rw [List.getElem?_append_left hold] at h
      exact .inl h
    · rw [List.getElem?_concat_length] at h
      exact .inr ⟨rfl, hroom, (Option.some.inj h).symm⟩
    · rw [List.getElem?_eq_none (by rw [List.length_append, List.length_singleton]; omega)] at h
      cases h
  · exact .inl h

/-- A code that names a string to the encoder is to the run, one entry behind, a literal, a learned entry, or the entry it is
about to learn (`43_data_codes.md` R178). -/
theorem Sim.emits {c : Nat} {str : ByteStr} (h : Sim all before prev learned s)
    (hc : CodeNames s.mcs (encoderLearns s.mcs prev learned str) c str) :
    ∃ (i : Instr) (k : Code), k.toNat = c ∧ c ≤ s.next.toNat ∧ Selects (codeCtx s) k i ∧ Emits i k str s := by
  have hcc := (clearCode_bounds h.inv.config.1).2
  have hnextLow := h.inv.nextLow
  have hnextHigh : s.next.toNat ≤ 4096 := h.inv.next_le
  have hnext : s.next.toNat = clearCode s.mcs + 2 + learned.length := h.next
  obtain ⟨hlit, hhead, htail⟩ | ⟨hlo, hentry⟩ := hc
  · have hlit : c < clearCode s.mcs := hlit
    obtain ⟨k, rfl⟩ : ∃ k : Code, k.toNat = c := ⟨_, code_toNat (by omega)⟩
    exact ⟨.lit k, k, rfl, by omega, ⟨rfl, hlit⟩, .inl ⟨rfl, (literalStr_eq hhead htail).symm⟩⟩
  · have hlo : clearCode s.mcs + 2 ≤ c := hlo
    have hentry : (encoderLearns s.mcs prev learned str)[c - (clearCode s.mcs + 2)]? = some str := hentry
    cases prev with
    | none =>
      rw [encoderLearns, h.learned_eq_nil] at hentry
      cases hentry
    | some p =>
      obtain ⟨hf, hp⟩ := h.prevSome p rfl
      obtain hold | ⟨hlast, hroom, hstr⟩ := encoderLearns_getElem? hentry
      · obtain ⟨hlt, -⟩ := List.getElem?_eq_some_iff.mp hold
        obtain ⟨k, rfl⟩ : ∃ k : Code, k.toNat = c := ⟨_, code_toNat (by omega)⟩
        have hbelow : k.toNat < s.next.toNat := by omega
        rw [h.learned, ← clearCode, Nat.add_sub_cancel' hlo] at hold
        exact ⟨.ref k, k, rfl, hbelow.le, ⟨rfl, hf, hlo, hbelow⟩, .inr (.inl ⟨rfl, hold⟩)⟩
      · obtain ⟨k, rfl⟩ : ∃ k : Code, k.toNat = c := ⟨_, code_toNat (by omega)⟩
        have heq : k.toNat = s.next.toNat := by omega
        have hhead : firstByte str = firstByte p := (congrArg ByteStr.head hstr :)
        rw [hhead] at hstr
        exact ⟨.kwk k, k, rfl, heq.le, ⟨rfl, hf, hlo, heq⟩, .inr (.inr ⟨rfl, p, hp, hstr⟩)⟩

/-- The step that reads the next code of the stream executes the instruction the code selects. -/
theorem Sim.step_eq_exec {after : List (Nat × Nat)} {w : Nat} {k : Code} {i : Instr}
    (h : Sim (before ++ (k.toNat, w) :: after) before prev learned s)
    (hw : IsCodeWidth s.mcs (2 ^ s.mcs.toNat + 2 + learned.length) w) (hk : k.toNat ≤ s.next.toNat)
    (hsel : Selects (codeCtx s) k i) :
    s.cw.toNat = w ∧ ¬ inputExhausted s ∧ engineTurn s = exec i s ∧ ∃ t, exec i s = .next t := by
  obtain ⟨hcw, he, bytes, hbytes, hvalue, j, hd, -, hnext⟩ := h.step hw hk k.isLt
  obtain ⟨k', hk', hsel'⟩ := decode_selects hd
  obtain rfl : k' = k := BitVec.eq_of_toNat_eq (hk'.trans hvalue)
  obtain rfl : j = i := (classify_of_selects hsel').symm.trans (classify_of_selects hsel)
  exact ⟨hcw, he, engineTurn_run h.run he hbytes hd, hnext⟩

/-- End-of-Information ends the run with nothing emitted (`42_control_codes.md` R163). -/
theorem Sim.eoi {w : Nat} (h : Sim (before ++ [(2 ^ s.mcs.toNat + 1, w)]) before prev learned s)
    (hw : IsCodeWidth s.mcs (2 ^ s.mcs.toNat + 2 + learned.length) w) :
    ∃ t, core.run 1 s = .next t ∧ t.state = .done ∧ Delivered [] s t := by
  have hcc := (clearCode_bounds h.inv.config.1).2
  have hnext := h.inv.nextLow
  obtain ⟨k, hk⟩ : ∃ k : Code, k.toNat = eoiCode s.mcs := ⟨_, code_toNat (by rw [eoiCode]; omega)⟩
  have h : Sim (before ++ (k.toNat, w) :: []) before prev learned s := by rw [hk]; exact h
  obtain ⟨-, -, hturn, -⟩ := h.step_eq_exec (i := .eoi) hw (by rw [hk, eoiCode]; omega) hk
  have hstep := (step_of_silent h.silent).trans (hturn.trans (exec_eoi s))
  exact ⟨_, run_succ 0 s _ hstep, rfl, .nil rfl rfl⟩

/-- A Clear Code puts run and encoder back where a run starts, with nothing emitted (`42_control_codes.md` R160). -/
theorem Sim.clear {after : List (Nat × Nat)} {w : Nat}
    (h : Sim (before ++ (2 ^ s.mcs.toNat, w) :: after) before prev learned s)
    (hw : IsCodeWidth s.mcs (2 ^ s.mcs.toNat + 2 + learned.length) w) :
    ∃ t, Machine.step s = .next t ∧
      Sim (before ++ (2 ^ s.mcs.toNat, w) :: after) (before ++ [(2 ^ s.mcs.toNat, w)]) none [] t ∧
      ConfigKept s t ∧ Delivered [] s t := by
  have hcc := (clearCode_bounds h.inv.config.1).2
  have hnext := h.inv.nextLow
  obtain ⟨k, hk⟩ : ∃ k : Code, k.toNat = clearCode s.mcs := ⟨_, code_toNat (by omega)⟩
  have h' : Sim (before ++ (k.toNat, w) :: after) before prev learned s := by rw [hk]; exact h
  obtain ⟨hcw, he, hturn, -⟩ := h'.step_eq_exec (i := .clr) hw (by omega) hk
  have hx := exec_clr s
  refine ⟨_, (step_of_silent h.silent).trans (hturn.trans hx), ?_, ⟨rfl, rfl, rfl⟩, .nil rfl rfl⟩
  refine Sim.initial (h.inv.clr he hx) h.run h.silent ⟨h.feed.len, h.feed.bytes⟩ ?_ rfl
  rw [bitpos_advance_step (s' := { clearTable s with first := true }) he rfl rfl, h.pos, hcw, streamWidth_snoc]

/-- One code names one string. -/
theorem Emits.unique {i : Instr} {c : Code} {str str' : ByteStr} (h : Emits i c str s) (h' : Emits i c str' s) :
    str = str' := by
  obtain ⟨rfl, rfl⟩ | ⟨rfl, hentry⟩ | ⟨rfl, p, hp, rfl⟩ := h
  · obtain ⟨-, rfl⟩ | ⟨⟨⟩, -⟩ | ⟨⟨⟩, -⟩ := h'
    rfl
  · obtain ⟨⟨⟩, -⟩ | ⟨-, hentry'⟩ | ⟨⟨⟩, -⟩ := h'
    exact Option.some.inj (hentry.symm.trans hentry')
  · obtain ⟨⟨⟩, -⟩ | ⟨⟨⟩, -⟩ | ⟨-, q, hq, rfl⟩ := h'
    rw [Option.some.inj (hp.symm.trans hq)]

/-- What the run learns with a string is what the encoder learned before it wrote the code. -/
theorem Sim.learns {i : Instr} {k : Code} {str : ByteStr} {t : State} (h : Sim all before prev learned s)
    (hsel : Selects (codeCtx s) k i) (hstr : Emits i k str s) (hfits : ¬ overflows str s) (hx : exec i s = .next t) :
    (encoderLearns s.mcs prev learned str = learned ∧ TableKept s t) ∨
    ∃ e, s.next.toNat < 4096 ∧ encoderLearns s.mcs prev learned str = learned ++ [e] ∧ Learned e s t := by
  cases prev with
  | none =>
    have hf := h.prevNone rfl
    obtain ⟨rfl, rfl⟩ | ⟨rfl, -⟩ | ⟨rfl, -⟩ := hstr
    · rw [exec_lit_first_of_fits hf hfits] at hx
      injection hx with hx
      subst hx
      exact .inl ⟨rfl, rfl, rfl, rfl⟩
    · obtain ⟨-, hf', -⟩ := hsel
      exact absurd (hf.symm.trans hf') nofun
    · obtain ⟨-, hf', -⟩ := hsel
      exact absurd (hf.symm.trans hf') nofun
  | some p =>
    obtain ⟨hf, hp⟩ := h.prevSome p rfl
    rw [exec_emits_of_fits hf hp hstr hfits] at hx
    injection hx with hx
    subst hx
    rw [encoderLearns, ← h.next]
    split
    · next hroom => exact .inr ⟨strSnoc p (firstByte str), hroom, rfl, learned_emitAndLearn hroom⟩
    · next hroom => exact .inl ⟨rfl, tableKept_emitAndLearn hroom⟩

/-- The code of a string that fits emits it, and the run's table is again one entry behind the encoder's. -/
theorem Sim.string {after : List (Nat × Nat)} {c w : Nat} {str : ByteStr}
    (h : Sim (before ++ (c, w) :: after) before prev learned s)
    (hw : IsCodeWidth s.mcs (2 ^ s.mcs.toNat + 2 + learned.length) w)
    (hc : CodeNames s.mcs (encoderLearns s.mcs prev learned str) c str) (hfits : ¬ overflows str s) :
    ∃ t, Machine.step s = .next t ∧
      Sim (before ++ (c, w) :: after) (before ++ [(c, w)]) (some str) (encoderLearns s.mcs prev learned str) t ∧
      ConfigKept s t ∧ Delivered (strBytes str) s t := by
  obtain ⟨i, k, rfl, hk, hsel, hstr⟩ := h.emits hc
  obtain ⟨hcw, he, hturn, t, hx⟩ := h.step_eq_exec hw hk hsel
  have ht := hturn.trans hx
  obtain ⟨str', hstr', ⟨ho, -⟩ | ⟨-, hstate, -, -, -, holen, hobuf, hmcs, hhost, hiptr, hibit, hilen, hocap⟩⟩ :=
    exec_data_cases hstr.data hx
  · exact absurd (hstr.unique hstr' ▸ ho) hfits
  obtain rfl : str = str' := hstr.unique hstr'
  obtain ⟨hfirst, hprev, hentry, -⟩ := h.inv.exec_emits hsel hstr hfits hx
  obtain ⟨-, hibuf⟩ := engineTurn_input ht
  have hrun : t.state = .run := hstate.trans h.run
  refine ⟨t, (step_of_silent h.silent).trans ht, ?_, ⟨hmcs, hilen, hocap⟩,
    (emitted_of_storeStr hfits holen hobuf).delivered⟩
  exact h.emit hcw he (h.inv.engine h.run ht hrun) hrun hhost hibuf hilen hmcs hiptr hibit hfirst
    (by rw [hprev, hentry]) (h.learns hsel hstr hfits hx)

end

/-! ### The whole stream -/

/-- From any point of the stream on, the run delivers what the codes left to read encode, one step a code. -/
theorem run_encoded {m : BitVec 8} {prev : Option ByteStr} {learned : List ByteStr} {buffer : List Byte}
    {codes : List (Nat × Nat)} (henc : EncodedAs m prev learned buffer codes) {before : List (Nat × Nat)} {s : State}
    (hm : s.mcs = m) (h : Sim (before ++ codes) before prev learned s)
    (hroom : s.olen.toNat + buffer.length ≤ s.ocap.toNat) :
    ∃ t, core.run codes.length s = .next t ∧ t.state = .done ∧ Delivered buffer s t := by
  induction henc generalizing before s with
  | stop hw =>
    subst hm
    exact h.eoi hw
  | clear hw rest ih =>
    subst hm
    obtain ⟨t, hstep, hsim, ⟨hmcs, -, hocap⟩, hnone⟩ := h.clear hw
    rw [List.append_cons] at hsim
    obtain ⟨u, hrun, hdone, hdel⟩ := ih hmcs hsim (by rw [hnone.1, hocap]; exact hroom)
    exact ⟨u, (run_succ _ s t hstep).trans hrun, hdone, hnone.append hdel⟩
  | @string prev learned w c str buffer codes hw hc rest ih =>
    subst hm
    rw [List.length_append, strBytes_length] at hroom
    obtain ⟨t, hstep, hsim, ⟨hmcs, -, hocap⟩, hstr⟩ := h.string hw hc (by rw [overflows]; omega)
    rw [List.append_cons] at hsim
    obtain ⟨u, hrun, hdone, hdel⟩ := ih hmcs hsim (by rw [hstr.1, hocap, strBytes_length]; omega)
    exact ⟨u, (run_succ _ s t hstep).trans hrun, hdone, hstr.append hdel⟩

/-- Every buffer has an encoding, from every point of a stream: its bytes as literals. -/
theorem encodedAs_exists {m : BitVec 8} (hm : legalMcs m) {buffer : List Byte} (hb : ∀ b ∈ buffer, b.toNat < 2 ^ m.toNat)
    (prev : Option ByteStr) (learned : List ByteStr) : ∃ codes, EncodedAs m prev learned buffer codes := by
  obtain ⟨w, hw⟩ := width_exists hm (2 ^ m.toNat + 2 + learned.length)
  induction buffer generalizing prev learned w with
  | nil => exact ⟨_, .stop hw⟩
  | cons b buffer ih =>
    obtain ⟨hhead, hrest⟩ := List.forall_mem_cons.mp hb
    obtain ⟨v, hv⟩ := width_exists hm (2 ^ m.toNat + 2 + (encoderLearns m prev learned (oneByte b)).length)
    obtain ⟨codes, hcodes⟩ := ih hrest (some (oneByte b)) _ v hv
    exact ⟨_, .string (str := oneByte b) hw (.inl ⟨hhead, rfl, rfl⟩) hcodes⟩

/-- Settles O56: literals encode every buffer, and START puts the run at the head of the stream. -/
theorem roundTrip : Obligations.RoundTrip := by
  unfold Obligations.RoundTrip
  refine ⟨fun m buffer hm hb => encodedAs_exists hm hb none [], fun s buffer codes hr hc hs henc hlen hbytes hcap => ?_⟩
  have hsim : Sim ([] ++ codes) [] none [] (startedRun s) :=
    .initial (RunInv.start hc .none 0 .run) rfl hs ⟨hlen, hbytes⟩ rfl rfl
  have hempty : (startedRun s).olen.toNat = 0 := rfl
  obtain ⟨t, hrun, hdone, holen, hread⟩ :=
    run_encoded (s := startedRun s) henc rfl hsim (by rw [hempty, Nat.zero_add]; exact hcap)
  rw [hempty, Nat.zero_add] at holen
  refine ⟨startedRun s, t, exec_start_of_configOk hr hc, hrun, hdone, holen, fun a ha => ?_⟩
  rw [hread, hempty, Nat.zero_add, if_pos ⟨Nat.zero_le a, ha⟩, Nat.sub_zero]

end Sys2Proof.Machine
end
